-- ==== Sys2Proof/Word.lean ====
section
/-! DEFINITION. The word types of the PVQ-ARITH block. -/

namespace Sys2Proof

/-- A register, a command word or a VEC word: 32 bits (20_memory.md R51). -/
abbrev Word := BitVec 32

/-- A byte of the register space as a byte-addressed bus sees it (20_memory.md R54). -/
abbrev Byte := BitVec 8

end Sys2Proof
end

