-- ==== Sys2Proof/Config.lean ====
section
/-! DEFINITION. What an implementation fixes, and the values the spec leaves open. -/

namespace Sys2Proof

/-- The sizes and the base address an implementation fixes (00_scope.md R11, R12, R13; 20_memory.md R50).
They are plain data, so a machine can be written out for any of them. What values are legal is
`Params.wellFormed` (WellFormed.lean). -/
structure Params where
  /-- NMAX: the number of words of VEC (R11). -/
  nmax : Nat
  /-- KMAX: a row buffer holds KMAX + 1 entries (R12). -/
  kmax : Nat
  /-- PSEUDO_MAX: the largest pseudo-index THRESH searches (R13). -/
  pseudoMax : Nat
  /-- BASE: the platform address of the register space (R50). -/
  base : Nat
  deriving DecidableEq, Repr

/-- The sizes that 95_test_vectors.md uses throughout (NMAX = 16, KMAX = 128, PSEUDO_MAX = 40), at base address 0.
DESIGN CHOICE (log 1): the machine right after reset is written out for these; no statement rests on them. -/
def Params.reference : Params := { nmax := 16, kmax := 128, pseudoMax := 40, base := 0 }

/-- L2T_NEG: what BLOG2TAN returns when only the sine is non-positive; open (00_scope.md R14; log 2). -/
opaque Config.l2tNeg : Word

/-- L2T_POS: what BLOG2TAN returns when only the cosine is non-positive; open (R14; log 2). -/
opaque Config.l2tPos : Word

/-- L2T_BOTH: what BLOG2TAN returns when both inputs are non-positive; open (R14; log 2). -/
opaque Config.l2tBoth : Word

/-- CS: a function of theta alone, ideally (cos (pi*theta/2), sin (pi*theta/2)); nothing else is assumed
(00_scope.md R15; log 3). -/
opaque Config.cs : Word → Word × Word

/-- The unconstrained 32-bit values: word `j` of draw number `d` (20_memory.md R53, R60; 10_state.md R35;
43_spreading.md R193; log 4). -/
opaque Config.freeWord (d j : Nat) : Word

/-- The binary32 operations of 43_spreading.md R193. -/
inductive FloatOp where
  | add | sub | mul | div
  deriving DecidableEq, Repr

/-- Sign and low fraction bits of the quiet NaN that an operation produces; IEEE 754 and the spec leave them open
(43_spreading.md R193; log 15). -/
opaque Config.nanBits (op : FloatOp) (a b : Word) : BitVec 23

end Sys2Proof
end

