-- ==== Sys2Proof/Machine/Bits.lean ====
section
/-! DEFINITION. Bit fields, sign extension and byte order. -/

namespace Sys2Proof.Machine

/-- zext_32: the unsigned value of a word (00_scope.md R17). -/
def zext32 (w : Word) : Nat := w.toNat

/-- sext_16 of bits 15:0 of a word, bits 31:16 ignored (30_encoding.md R71). -/
def sext16 (w : Word) : Int := (w.extractLsb' 0 16).toInt

/-- wrap16: an integer truncated to 16 bits and read as signed (R17). -/
def wrap16 (v : Int) : Int := (BitVec.ofInt 16 v).toInt

/-- The 32-bit two's-complement pattern of an integer: what a result register holds of it (10_state.md R22). -/
def wordOfInt (v : Int) : Word := BitVec.ofInt 32 v

/-- The 32-bit pattern of an unsigned value. -/
def wordOfNat (v : Nat) : Word := BitVec.ofNat 32 v

/-- Byte `b` of a word is its bits 8*b+7 down to 8*b: little-endian (20_memory.md R54). -/
def byteOf (w : Word) (b : Nat) : Byte := w.extractLsb' (8 * b) 8

/-- The word whose bytes 0 to 3 are given (20_memory.md R54). -/
def wordOfBytes (b0 b1 b2 b3 : Byte) : Word := b3 ++ b2 ++ b1 ++ b0

/-- The four bytes of a word, the lowest address first. -/
def bytesOfWord (w : Word) : List Byte := [byteOf w 0, byteOf w 1, byteOf w 2, byteOf w 3]

end Sys2Proof.Machine
end

