-- ==== Sys2Proof/Syntax.lean ====
section
/-! DEFINITION. The commands of the opcode table and the fields of a command word. -/

namespace Sys2Proof

/-- One constructor per row of spec/opcode_table.json. A command carries no immediate and no register number: every
operand comes from the latches L0 to L3 (30_encoding.md R71). -/
inductive Instr where
  | ilog
  | fmul15
  | bcos
  | blog2tan
  | isqrt
  | cwrsV
  | getpulses
  | fits32
  | thresh
  | pvqDecode
  | spread
  deriving DecidableEq, Repr

/-- The fields of the one format CMDW (30_encoding.md R70). -/
structure CmdWord where
  /-- OP, bits 3:0. -/
  op : BitVec 4
  /-- RSV, bits 31:4. -/
  rsv : BitVec 28
  deriving DecidableEq, Repr

end Sys2Proof
end

