-- ==== Sys2Proof/Machine/FixedPointMath.lean ====
section
/-! DEFINITION. The five fixed-point primitives as functions on integers (40_fixed_point.md). -/

namespace Sys2Proof.Machine

/-- ilog: 0 of 0, else floor (log2 v) + 1 (R101). -/
def ilog (v : Nat) : Nat := if v = 0 then 0 else v.log2 + 1

/-- fmul16: operands truncated to signed 16 bits, exact product, bias 16384, floor shift by 15 (R103).
The result is not truncated again. -/
def fmul16 (a b : Int) : Int := (wrap16 a * wrap16 b + 16384) >>> (15 : Nat)

/-- bcos: the cubic in x2 with the 16-bit wraparounds (R105). -/
def bcos (x : Int) : Int :=
  let t := (4096 + x * x) >>> (13 : Nat)
  let x2 := wrap16 t
  let m3 := fmul16 (-626) x2
  let m2 := fmul16 x2 (8277 + m3)
  let m1 := fmul16 x2 (-7651 + m2)
  let y := wrap16 ((32767 - x2) + m1)
  wrap16 (1 + y)

/-- corr: the polynomial correction term (R112). -/
def l2tCorr (z : Int) : Int := fmul16 z (fmul16 z (-2597) + 7932)

/-- A positive 15-bit magnitude shifted so that bit 14 is its top bit (R111). -/
def l2tNormalize (v : Nat) : Int := (v <<< (15 - ilog v) : Nat)

/-- log2tan for positive inputs (R113). -/
def log2tanPos (s c : Nat) : Int :=
  ((ilog s : Int) - (ilog c : Int)) * 2048 + l2tCorr (l2tNormalize s) - l2tCorr (l2tNormalize c)

/-- log2tan as the word RES0 receives: the saturation cases of R114, else R113. -/
def log2tanWord (s c : Int) : Word :=
  if s ≤ 0 ∧ c ≤ 0 then Config.l2tBoth
  else if s ≤ 0 then Config.l2tNeg
  else if c ≤ 0 then Config.l2tPos
  else wordOfInt (log2tanPos s.toNat c.toNat)

/-- The digit-by-digit search of isqrt: `b` binary digits are still open below the root `r` found so far. -/
def isqrtFrom (v : Nat) : Nat → Nat → Nat
  | 0, r => r
  | b + 1, r => if (r + 2 ^ b) * (r + 2 ^ b) ≤ v then isqrtFrom v b (r + 2 ^ b) else isqrtFrom v b r

/-- isqrt: the largest r with r*r ≤ v, for v of 32 bits (R116). -/
def isqrt (v : Nat) : Nat := isqrtFrom v 16 0

end Sys2Proof.Machine
end

