-- ==== Sys2Proof/Machine/CombinatoricsMath.lean ====
section
/-! DEFINITION. The combinatorics engine as functions on numbers (41_combinatorics.md) and the unranking procedure
(42_pvq_decode.md R166). -/

namespace Sys2Proof.Machine

/-- Entries 1 to K of a row from the row before it: `left` is cur[k-1], the list starts at prev[k-1]. The additions are
made in the order (n-1,k), (n,k-1), (n-1,k-1) (R132). -/
def rowTail (add : Nat → Nat → Nat) : Nat → List Nat → List Nat
  | left, a :: b :: t => add (add b left) a :: rowTail add (add (add b left) a) (b :: t)
  | _, [_] => []
  | _, [] => []

/-- Row n from row n-1 (R131, R132): entry 0 is 1. -/
def nextRow (add : Nat → Nat → Nat) (row : List Nat) : List Nat := 1 :: rowTail add 1 row

/-- Row N, entries 0 to K, under the given addition (R132). -/
def dpRow (add : Nat → Nat → Nat) (K : Nat) : Nat → List Nat
  | 0 => 1 :: List.replicate K 0
  | n + 1 => nextRow add (dpRow add K n)

/-- V(N,K), exact and unbounded (R131), computed row by row. -/
def codebook (N K : Nat) : Nat := (dpRow (· + ·) K N).getD K 0

/-- sat32 (R132). -/
def sat32 (v : Nat) : Nat := min v (2 ^ 32 - 1)

/-- The 32-bit addition that saturates at 2^32 - 1 (R132). -/
def satAdd (a b : Nat) : Nat := sat32 (a + b)

/-- vsat(N,K): entry K of row N under saturating addition (R132). -/
def vsat (N K : Nat) : Nat := (dpRow satAdd K N).getD K 0

/-- GP(i), for i at most 239 (R137). -/
def gp (i : Nat) : Nat := if i < 8 then i else (8 + i % 8) <<< (i / 8 - 1)

/-- fits(N,K): 1 if vsat(N,K) is below 2^31, else 0 (R139). -/
def fits (N K : Nat) : Nat := if vsat N K < 2 ^ 31 then 1 else 0

/-- istar: the largest pseudo-index up to the bound whose codebook fits (R141); index 0 always does. -/
def istar (N : Nat) : Nat → Nat
  | 0 => 0
  | i + 1 => if fits N (gp (i + 1)) = 1 then i + 1 else istar N i

/-- thresh(N) in eighth-bits, with the search bound PSEUDO_MAX (R141). -/
def threshold (N pseudoMax : Nat) : Nat := 8 * ilog (vsat N (gp (istar N pseudoMax))) + 12

/-- The working state of the unranking procedure (10_state.md R37), as numbers. -/
structure UnrankWork where
  /-- The working index i. -/
  i : Nat
  /-- The remaining pulse count k. -/
  k : Nat
  /-- The position j. -/
  j : Nat
  /-- The sign is -1. -/
  neg : Bool
  /-- The partial size p. -/
  p : Nat
  deriving DecidableEq, Repr

/-- The inner loop of R166: while p > i, take one pulse and subtract V(m, k). Returns (k, p). -/
def unrankScan (m i : Nat) : Nat → Nat → Nat × Nat
  | 0, p => (0, p)
  | k + 1, p => if i < p then unrankScan m i k (p - codebook m k) else (k + 1, p)

/-- One position of R166, with m = N-j-1 dimensions after it: X[j] and the working state. -/
def unrankPosition (m : Nat) (w : UnrankWork) : Int × UnrankWork :=
  let p0 := (codebook m w.k + codebook (m + 1) w.k) / 2
  let neg := !decide (w.i < p0)
  let i1 := if neg then w.i - p0 else w.i
  let found := unrankScan m i1 w.k (p0 - codebook m w.k)
  let magnitude : Int := (w.k : Int) - (found.1 : Int)
  (if neg then -magnitude else magnitude,
   { i := i1 - found.2, k := found.1, j := w.j, neg := neg, p := found.2 })

/-- Positions j to N-1 of R166, the first argument being N-j: the entries of X and the last working state. -/
def unrankFrom : Nat → Nat → UnrankWork → List Int × UnrankWork
  | 0, _, w => ([], w)
  | m + 1, j, w =>
    let here := unrankPosition m { w with j := j }
    let after := unrankFrom m (j + 1) here.2
    (here.1 :: after.1, after.2)

/-- The working state before position 0 of unrank(N, K, u). -/
def unrankStart (K u : Nat) : UnrankWork := { i := u, k := K, j := 0, neg := false, p := 0 }

/-- unrank(N, K, u): the u-th pulse vector (R166). -/
def unrank (N K u : Nat) : List Int := (unrankFrom N 0 (unrankStart K u)).1

/-- What the working state holds after unrank(N, K, u) (10_state.md R37; log 11). -/
def unrankEnd (N K u : Nat) : UnrankWork := (unrankFrom N 0 (unrankStart K u)).2

end Sys2Proof.Machine
end

