-- ==== Sys2Proof/WellFormed.lean ====
section
/-! DEFINITION. Which instructions, command words and parameters are well formed. -/

namespace Sys2Proof

/-- A command has no operand that could be ill formed (30_encoding.md R71): every constructor is well formed. -/
def Instr.wellFormed : Instr → Bool
  | .ilog => true
  | .fmul15 => true
  | .bcos => true
  | .blog2tan => true
  | .isqrt => true
  | .cwrsV => true
  | .getpulses => true
  | .fits32 => true
  | .thresh => true
  | .pvqDecode => true
  | .spread => true

/-- RSV must be 0 (30_encoding.md R70). -/
def CmdWord.reservedClear (c : CmdWord) : Bool := c.rsv == 0

/-- OP is one of 0x1 to 0xB (30_encoding.md R72). -/
def CmdWord.opcodeDefined (c : CmdWord) : Bool := decide (1 ≤ c.op.toNat) && decide (c.op.toNat ≤ 0xB)

/-- A command word that decodes to a command (30_encoding.md R72 to R74). -/
def CmdWord.wellFormed (c : CmdWord) : Bool := c.reservedClear && c.opcodeDefined

/-- 1 <= NMAX <= 2^24 (00_scope.md R11). -/
def Params.nmaxLegal (p : Params) : Bool := decide (1 ≤ p.nmax) && decide (p.nmax ≤ 2 ^ 24)

/-- 1 <= KMAX <= 2^24 and KMAX >= GP(PSEUDO_MAX) (00_scope.md R12). -/
def Params.kmaxLegal (p : Params) : Bool :=
  decide (1 ≤ p.kmax) && decide (p.kmax ≤ 2 ^ 24) && decide (Machine.gp p.pseudoMax ≤ p.kmax)

/-- 0 <= PSEUDO_MAX <= 239 (00_scope.md R13). -/
def Params.pseudoMaxLegal (p : Params) : Bool := decide (p.pseudoMax ≤ 239)

/-- BASE is a multiple of 4 (20_memory.md R50). -/
def Params.baseLegal (p : Params) : Bool := decide (p.base % 4 = 0)

/-- Parameters an implementation may have (00_scope.md R11 to R13, 20_memory.md R50). -/
def Params.wellFormed (p : Params) : Bool := p.nmaxLegal && p.kmaxLegal && p.pseudoMaxLegal && p.baseLegal

end Sys2Proof
end

