-- ==== Sys2Proof/Decode.lean ====
section
/-! DEFINITION. Decoding a command word, total and rejecting by name, and the encoder (30_encoding.md R70 to R74). -/

namespace Sys2Proof

/-- Why a word, or a list of bytes, is no command. Both word cases are R74's ILLEGAL. -/
inductive DecodeReject where
  /-- A bit of RSV is set (R74). -/
  | reservedBitsSet
  /-- OP is 0x0 or 0xC to 0xF (R74). -/
  | reservedOpcode
  /-- Fewer than four bytes: no command word (every command word is exactly 32 bits, R70). -/
  | truncated
  deriving DecidableEq, Repr

/-- The fields of a word (R70). -/
def cmdFields (w : Word) : CmdWord := { op := w.extractLsb' 0 4, rsv := w.extractLsb' 4 28 }

/-- The opcode map (R72). -/
def instrOfOpcode (op : BitVec 4) : Option Instr :=
  if op = 0x1 then some .ilog
  else if op = 0x2 then some .fmul15
  else if op = 0x3 then some .bcos
  else if op = 0x4 then some .blog2tan
  else if op = 0x5 then some .isqrt
  else if op = 0x6 then some .cwrsV
  else if op = 0x7 then some .getpulses
  else if op = 0x8 then some .fits32
  else if op = 0x9 then some .thresh
  else if op = 0xA then some .pvqDecode
  else if op = 0xB then some .spread
  else none

/-- decode(w) (R73), with ILLEGAL told apart by its reason. -/
def decode (w : Word) : Except DecodeReject Instr :=
  if (cmdFields w).rsv ≠ 0 then .error .reservedBitsSet
  else match instrOfOpcode (cmdFields w).op with
    | some i => .ok i
    | none => .error .reservedOpcode

/-- A command word read from bytes, the lowest address first (20_memory.md R54), and the bytes after it. -/
def decodeBytes : List Byte → Except DecodeReject (Instr × List Byte)
  | b0 :: b1 :: b2 :: b3 :: rest =>
    match decode (Machine.wordOfBytes b0 b1 b2 b3) with
    | .ok i => .ok (i, rest)
    | .error e => .error e
  | _ => .error .truncated

/-- The OP value of a command (R72). -/
def opcodeOf : Instr → BitVec 4
  | .ilog => 0x1
  | .fmul15 => 0x2
  | .bcos => 0x3
  | .blog2tan => 0x4
  | .isqrt => 0x5
  | .cwrsV => 0x6
  | .getpulses => 0x7
  | .fits32 => 0x8
  | .thresh => 0x9
  | .pvqDecode => 0xA
  | .spread => 0xB

/-- The command word of a command: RSV = 0 above its OP (R70, R72). -/
def encode (i : Instr) : Word := (0 : BitVec 28) ++ opcodeOf i

/-- The bytes of a command word, the lowest address first. -/
def encodeBytes (i : Instr) : List Byte := Machine.bytesOfWord (encode i)

/-- The command read from a row's bits as the opcode table numbers them: the word's bytes as the bus lays them out,
given to the decoder. -/
def decodeTableWord (nbits w : Nat) : Option Instr :=
  match decodeBytes (Machine.bytesOfWord (BitVec.ofNat 32 (w % 2 ^ nbits))) with
  | .ok (i, _) => some i
  | .error _ => none

end Sys2Proof
end

