-- ==== Sys2Proof/Machine/State.lean ====
section
/-! DEFINITION. The machine's state, its faults and refusals, and the state after reset. -/

namespace Sys2Proof.Machine

/-- The error codes of STATUS.ERR (60_exceptions.md R220). Codes 11 to 15 are never produced, so they have no name. -/
inductive ErrCode where
  | ok | invalidDimension | invalidCodebook | invalidSpread | invalidBlockDivision | invalidBlockCount
  | entropy | illegalCmd | capacity | codebookTooLarge | domain
  deriving DecidableEq, Repr

/-- The writable fields of STATUS; its other bits are hardwired to 0 (10_state.md R25). -/
structure Status where
  busy : Bool
  done : Bool
  ovr : Bool
  err : ErrCode
  deriving DecidableEq, Repr

/-- The block's phase (10_state.md R27). -/
inductive Phase where
  | idle
  | exec
  | waitEnt (ft : Word)
  deriving DecidableEq, Repr

/-- LOP: a 4-bit opcode or the mark ILLEGAL (10_state.md R28). -/
inductive LatchedOp where
  | op (code : BitVec 4)
  | illegal
  deriving DecidableEq, Repr

/-- The collaborator's answer: OK(u) or ERR(e) (42_pvq_decode.md R160). -/
inductive Answer where
  | ok (u : Word)
  | err (e : Word)
  deriving DecidableEq, Repr

/-- The model fault record: a set over the three host faults (10_state.md R39, 60_exceptions.md R227). -/
structure HostFaults where
  badAccess : Bool
  unwrittenVec : Bool
  entropyRange : Bool
  deriving DecidableEq, Repr

/-- The unranking working state, hidden scratch of PVQ_DECODE (10_state.md R37). -/
structure UnrankRegs where
  i : Word
  k : Word
  j : Word
  neg : Bool
  p : Word
  deriving DecidableEq, Repr

/-- A turn of one of the agents (10_state.md R20, 70_reset_and_hazards.md R250). Addresses are the platform's; widths are
in bits. -/
inductive Turn where
  /-- The block takes its step, if it has one. -/
  | block
  /-- The host reads. -/
  | read (width addr : Nat)
  /-- The host writes; `v` is the low 32 bits of the write data (log 25). -/
  | write (width addr : Nat) (v : Word)
  /-- The collaborator answers the outstanding request. -/
  | answer (a : Answer)
  /-- An answer to a request that a reset has withdrawn arrives (70_reset_and_hazards.md R252). -/
  | lateAnswer (a : Answer)
  /-- The platform asserts the reset input (70_reset_and_hazards.md R250). -/
  | reset
  deriving DecidableEq, Repr

/-- Memory: (address, byte) pairs, addresses strictly rising; an unlisted address holds no value (10_state.md R35).
Addresses are byte offsets from BASE; only VEC lives here (20_memory.md R51; log 8). -/
abbrev Memory := List Host.Cell

/-- The canonical form of memory. -/
abbrev Memory.wf (m : Memory) : Prop := List.Pairwise (fun a b : Host.Cell => a.1 < b.1) m

/-- Every piece of state the spec gives the block (10_state.md R41), and the model's own fields. -/
structure State where
  /-- The implementation parameters; no step writes them (log 1). -/
  params : Params
  /-- Operand registers (R21). -/
  arg0 : Word
  arg1 : Word
  arg2 : Word
  arg3 : Word
  /-- Result registers (R22). -/
  res0 : Word
  res1 : Word
  /-- Command register (R23). -/
  cmd : Word
  /-- Status register (R25). -/
  status : Status
  /-- The phase (R27). -/
  phase : Phase
  /-- Latched opcode (R28). -/
  lop : LatchedOp
  /-- Latched command word (R28). -/
  lcmd : Word
  /-- Latched operands (R33). -/
  l0 : Word
  l1 : Word
  l2 : Word
  l3 : Word
  /-- The vector buffer VEC as bytes (R34, R35). -/
  mem : Memory
  /-- The row buffers of the combinatorics engine (R36). -/
  rowPrev : List Word
  rowCur : List Word
  /-- The unranking working state (R37). -/
  unrank : UnrankRegs
  /-- The entropy port: the bound of the outstanding request, and the held answer (R38). -/
  request : Option Word
  answer : Option Answer
  /-- The model fault record (R39). -/
  faults : HostFaults
  /-- The turns of the agents still to come, the next one first; when none is left the block takes its step (log 5). -/
  agenda : List Turn
  /-- What the bus returned to the host's last read (log 7). -/
  rdata : Option Word
  /-- How many times a free value was drawn (log 4). -/
  draws : Nat
  deriving DecidableEq, Repr

/-- Why the machine stops with a fault. -/
inductive Fault where
  /-- Raised by a host turn whose address lies below BASE: the register space starts at BASE (20_memory.md R50), so the
  access is not one of the block and the spec gives it no effect. Safe (log 17). -/
  | outsideBlock
  deriving DecidableEq, Repr

/-- Why the machine gives no meaning. -/
inductive Refusal where
  /-- An instruction without a meaning, rejected in exec's arm by its mnemonic. Safe. No arm does so. -/
  | notModelled (mnemonic : String)
  deriving DecidableEq, Repr

/-- STATUS = 0 (10_state.md R41). -/
def Status.reset : Status := { busy := false, done := false, ovr := false, err := .ok }

/-- No host fault recorded. -/
def HostFaults.none : HostFaults := { badAccess := false, unwrittenVec := false, entropyRange := false }

/-- The unranking scratch after reset: unspecified by R41, so 0 by DESIGN CHOICE (log 9). -/
def UnrankRegs.reset : UnrankRegs := { i := 0, k := 0, j := 0, neg := false, p := 0 }

/-- The machine right after reset with the given parameters: the reset table of 10_state.md R41. The row buffers are
unspecified there: 0 by DESIGN CHOICE (log 9). -/
def State.resetWith (p : Params) : State where
  params := p
  arg0 := 0
  arg1 := 0
  arg2 := 0
  arg3 := 0
  res0 := 0
  res1 := 0
  cmd := 0
  status := Status.reset
  phase := .idle
  lop := .op 0
  lcmd := 0
  l0 := 0
  l1 := 0
  l2 := 0
  l3 := 0
  mem := []
  rowPrev := List.replicate (p.kmax + 1) 0
  rowCur := List.replicate (p.kmax + 1) 0
  unrank := UnrankRegs.reset
  request := none
  answer := none
  faults := HostFaults.none
  agenda := []
  rdata := none
  draws := 0

/-- The machine right after reset (10_state.md R41), with the parameters of 95_test_vectors.md (log 1). -/
def State.reset : State := State.resetWith Params.reference

end Sys2Proof.Machine
end

