-- ==== Sys2Proof/Machine/Flags.lean ====
section
/-! DEFINITION. STATUS: its word as the host reads it and how each event changes it (10_state.md R25, R26). -/

namespace Sys2Proof.Machine

/-- The number of an error code (60_exceptions.md R220). -/
def ErrCode.number : ErrCode → BitVec 4
  | .ok => 0
  | .invalidDimension => 1
  | .invalidCodebook => 2
  | .invalidSpread => 3
  | .invalidBlockDivision => 4
  | .invalidBlockCount => 5
  | .entropy => 6
  | .illegalCmd => 7
  | .capacity => 8
  | .codebookTooLarge => 9
  | .domain => 10

/-- STATUS as a 32-bit word: ERR in bits 11:8, OVR bit 2, DONE bit 1, BUSY bit 0, every other bit 0 (R25). -/
def Status.word (t : Status) : Word :=
  (0 : BitVec 20) ++ t.err.number ++ (0 : BitVec 5) ++ BitVec.ofBool t.ovr ++ BitVec.ofBool t.done ++ BitVec.ofBool t.busy

/-- Accept: DONE, ERR and OVR are cleared and BUSY is set (R30). -/
def Status.accept (_ : Status) : Status := { busy := true, done := false, ovr := false, err := .ok }

/-- Completion with a code: ERR is the code, DONE is set, BUSY is cleared, OVR is kept (R31). -/
def Status.complete (t : Status) (code : ErrCode) : Status := { t with busy := false, done := true, err := code }

/-- A host write was ignored because BUSY = 1 (20_memory.md R60). -/
def Status.overrun (t : Status) : Status := { t with ovr := true }

end Sys2Proof.Machine
end

