-- ==== Sys2Proof/Machine/Ops.lean ====
section
/-! DEFINITION. The shared operations: memory bytes and words, VEC, drawing a free value, accept, completion, raising an
error, the entropy port, the fault record and the reset input. -/

namespace Sys2Proof.Machine

/-- The byte at an address, or no value. -/
def Memory.readByte : Memory → Nat → Option Byte
  | [], _ => none
  | (a, b) :: rest, x => if a = x then some b else Memory.readByte rest x

/-- Memory with one byte written, addresses kept strictly rising. -/
def Memory.writeByte : Memory → Nat → Byte → Memory
  | [], x, v => [(x, v)]
  | (a, b) :: rest, x, v =>
    if x < a then (x, v) :: (a, b) :: rest
    else if a = x then (x, v) :: rest
    else (a, b) :: Memory.writeByte rest x v

/-- The word at an address, little-endian; no value unless all four bytes hold one (20_memory.md R54; log 8). -/
def Memory.readWord (m : Memory) (x : Nat) : Option Word :=
  match Memory.readByte m x, Memory.readByte m (x + 1), Memory.readByte m (x + 2), Memory.readByte m (x + 3) with
  | some b0, some b1, some b2, some b3 => some (wordOfBytes b0 b1 b2 b3)
  | _, _, _, _ => none

/-- Memory with one word written, little-endian (20_memory.md R54, R56). -/
def Memory.writeWord (m : Memory) (x : Nat) (v : Word) : Memory :=
  Memory.writeByte
    (Memory.writeByte (Memory.writeByte (Memory.writeByte m x (byteOf v 0)) (x + 1) (byteOf v 1)) (x + 2) (byteOf v 2))
    (x + 3) (byteOf v 3)

/-- Memory with consecutive words written from an address upward. -/
def Memory.writeWords (m : Memory) (x : Nat) : List Word → Memory
  | [] => m
  | v :: vs => Memory.writeWords (Memory.writeWord m x v) (x + 4) vs

/-- The offset of VEC[j] (20_memory.md R51). -/
def vecOffset (j : Nat) : Nat := 0x100 + 4 * j

/-- VEC[j]: a value or no value (10_state.md R35). -/
def State.vec (s : State) (j : Nat) : Option Word := Memory.readWord s.mem (vecOffset j)

/-- VEC[j] <- v (10_state.md R34). -/
def State.setVec (s : State) (j : Nat) (v : Word) : State := { s with mem := Memory.writeWord s.mem (vecOffset j) v }

/-- VEC[0], VEC[1], ... <- the listed words. -/
def State.setVecFrom0 (s : State) (vs : List Word) : State := { s with mem := Memory.writeWords s.mem (vecOffset 0) vs }

/-- The words of the next draw: `n` unconstrained values (log 4). -/
def State.freeWords (s : State) (n : Nat) : List Word := (List.range n).map (Config.freeWord s.draws)

/-- The draw is over: the next one is fresh (log 4). -/
def State.drawn (s : State) : State := { s with draws := s.draws + 1 }

/-- The host fault HOST(BAD_ACCESS) is recorded (60_exceptions.md R227). -/
def State.recordBadAccess (s : State) : State := { s with faults := { s.faults with badAccess := true } }

/-- The host fault HOST(UNWRITTEN_VEC) is recorded (60_exceptions.md R227). -/
def State.recordUnwrittenVec (s : State) : State := { s with faults := { s.faults with unwrittenVec := true } }

/-- The host fault HOST(ENTROPY_RANGE) is recorded (60_exceptions.md R227). -/
def State.recordEntropyRange (s : State) : State := { s with faults := { s.faults with entropyRange := true } }

/-- What LOP latches of a command word (10_state.md R28, R30). -/
def latchOp (w : Word) : LatchedOp :=
  match decode w with
  | .ok i => .op (opcodeOf i)
  | .error _ => .illegal

/-- Accept of the command word `w` (10_state.md R30). -/
def State.accept (s : State) (w : Word) : State :=
  { s with
    cmd := w, lcmd := w, lop := latchOp w
    l0 := s.arg0, l1 := s.arg1, l2 := s.arg2, l3 := s.arg3
    status := s.status.accept
    phase := .exec }

/-- Completion with a code; the results are written before, in the same step (10_state.md R31). -/
def State.complete (s : State) (code : ErrCode) : State :=
  { s with status := s.status.complete code, phase := .idle }

/-- raise ERR(code), for every command alike: the command completes with the code and RES0, RES1 and VEC keep their values
(60_exceptions.md R221, R225). There is no trap: no pc or mode is saved, and there is no return instruction (R226); the
next accept clears the code (`State.accept`). -/
def State.raise (s : State) (code : ErrCode) : State := s.complete code

/-- x[RES0] <- v (10_state.md R22). -/
def State.setRes0 (s : State) (v : Word) : State := { s with res0 := v }

/-- x[RES1] <- v (10_state.md R22). -/
def State.setRes1 (s : State) (v : Word) : State := { s with res1 := v }

/-- A row written over the first entries of a row buffer. -/
def overlay (row : List Nat) (buffer : List Word) : List Word := row.map wordOfNat ++ buffer.drop row.length

/-- The two row buffers after a sweep to row N, swapped at each iteration (41_combinatorics.md R132; log 10). -/
def sweptRows (K : Nat) (prev cur : List Word) : Nat → List Word × List Word
  | 0 => (overlay (dpRow satAdd K 0) prev, cur)
  | n + 1 =>
    let before := sweptRows K prev cur n
    (overlay (dpRow satAdd K (n + 1)) before.2, before.1)

/-- The row buffers after vsat(N, K) (10_state.md R36). -/
def State.sweep (s : State) (N K : Nat) : State :=
  let rows := sweptRows K s.rowPrev s.rowCur N
  { s with rowPrev := rows.1, rowCur := rows.2 }

/-- The row buffers after a command whose order of sweeps the spec does not give: unconstrained scratch (log 10). -/
def State.scrambleRows (s : State) : State :=
  { s with
    rowPrev := s.freeWords (s.params.kmax + 1)
    rowCur := (s.drawn).freeWords (s.params.kmax + 1)
    draws := s.draws + 2 }

/-- The unranking registers after unrank(N, K, u) (10_state.md R37; log 11). -/
def State.setUnrank (s : State) (w : UnrankWork) : State :=
  { s with unrank := { i := wordOfNat w.i, k := wordOfNat w.k, j := wordOfNat w.j, neg := w.neg, p := wordOfNat w.p } }

/-- The block posts Entropy.uniform(ft) and waits (10_state.md R31, 42_pvq_decode.md R160). -/
def State.postRequest (s : State) (ft : Word) : State := { s with request := some ft, phase := .waitEnt ft }

/-- The completion uses up the held answer (10_state.md R38: at most one; log 13). -/
def State.takeAnswer (s : State) : State := { s with answer := none }

/-- An answer OK(u) with u >= ft: the fault is recorded and the block takes no further step, staying BUSY: it waits for an
answer to a request that is no longer outstanding (42_pvq_decode.md R161; log 12). -/
def State.breakEntropy (s : State) (ft : Word) : State :=
  { s.recordEntropyRange with request := none, answer := none, phase := .waitEnt ft }

/-- An answer arrives (10_state.md R32). With no request outstanding it moves nothing (70_reset_and_hazards.md R252). An
OK(u) out of range breaks the contract (42_pvq_decode.md R161). Any other is held and the phase returns to EXEC. -/
def State.receive (s : State) (a : Answer) : State :=
  match s.request with
  | none => s
  | some ft =>
    match a with
    | .ok u => if u.toNat < ft.toNat then { s with request := none, answer := some (.ok u), phase := .exec } else s.breakEntropy ft
    | .err e => { s with request := none, answer := some (.err e), phase := .exec }

/-- The reset input (70_reset_and_hazards.md R251, R252): everything takes the value of the reset table, but for the fault
record and the model's own fields (log 21). -/
def State.hwReset (s : State) : State :=
  { State.resetWith s.params with faults := s.faults, agenda := s.agenda, rdata := s.rdata, draws := s.draws }

/-- The machine with a command word placed so that the next step runs it: the host's write of it has just been accepted, no
request or answer is left of an earlier command, and the block has the next turn (log 19). -/
def State.placeCommand (s : State) (w : Word) : State :=
  { s.accept w with request := none, answer := none, agenda := .block :: s.agenda }

end Sys2Proof.Machine
end

