-- ==== Sys2Proof/Machine/Bus.lean ====
section
/-! DEFINITION. Host accesses to the register space (20_memory.md). -/

namespace Sys2Proof.Machine

/-- SPAN = 0x100 + 4*NMAX (R50). -/
def Params.span (p : Params) : Nat := 0x100 + 4 * p.nmax

/-- What stands at an offset (R51, R52). -/
inductive BusTarget where
  | cmd
  | status
  | arg0
  | arg1
  | arg2
  | arg3
  | res0
  | res1
  | vec (j : Nat)
  | reserved
  deriving DecidableEq, Repr

/-- The register map, for an offset that is a multiple of 4 (R51, R52). -/
def busTarget (p : Params) (off : Nat) : BusTarget :=
  if off = 0x000 then .cmd
  else if off = 0x004 then .status
  else if off = 0x008 then .arg0
  else if off = 0x00C then .arg1
  else if off = 0x010 then .arg2
  else if off = 0x014 then .arg3
  else if off = 0x018 then .res0
  else if off = 0x01C then .res1
  else if 0x100 ≤ off ∧ off < Params.span p then .vec ((off - 0x100) / 4)
  else .reserved

/-- A 32-bit access at a multiple of 4 (R53). -/
def accessLegal (width off : Nat) : Bool := decide (width = 32) && decide (off % 4 = 0)

/-- The bus returns a value to the host (R58; log 7). -/
def State.returns (s : State) (v : Word) : State := { s with rdata := some v }

/-- The bus returns an unconstrained value (R53, R60; log 4). -/
def State.returnsFree (s : State) : State := (s.returns (Config.freeWord s.draws 0)).drawn

/-- A read of VEC[j] while idle: its value, or the fault HOST(UNWRITTEN_VEC) (10_state.md R35; log 6). -/
def State.readVec (s : State) (j : Nat) : State :=
  match s.vec j with
  | some v => s.returns v
  | none => s.recordUnwrittenVec.returnsFree

/-- A legal read (R51, R52, R57, R60). Reserved offsets read 0, busy or not (log 18). -/
def State.readTarget (s : State) : BusTarget → State
  | .cmd => s.returns s.cmd
  | .status => s.returns s.status.word
  | .arg0 => s.returns s.arg0
  | .arg1 => s.returns s.arg1
  | .arg2 => s.returns s.arg2
  | .arg3 => s.returns s.arg3
  | .res0 => if s.status.busy then s.returnsFree else s.returns s.res0
  | .res1 => if s.status.busy then s.returnsFree else s.returns s.res1
  | .vec j => if s.status.busy then s.returnsFree else s.readVec j
  | .reserved => s.returns 0

/-- A host read at an offset: not a 32-bit aligned one records HOST(BAD_ACCESS) and returns an unconstrained value (R53). -/
def State.hostRead (s : State) (width off : Nat) : State :=
  if accessLegal width off then s.readTarget (busTarget s.params off) else s.recordBadAccess.returnsFree

/-- A legal write while idle (R51, R52; 10_state.md R42): STATUS, RES0, RES1 and reserved offsets ignore it. -/
def State.writeTarget (s : State) (v : Word) : BusTarget → State
  | .cmd => s.accept v
  | .status => s
  | .arg0 => { s with arg0 := v }
  | .arg1 => { s with arg1 := v }
  | .arg2 => { s with arg2 := v }
  | .arg3 => { s with arg3 := v }
  | .res0 => s
  | .res1 => s
  | .vec j => s.setVec j v
  | .reserved => s

/-- A host write at an offset: not a 32-bit aligned one records HOST(BAD_ACCESS) and changes nothing else (R53); while BUSY
any other is ignored and sets OVR (R60). -/
def State.hostWrite (s : State) (width off : Nat) (v : Word) : State :=
  if accessLegal width off then
    if s.status.busy then { s with status := s.status.overrun } else s.writeTarget v (busTarget s.params off)
  else s.recordBadAccess

end Sys2Proof.Machine
end

