-- ==== Sys2Proof/Machine/Operands.lean ====
section
/-! DEFINITION. How commands read their operands: from the latches (30_encoding.md R71, R75) and from VEC. -/

namespace Sys2Proof.Machine

/-- zext_32(L0). -/
def State.u0 (s : State) : Nat := zext32 s.l0

/-- zext_32(L1). -/
def State.u1 (s : State) : Nat := zext32 s.l1

/-- zext_32(L2). -/
def State.u2 (s : State) : Nat := zext32 s.l2

/-- zext_32(L3). -/
def State.u3 (s : State) : Nat := zext32 s.l3

/-- sext_16(L0[15:0]). -/
def State.h0 (s : State) : Int := sext16 s.l0

/-- sext_16(L1[15:0]). -/
def State.h1 (s : State) : Int := sext16 s.l1

/-- Whether a word of VEC[0..N-1] holds no value (10_state.md R35). -/
def State.vecMissing (s : State) (N : Nat) : Bool := (List.range N).any fun j => (s.vec j).isNone

/-- VEC[0..N-1] as a command reads it: a word without a value reads as an unconstrained one (log 16). -/
def State.vecWords (s : State) (N : Nat) : List Word :=
  (List.range N).map fun j => (s.vec j).getD (Config.freeWord s.draws j)

/-- The state after VEC[0..N-1] is read: a word without a value is recorded as HOST(UNWRITTEN_VEC), and the draw that stood
in for it is over (10_state.md R35, log 16). -/
def State.afterVecRead (s : State) (N : Nat) : State := if s.vecMissing N then s.recordUnwrittenVec.drawn else s

end Sys2Proof.Machine
end

