-- ==== Sys2Proof/Machine/Combinatorics.lean ====
section
/-! DEFINITION. The meanings of CWRS_V, GETPULSES, FITS32 and THRESH (41_combinatorics.md). -/

namespace Sys2Proof.Machine

/-- CWRS_V (R135): N = L0, K = L1. -/
def execCwrsV (s : State) : Host.Outcome State Fault Refusal :=
  if s.params.kmax < s.u1 then .next (s.raise .capacity)
  else .next (((s.sweep s.u0 s.u1).setRes0 (wordOfNat (vsat s.u0 s.u1))).complete .ok)

/-- GETPULSES (R138): i = L0. -/
def execGetpulses (s : State) : Host.Outcome State Fault Refusal :=
  if 239 < s.u0 then .next (s.raise .domain)
  else .next ((s.setRes0 (wordOfNat (gp s.u0))).complete .ok)

/-- FITS32 (R140): N = L0, K = L1. -/
def execFits32 (s : State) : Host.Outcome State Fault Refusal :=
  if s.params.kmax < s.u1 then .next (s.raise .capacity)
  else .next (((s.sweep s.u0 s.u1).setRes0 (wordOfNat (fits s.u0 s.u1))).complete .ok)

/-- THRESH (R142): N = L0; the threshold to RES0, istar to RES1. -/
def execThresh (s : State) : Host.Outcome State Fault Refusal :=
  .next ((((s.scrambleRows).setRes0 (wordOfNat (threshold s.u0 s.params.pseudoMax))).setRes1
    (wordOfNat (istar s.u0 s.params.pseudoMax))).complete .ok)

end Sys2Proof.Machine
end

