-- ==== Sys2Proof/Machine/FixedPoint.lean ====
section
/-! DEFINITION. The meanings of ILOG, FMUL15, BCOS, BLOG2TAN and ISQRT (40_fixed_point.md). Each writes RES0 alone and never
raises an error (R100). -/

namespace Sys2Proof.Machine

/-- ILOG (R102). -/
def execIlog (s : State) : Host.Outcome State Fault Refusal :=
  .next ((s.setRes0 (wordOfNat (ilog s.u0))).complete .ok)

/-- FMUL15 (R104): bits 15:0 of each operand are used. -/
def execFmul15 (s : State) : Host.Outcome State Fault Refusal :=
  .next ((s.setRes0 (wordOfInt (fmul16 s.h0 s.h1))).complete .ok)

/-- BCOS (R106). -/
def execBcos (s : State) : Host.Outcome State Fault Refusal :=
  .next ((s.setRes0 (wordOfInt (bcos s.h0))).complete .ok)

/-- BLOG2TAN (R115): L0 is the sine, L1 the cosine. -/
def execBlog2tan (s : State) : Host.Outcome State Fault Refusal :=
  .next ((s.setRes0 (log2tanWord s.h0 s.h1)).complete .ok)

/-- ISQRT (R117). -/
def execIsqrt (s : State) : Host.Outcome State Fault Refusal :=
  .next ((s.setRes0 (wordOfNat (isqrt s.u0))).complete .ok)

end Sys2Proof.Machine
end

