-- ==== Sys2Proof/Machine/PvqDecode.lean ====
section
/-! DEFINITION. The meaning of PVQ_DECODE (42_pvq_decode.md). -/

namespace Sys2Proof.Machine

/-- K = 0: N zeros, no request (R165). -/
def pvqZeroPulses (s : State) (N : Nat) : State :=
  (((s.setVecFrom0 (List.replicate N 0)).setRes0 0).setRes1 1).complete .ok

/-- A legal index u: the pulse vector to VEC, u to RES0, the codebook size to RES1 (R165, R166, R170). -/
def pvqDeliver (s : State) (N K : Nat) (u ft : Word) : State :=
  ((((((s.scrambleRows).setUnrank (unrankEnd N K u.toNat)).setVecFrom0 ((unrank N K u.toNat).map wordOfInt)).setRes0
    u).setRes1 ft).takeAnswer).complete .ok

/-- The collaborator's ERR(e): e to RES1, no other result and no VEC word (R162). That the row buffers stay as the posting
step left them is the model's choice: the spec leaves open whether this step sweeps vsat(N, K) again (10_state.md R36;
log 10). That the held answer is used up is too (log 13). -/
def pvqEntropyError (s : State) (e : Word) : State := ((s.setRes1 e).takeAnswer).complete .entropy

/-- From the draw on, with the bound ft: with no answer held the request is posted (10_state.md R31), else the command
completes. An OK(u) out of range is refused again here (log 22). Only the posting step sweeps; what the row buffers hold
after the completion is the model's choice (log 10). -/
def pvqDraw (s : State) (N K : Nat) (ft : Word) : State :=
  match s.answer with
  | none => (s.sweep N K).postRequest ft
  | some (.err e) => pvqEntropyError s e
  | some (.ok u) => if u.toNat < ft.toNat then pvqDeliver s N K u ft else s.breakEntropy ft

/-- PVQ_DECODE (R165): N = L0, K = L1, checks in the rule's order. -/
def execPvqDecode (s : State) : Host.Outcome State Fault Refusal :=
  if s.u0 = 0 then .next (s.raise .invalidDimension)
  else if s.params.nmax < s.u0 ∨ s.params.kmax < s.u1 then .next (s.raise .capacity)
  else if s.u1 = 0 then .next (pvqZeroPulses s s.u0)
  else if vsat s.u0 s.u1 = 0 then .next ((s.sweep s.u0 s.u1).raise .invalidCodebook)
  else if 2 ^ 31 ≤ vsat s.u0 s.u1 then .next ((s.sweep s.u0 s.u1).raise .codebookTooLarge)
  else .next (pvqDraw s s.u0 s.u1 (wordOfNat (vsat s.u0 s.u1)))

end Sys2Proof.Machine
end

