-- ==== Sys2Proof/Machine/Float.lean ====
section
/-! DEFINITION. IEEE 754 binary32 arithmetic on bit patterns: round to nearest, ties to even, gradual underflow
(43_spreading.md R193, 20_memory.md R55). -/

namespace Sys2Proof.Machine

/-- What a pattern stands for: a finite one is (-1)^neg * m * 2^e. -/
inductive FloatVal where
  | nan
  | inf (neg : Bool)
  | fin (neg : Bool) (m : Nat) (e : Int)
  deriving DecidableEq, Repr

/-- Sign bit 31, biased exponent bits 30:23, fraction bits 22:0 (20_memory.md R55). -/
def floatPack (neg : Bool) (expo frac : Nat) : Word := BitVec.ofBool neg ++ BitVec.ofNat 8 expo ++ BitVec.ofNat 23 frac

/-- The biased exponent of a pattern. -/
def floatExpo (w : Word) : Nat := (w.extractLsb' 23 8).toNat

/-- The fraction of a pattern. -/
def floatFrac (w : Word) : Nat := (w.extractLsb' 0 23).toNat

/-- The value of a pattern. -/
def floatVal (w : Word) : FloatVal :=
  if floatExpo w = 255 then (if floatFrac w = 0 then .inf w.msb else .nan)
  else if floatExpo w = 0 then .fin w.msb (floatFrac w) (-149)
  else .fin w.msb (floatFrac w + 2 ^ 23) ((floatExpo w : Int) - 150)

/-- A NaN or an infinity (R193). -/
def floatNonFinite (w : Word) : Bool := floatExpo w == 255

/-- The quiet NaN an operation produces; its sign and low fraction bits are open (log 15). -/
def floatQuietNan (bits : BitVec 23) : Word :=
  floatPack bits.msb 255 (2 ^ 22 + (bits.extractLsb' 0 22).toNat)

/-- m / 2^shift rounded to nearest, ties to even; `sticky` says that the exact value lies a little above m. -/
def roundShift (m shift : Nat) (sticky : Bool) : Nat :=
  let q := m >>> shift
  let r := m % 2 ^ shift
  let half := 2 ^ (shift - 1)
  if shift = 0 then m
  else if half < r ∨ (r = half ∧ (sticky = true ∨ q % 2 = 1)) then q + 1
  else q

/-- The pattern of (-1)^neg * m' * 2^q, with m' at most 2^24 a significand rounded to unit 2^q, q at least -149. -/
def floatOfRounded (neg : Bool) (m' : Nat) (q : Int) : Word :=
  let m2 := if m' = 2 ^ 24 then 2 ^ 23 else m'
  let q2 := if m' = 2 ^ 24 then q + 1 else q
  if m2 < 2 ^ 23 then floatPack neg 0 m2
  else if 105 ≤ q2 then floatPack neg 255 0
  else floatPack neg (q2 + 150).toNat (m2 - 2 ^ 23)

/-- (-1)^neg * m * 2^e rounded to binary32; `sticky` as in `roundShift`. -/
def floatRound (neg : Bool) (m : Nat) (e : Int) (sticky : Bool) : Word :=
  if m = 0 then floatPack neg 0 0
  else
    let q := max (e + (m.log2 : Int) - 23) (-149)
    if q ≤ e then floatOfRounded neg (m <<< (e - q).toNat) q
    else floatOfRounded neg (roundShift m (q - e).toNat sticky) q

/-- A signed significand at a lower exponent. -/
def floatAlign (neg : Bool) (m : Nat) (e low : Int) : Int :=
  if neg then -((m <<< (e - low).toNat : Nat) : Int) else ((m <<< (e - low).toNat : Nat) : Int)

/-- The sum of two values; an exact zero sum is +0 unless both operands are negative. -/
def floatSum (nan : Word) : FloatVal → FloatVal → Word
  | .nan, _ => nan
  | _, .nan => nan
  | .inf n1, .inf n2 => if n1 = n2 then floatPack n1 255 0 else nan
  | .inf n1, .fin _ _ _ => floatPack n1 255 0
  | .fin _ _ _, .inf n2 => floatPack n2 255 0
  | .fin n1 m1 e1, .fin n2 m2 e2 =>
    let e := min e1 e2
    let v := floatAlign n1 m1 e1 e + floatAlign n2 m2 e2 e
    if v = 0 then floatPack (n1 && n2) 0 0 else floatRound (decide (v < 0)) v.natAbs e false

/-- The value with the other sign. -/
def floatNegate : FloatVal → FloatVal
  | .nan => .nan
  | .inf n => .inf (!n)
  | .fin n m e => .fin (!n) m e

/-- fadd (R193). -/
def fadd (a b : Word) : Word := floatSum (floatQuietNan (Config.nanBits .add a b)) (floatVal a) (floatVal b)

/-- fsub (R193). -/
def fsub (a b : Word) : Word := floatSum (floatQuietNan (Config.nanBits .sub a b)) (floatVal a) (floatNegate (floatVal b))

/-- The product of two values. -/
def floatProduct (nan : Word) : FloatVal → FloatVal → Word
  | .nan, _ => nan
  | _, .nan => nan
  | .inf n1, .inf n2 => floatPack (n1 != n2) 255 0
  | .inf n1, .fin n2 m2 _ => if m2 = 0 then nan else floatPack (n1 != n2) 255 0
  | .fin n1 m1 _, .inf n2 => if m1 = 0 then nan else floatPack (n1 != n2) 255 0
  | .fin n1 m1 e1, .fin n2 m2 e2 => floatRound (n1 != n2) (m1 * m2) (e1 + e2) false

/-- fmul (R193). -/
def fmul (a b : Word) : Word := floatProduct (floatQuietNan (Config.nanBits .mul a b)) (floatVal a) (floatVal b)

/-- The quotient of two values: 60 extra bits and the remainder as the sticky bit decide the rounding. -/
def floatQuotient (nan : Word) : FloatVal → FloatVal → Word
  | .nan, _ => nan
  | _, .nan => nan
  | .inf _, .inf _ => nan
  | .inf n1, .fin n2 _ _ => floatPack (n1 != n2) 255 0
  | .fin n1 _ _, .inf n2 => floatPack (n1 != n2) 0 0
  | .fin n1 m1 e1, .fin n2 m2 e2 =>
    if m2 = 0 then (if m1 = 0 then nan else floatPack (n1 != n2) 255 0)
    else floatRound (n1 != n2) ((m1 <<< 60) / m2) (e1 - e2 - 60) (decide ((m1 <<< 60) % m2 ≠ 0))

/-- fdiv (R193). -/
def fdiv (a b : Word) : Word := floatQuotient (floatQuietNan (Config.nanBits .div a b)) (floatVal a) (floatVal b)

/-- f32(n) (R193). -/
def f32 (n : Nat) : Word := floatRound false n 0 false

/-- The binary32 pattern of 0.5. -/
def floatHalf : Word := 0x3F000000

end Sys2Proof.Machine
end

