-- ==== Sys2Proof/Machine/Spread.lean ====
section
/-! DEFINITION. The meaning of SPREAD (43_spreading.md). -/

namespace Sys2Proof.Machine

/-- The factor of a rotating level (R191): 15, 10 and 5 for levels 1, 2 and 3. -/
def spreadFactor (lvl : Nat) : Nat := if lvl = 1 then 15 else if lvl = 2 then 10 else 5

/-- theta = gain^2 / 2 with gain = N / (N + factor*K) (R194). -/
def spreadTheta (N K lvl : Nat) : Word :=
  let gain := fdiv (f32 N) (fadd (f32 N) (fmul (f32 (spreadFactor lvl)) (f32 K)))
  fmul floatHalf (fmul gain gain)

/-- PAIR(a, b): the plane rotation of two samples (R195). -/
def rotatePair (c s : Word) (a b : Nat) (X : List Word) : List Word :=
  let x1 := X.getD a 0
  let x2 := X.getD b 0
  (X.set b (fadd (fmul c x2) (fmul s x1))).set a (fsub (fmul c x1) (fmul s x2))

/-- The pairs (off + i, off + i + st) for the listed i, in order. -/
def rotatePairs (c s : Word) (off st : Nat) : List Nat → List Word → List Word
  | [], X => X
  | i :: rest, X => rotatePairs c s off st rest (rotatePair c s (off + i) (off + i + st) X)

/-- ROT(X, off, L, st, c, s): the forward pass i = 0 .. L-st-1, then the backward pass i = L-2*st-1 .. 0 (R195). A pass
whose upper bound is below its lower bound is empty. -/
def rotate (X : List Word) (off L st : Nat) (c s : Word) : List Word :=
  rotatePairs c s off st (List.range (L - 2 * st)).reverse (rotatePairs c s off st (List.range (L - st)) X)

/-- stride(L): the rounded square root, the st with st*st - st < L <= st*st + st (R198). -/
def stride (L : Nat) : Nat := if L ≤ isqrt L * isqrt L + isqrt L then isqrt L else isqrt L + 1

/-- One block of the multi-block rotation (R197): pre-rotation with c and s swapped from length 8 on, then the rotation. -/
def rotateBlock (X : List Word) (off L : Nat) (c s : Word) : List Word :=
  rotate (if 8 ≤ L then rotate X off L (stride L) s c else X) off L 1 c s

/-- Blocks b, b+1, ... of length L, `count` of them (R197). -/
def rotateBlocks (L : Nat) (c s : Word) : Nat → Nat → List Word → List Word
  | 0, _, X => X
  | count + 1, b, X => rotateBlocks L c s count (b + 1) (rotateBlock X (b * L) L c s)

/-- The rotated samples: a single block never pre-rotates (R196), several do from block length 8 on (R197). -/
def spreadSamples (N B : Nat) (c s : Word) (X : List Word) : List Word :=
  if B = 1 then rotate X 0 N 1 c s else rotateBlocks (N / B) c s B 0 X

/-- SPREAD past its checks: read, rotate, write back (R190, R200). If a sample read is a NaN or an infinity, the samples
written are unconstrained (R193; log 23). -/
def spreadRun (st : State) (N K lvl B : Nat) : State :=
  let X := st.vecWords N
  let st1 := st.afterVecRead N
  let cs := Config.cs (spreadTheta N K lvl)
  if X.any floatNonFinite then ((st1.setVecFrom0 (st1.freeWords N)).drawn).complete .ok
  else (st1.setVecFrom0 (spreadSamples N B cs.1 cs.2 X)).complete .ok

/-- SPREAD (R190): N = L0, K = L1, lvl = L2, B = L3, checks in the rule's order. -/
def execSpread (s : State) : Host.Outcome State Fault Refusal :=
  if 3 < s.u2 then .next (s.raise .invalidSpread)
  else if s.params.nmax < s.u0 then .next (s.raise .capacity)
  else if s.u2 = 0 ∨ s.u1 = 0 then .next (s.complete .ok)
  else if s.u3 = 0 then .next (s.raise .invalidBlockCount)
  else if s.u0 % s.u3 ≠ 0 then .next (s.raise .invalidBlockDivision)
  else .next (spreadRun s s.u0 s.u1 s.u2 s.u3)

end Sys2Proof.Machine
end

