-- ==== Sys2Proof/Machine/Dispatch.lean ====
section
/-! DEFINITION. One arm per command: the completion step of each, or its entropy request (10_state.md R29, R31). -/

namespace Sys2Proof.Machine

def exec (i : Instr) (s : State) : Host.Outcome State Fault Refusal :=
  match i with
  | .ilog => Sys2Proof.Machine.execIlog s
  | .fmul15 => Sys2Proof.Machine.execFmul15 s
  | .bcos => Sys2Proof.Machine.execBcos s
  | .blog2tan => Sys2Proof.Machine.execBlog2tan s
  | .isqrt => Sys2Proof.Machine.execIsqrt s
  | .cwrsV => Sys2Proof.Machine.execCwrsV s
  | .getpulses => Sys2Proof.Machine.execGetpulses s
  | .fits32 => Sys2Proof.Machine.execFits32 s
  | .thresh => Sys2Proof.Machine.execThresh s
  | .pvqDecode => Sys2Proof.Machine.execPvqDecode s
  | .spread => Sys2Proof.Machine.execSpread s

end Sys2Proof.Machine
end

