-- ==== Sys2Proof/Machine/Turns.lean ====
section
/-! DEFINITION. What each agent's turn does (10_state.md R20, R31, R32). -/

namespace Sys2Proof.Machine

/-- The command LOP names, if it names one; LOP 0x0 and 0xC to 0xF are reserved opcodes and name none (30_encoding.md R74;
log 20). -/
def LatchedOp.instr? : LatchedOp → Option Instr
  | .op code => instrOfOpcode code
  | .illegal => none

/-- The block's turn: from EXEC the latched command runs, an illegal word completing with ILLEGAL_CMD (30_encoding.md R74);
in IDLE and in WAIT_ENT the block has no step (10_state.md R32, 60_exceptions.md R234; log 5). -/
def blockTurn (s : State) : Host.Outcome State Fault Refusal :=
  match s.phase with
  | .exec =>
    match s.lop.instr? with
    | some i => exec i s
    | none => .next (s.raise .illegalCmd)
  | .idle => .next s
  | .waitEnt _ => .next s

/-- The offset of a platform address, if it is not below BASE (20_memory.md R50). -/
def Params.offset? (p : Params) (addr : Nat) : Option Nat := if p.base ≤ addr then some (addr - p.base) else none

/-- One turn of one agent. A host access below BASE is not the block's and stops (log 17). -/
def takeTurn (s : State) : Turn → Host.Outcome State Fault Refusal
  | .block => blockTurn s
  | .read width addr =>
    match Params.offset? s.params addr with
    | some off => .next (s.hostRead width off)
    | none => .fault .outsideBlock
  | .write width addr v =>
    match Params.offset? s.params addr with
    | some off => .next (s.hostWrite width off v)
    | none => .fault .outsideBlock
  | .answer a => .next (s.receive a)
  | .lateAnswer _ => .next s
  | .reset => .next s.hwReset

/-- The next turn of the agenda; with none left the block takes its turn (log 5). -/
def nextTurn (s : State) : Host.Outcome State Fault Refusal :=
  match s.agenda with
  | [] => blockTurn s
  | t :: rest => takeTurn { s with agenda := rest } t

end Sys2Proof.Machine
end

