-- ==== Sys2Proof/Machine/Step.lean ====
section
/-! DEFINITION. One step of the machine, and where a command word is placed for it. -/

namespace Sys2Proof.Machine

/-- One step: one turn of one agent (20_memory.md R58). -/
def step (s : State) : Host.Outcome State Fault Refusal := nextTurn s

/-- The machine with the opcode-table word `w` of `nbits` bits accepted, the block having the next turn (log 19). -/
def State.withFetchWord (s : State) (nbits w : Nat) : State := s.placeCommand (BitVec.ofNat 32 (w % 2 ^ nbits))

end Sys2Proof.Machine
end

