-- ==== Sys2Proof/Safety.lean ====
section
/-! DEFINITION. What counts as a safe run, and the end state of a host program (10_state.md R39, 70_reset_and_hazards.md
R261). -/

namespace Sys2Proof.Machine

/-- No host fault is recorded: the spec makes claims about the run (60_exceptions.md R227). -/
def State.faultFree (s : State) : Prop := s.faults = HostFaults.none

/-- The end state of a host program: no access left, the block idle, no fault recorded (R261). -/
def State.ended (s : State) : Prop := s.agenda = [] ∧ s.phase = .idle ∧ s.status.busy = false ∧ s.faultFree

/-- PVQ_DECODE's checks pass for the latched operands, K is positive, and `ft` is the bound it draws below
(42_pvq_decode.md R160, R165). -/
def State.drawsBelow (s : State) (ft : Word) : Prop :=
  s.lop = .op 0xA ∧ 1 ≤ s.u0 ∧ s.u0 ≤ s.params.nmax ∧ 1 ≤ s.u1 ∧ s.u1 ≤ s.params.kmax ∧
  ft.toNat = vsat s.u0 s.u1 ∧ 2 ≤ ft.toNat ∧ ft.toNat < 2 ^ 31

/-- Phase, BUSY, DONE, CMD, the latches and the entropy port agree (10_state.md R25, R27, R30, R32, R38; 42_pvq_decode.md
R160, R161, R164). -/
structure State.ControlOk (s : State) : Prop where
  /-- BUSY = 0 exactly in IDLE (R27). -/
  busy_iff : s.status.busy = false ↔ s.phase = .idle
  /-- BUSY and DONE never hold together (R25). -/
  not_both : ¬ (s.status.busy = true ∧ s.status.done = true)
  /-- CMD is the latched command word (R30). -/
  cmd_latched : s.cmd = s.lcmd
  /-- While a command runs LOP is the decoding of LCMD (R30). -/
  lop_decoded : s.phase ≠ .idle → s.lop = latchOp s.lcmd
  /-- A request is outstanding only in WAIT_ENT, with the phase's bound (R31, R32). -/
  request_waits : ∀ ft, s.request = some ft → s.phase = .waitEnt ft
  /-- WAIT_ENT without a request is the stuck block of an ENTROPY_RANGE fault (R161). -/
  wait_requests : ∀ ft, s.phase = .waitEnt ft → s.request = some ft ∨ (s.request = none ∧ s.faults.entropyRange = true)
  /-- Only PVQ_DECODE waits, for an index below its codebook size (R160, R164). -/
  wait_draws : ∀ ft, s.phase = .waitEnt ft → s.drawsBelow ft
  /-- An answer is held only from its arrival to the completion of the PVQ_DECODE that asked, and a held index is in range
  (R32, R38, R161). -/
  answer_exec : ∀ a, s.answer = some a →
    s.phase = .exec ∧ ∃ ft, s.drawsBelow ft ∧ ∀ u, a = .ok u → u.toNat < ft.toNat

/-- Memory is canonical and holds whole VEC words of VEC[0..NMAX-1] alone (10_state.md R34, R35). -/
structure State.MemoryOk (s : State) : Prop where
  canonical : Memory.wf s.mem
  /-- No byte outside 0x100 to SPAN-1 holds a value (20_memory.md R51). -/
  in_vec : ∀ x, (Memory.readByte s.mem x).isSome → 0x100 ≤ x ∧ x < Params.span s.params
  /-- The four bytes of a VEC word hold values together (10_state.md R35). -/
  whole : ∀ j b, b < 4 → ((Memory.readByte s.mem (vecOffset j + b)).isSome ↔ (s.vec j).isSome)
  /-- The row buffers have KMAX + 1 entries (10_state.md R36). -/
  rows : s.rowPrev.length = s.params.kmax + 1 ∧ s.rowCur.length = s.params.kmax + 1

end Sys2Proof.Machine
end

