-- ==== Sys2Proof/Certificates/Slice0/Obligations.lean ====
section
/-! DEFINITION. The statements for the provers. Each is about every state; where a premise is an invariant of the model
(`State.ControlOk`, `State.MemoryOk`, canonical memory) that invariant is itself a statement below. Free values
(Config.freeWord, Config.cs, L2T_*) are never given a value. -/

namespace Sys2Proof.Claims

open Sys2Proof.Machine

/-- STATUS after a completion with a code (10_state.md R31): OVR is kept. -/
def completedStatus (s : State) (code : ErrCode) : Status :=
  { busy := false, done := true, ovr := s.status.ovr, err := code }

/-- Completion with a code that writes no result, no VEC word and no scratch. -/
def completedOnly (s : State) (code : ErrCode) : State :=
  { s with status := completedStatus s code, phase := .idle }

/-- Truncation to 16 bits, read as signed, as a balanced remainder. -/
def trunc16 (v : Int) : Int := Int.bmod v 65536

/-- R103 with floor division. -/
def q15mul (a b : Int) : Int := (trunc16 a * trunc16 b + 16384) / 32768

/-- R105 with floor division and balanced remainders. -/
def cosinePolynomial (x : Int) : Int :=
  let x2 := trunc16 ((4096 + x * x) / 8192)
  let m3 := q15mul (-626) x2
  let m2 := q15mul x2 (8277 + m3)
  let m1 := q15mul x2 (-7651 + m2)
  trunc16 (1 + trunc16 ((32767 - x2) + m1))

/-- R101: 0 of 0, else floor (log2 v) + 1. -/
def bitLength (v : Nat) : Nat := if v = 0 then 0 else Nat.log 2 v + 1

/-- R112. -/
def correction (z : Int) : Int := q15mul z (q15mul z (-2597) + 7932)

/-- R111: a magnitude shifted so that it lies in 16384 .. 32767. -/
def normalized (v : Nat) : Int := (v : Int) * 2 ^ (15 - bitLength v)

/-- R113. -/
def logTangent (s c : Nat) : Int :=
  ((bitLength s : Int) - (bitLength c : Int)) * 2048 + correction (normalized s) - correction (normalized c)

/-- The signed value of bits 15:0 of a word. -/
def low16 (w : Word) : Int := trunc16 w.toInt

/-- Every byte outside VEC[0..N-1] reads as before. -/
def bytesOutsideVecKept (s t : State) (N : Nat) : Prop :=
  ∀ x, (x < vecOffset 0 ∨ vecOffset N ≤ x) → Memory.readByte t.mem x = Memory.readByte s.mem x

/-- The two states agree but for the row buffers and the unranking registers. -/
def sameButScratch (s s' : State) : Prop :=
  s' = { s with rowPrev := s'.rowPrev, rowCur := s'.rowCur, unrank := s'.unrank }

/-- The two outcomes agree but for the row buffers and the unranking registers. -/
def sameOutcomeButScratch : Host.Outcome State Fault Refusal → Host.Outcome State Fault Refusal → Prop
  | .next s, .next s' => sameButScratch s s'
  | .fault f, .fault f' => f = f'
  | .refused r, .refused r' => r = r'
  | _, _ => False

/-- Operands PVQ_DECODE draws for: every check of R165 passes and K is positive. -/
def drawsFor (s : State) : Prop :=
  1 ≤ s.l0.toNat ∧ s.l0.toNat ≤ s.params.nmax ∧ 1 ≤ s.l1.toNat ∧ s.l1.toNat ≤ s.params.kmax ∧
  codebook s.l0.toNat s.l1.toNat < 2 ^ 31

/-- What a legal write of `v` to an offset leaves of `s` while the block is idle: only the word that stands there
(20_memory.md R51, R52), and for VEC[j] none of the bytes outside it. -/
def writesItsOwnWord (s t : State) (off : Nat) (v : Word) : Prop :=
  match busTarget s.params off with
  | .cmd => off = 0x000 ∧ t = s.accept v
  | .arg0 => off = 0x008 ∧ t = { s with arg0 := v }
  | .arg1 => off = 0x00C ∧ t = { s with arg1 := v }
  | .arg2 => off = 0x010 ∧ t = { s with arg2 := v }
  | .arg3 => off = 0x014 ∧ t = { s with arg3 := v }
  | .vec j =>
    j < s.params.nmax ∧ off = vecOffset j ∧ t = { s with mem := t.mem } ∧ t.vec j = some v ∧
    ∀ x, (x < vecOffset j ∨ vecOffset j + 3 < x) → Memory.readByte t.mem x = Memory.readByte s.mem x
  | .status | .res0 | .res1 | .reserved => t = s

/-! R166 as a relation, written from the rule's steps: n positions are left, k pulses, and the index is i. -/

/-- p before the sign is taken: half of V(n-1, k) + V(n, k), with m = n-1 dimensions after this position. -/
def signSplit (m k : Nat) : Nat := (codebook m k + codebook (m + 1) k) / 2

/-- p after the subtraction that precedes the scan and after `taken` turns of the scan, each of which takes one pulse. -/
def scanSize (m k taken : Nat) : Int := signSplit m k - ∑ q ∈ Finset.range (taken + 1), (codebook m (k - q) : Int)

/-- X holds what the steps of R166 leave for its positions: each entry's sign is plus exactly when i < p, its magnitude is
the number of pulses the scan takes until p is at most i, and the scan goes on from k less them and i less p. -/
def UnrankSteps : Nat → Nat → Nat → List Int → Prop
  | 0, _, _, X => X = []
  | m + 1, k, i, X => ∃ (taken i' next : Nat) (rest : List Int),
    taken ≤ k ∧
    i' = (if i < signSplit m k then i else i - signSplit m k) ∧
    (∀ q, q < taken → (i' : Int) < scanSize m k q) ∧ scanSize m k taken ≤ i' ∧
    (next : Int) = i' - scanSize m k taken ∧
    X = (if i < signSplit m k then (taken : Int) else -(taken : Int)) :: rest ∧
    UnrankSteps m (k - taken) next rest

/-! R191, R194 to R198 on samples as a function of their index. -/

/-- R191. -/
def levelFactor : Nat → Nat
  | 1 => 15
  | 2 => 10
  | _ => 5

/-- R194: the angle of the pair (c, s), 0x3F000000 being 0.5. -/
def rotationAngle (N K lvl : Nat) : Word :=
  let nf := f32 N
  let gain := fdiv nf (fadd nf (fmul (f32 (levelFactor lvl)) (f32 K)))
  fmul 0x3F000000 (fmul gain gain)

/-- PAIR(a, b) of R195, for a ≠ b. -/
def pairAt (c s : Word) (a b : Nat) (X : Nat → Word) : Nat → Word := fun j =>
  if j = b then fadd (fmul c (X b)) (fmul s (X a))
  else if j = a then fsub (fmul c (X a)) (fmul s (X b))
  else X j

/-- The forward pass of R195: the pairs of i = 0, 1, .., count - 1, in this order. -/
def forwardPass (c s : Word) (off st : Nat) : Nat → (Nat → Word) → Nat → Word
  | 0, X => X
  | i + 1, X => pairAt c s (off + i) (off + i + st) (forwardPass c s off st i X)

/-- The backward pass of R195: the pairs of i = count - 1, .., 1, 0, in this order. -/
def backwardPass (c s : Word) (off st : Nat) : Nat → (Nat → Word) → Nat → Word
  | 0, X => X
  | i + 1, X => backwardPass c s off st i (pairAt c s (off + i) (off + i + st) X)

/-- ROT of R195: i up to L - st - 1, then down from L - 2*st - 1. -/
def rotPasses (c s : Word) (off L st : Nat) (X : Nat → Word) : Nat → Word :=
  backwardPass c s off st (L - 2 * st) (forwardPass c s off st (L - st) X)

/-- R198: the square root rounded to the nearest integer. -/
def roundedRoot (L : Nat) : Nat := (Nat.sqrt (4 * L) + 1) / 2

/-- One block of R197. -/
def rotOneBlock (c s : Word) (off L : Nat) (X : Nat → Word) : Nat → Word :=
  rotPasses c s off L 1 (if 8 ≤ L then rotPasses s c off L (roundedRoot L) X else X)

/-- The blocks 0, 1, .., count - 1 of R197, in this order. -/
def rotBlocks (c s : Word) (L : Nat) : Nat → (Nat → Word) → Nat → Word
  | 0, X => X
  | b + 1, X => rotOneBlock c s (b * L) L (rotBlocks c s L b X)

/-- R196 and R197. -/
def spreadOf (c s : Word) (N B : Nat) (X : Nat → Word) : Nat → Word :=
  if B = 1 then rotPasses c s 0 N 1 X else rotBlocks c s (N / B) B X

/-! IEEE 754 binary32 rounding, on rationals (43_spreading.md R193). -/

/-- The magnitude m * 2^e. -/
def magnitude (m : Nat) (e : Int) : Rat := (m : Rat) * (2 : Rat) ^ e

/-- The value of sign and magnitude. -/
def signedValue (neg : Bool) (m : Nat) (e : Int) : Rat := if neg then -magnitude m e else magnitude m e

/-- `w` is the binary32 number of sign `neg` nearest to the magnitude x >= 0. The unit 2^q is the one that gives x 24
significant bits, but never below 2^-149 (gradual underflow); r units are nearest to x, an even r in a tie; a rounded
magnitude of 2^128 or more is an infinity. -/
def roundsTo (neg : Bool) (x : Rat) (w : Word) : Prop :=
  ∃ (q : Int) (r : Nat),
    -149 ≤ q ∧ (-149 < q → magnitude (2 ^ 23) q ≤ x) ∧ x < magnitude (2 ^ 24) q ∧
    |magnitude r q - x| ≤ magnitude 1 q / 2 ∧ (|magnitude r q - x| = magnitude 1 q / 2 → r % 2 = 0) ∧
    (magnitude r q < magnitude 1 128 → ∃ m e, floatVal w = .fin neg m e ∧ magnitude m e = magnitude r q) ∧
    (magnitude 1 128 ≤ magnitude r q → floatVal w = .inf neg)

end Sys2Proof.Claims

open Sys2Proof Sys2Proof.Machine Sys2Proof.Claims

/-! ### Encoding -/

/-- R72: the full command word of each command, the reserved opcodes, and a few words as bytes of the bus, the lowest
address first. -/
def Obligations.CommandWordsAreTheOpcodeMap : Prop :=
  encode .ilog = 0x00000001 ∧ encode .fmul15 = 0x00000002 ∧ encode .bcos = 0x00000003 ∧ encode .blog2tan = 0x00000004 ∧
  encode .isqrt = 0x00000005 ∧ encode .cwrsV = 0x00000006 ∧ encode .getpulses = 0x00000007 ∧ encode .fits32 = 0x00000008 ∧
  encode .thresh = 0x00000009 ∧ encode .pvqDecode = 0x0000000A ∧ encode .spread = 0x0000000B ∧
  decode 0x00000001 = .ok .ilog ∧ decode 0x00000002 = .ok .fmul15 ∧ decode 0x00000003 = .ok .bcos ∧
  decode 0x00000004 = .ok .blog2tan ∧ decode 0x00000005 = .ok .isqrt ∧ decode 0x00000006 = .ok .cwrsV ∧
  decode 0x00000007 = .ok .getpulses ∧ decode 0x00000008 = .ok .fits32 ∧ decode 0x00000009 = .ok .thresh ∧
  decode 0x0000000A = .ok .pvqDecode ∧ decode 0x0000000B = .ok .spread ∧
  decode 0x00000000 = .error .reservedOpcode ∧ decode 0x0000000C = .error .reservedOpcode ∧
  decode 0x0000000D = .error .reservedOpcode ∧ decode 0x0000000E = .error .reservedOpcode ∧
  decode 0x0000000F = .error .reservedOpcode ∧
  decodeBytes [0x01, 0x00, 0x00, 0x00] = .ok (.ilog, []) ∧ decodeBytes [0x06, 0x00, 0x00, 0x00] = .ok (.cwrsV, []) ∧
  decodeBytes [0x0A, 0x00, 0x00, 0x00] = .ok (.pvqDecode, []) ∧ decodeBytes [0x0B, 0x00, 0x00, 0x00] = .ok (.spread, [])

/-- R73, R74: a word decodes to a command exactly when it is that command's word, and is ILLEGAL exactly when its opcode is
reserved or a reserved bit is set. -/
def Obligations.DecodeMatchesExactlyTheTableWords : Prop :=
  ∀ w : Word,
    (∀ i : Instr, decode w = .ok i ↔ w = encode i) ∧
    (latchOp w = .illegal ↔ ∀ i : Instr, w ≠ encode i) ∧
    (latchOp w = .illegal ↔
      (w.extractLsb' 0 4 = 0 ∨ 0xC ≤ (w.extractLsb' 0 4).toNat ∨ w.extractLsb' 4 28 ≠ 0))

/-- Decode and encode agree in both directions on byte lists of any length, and no other bytes are a command. -/
def Obligations.DecodeAndEncodeAgreeOnEveryByteList : Prop :=
  ∀ (bytes rest : List Byte) (i : Instr), decodeBytes bytes = .ok (i, rest) ↔ bytes = encodeBytes i ++ rest

/-! ### Sequencing -/

/-- R31: a step of the block from EXEC runs the command that was latched; what the step adds is the consumed turn. A placed
command word is run by the very next step (log 19). -/
def Obligations.StepRunsTheLatchedCommand : Prop :=
  (∀ (s : State) (i : Instr) (rest : List Turn), s.phase = .exec → s.lop = latchOp s.lcmd → decode s.lcmd = .ok i →
    (s.agenda = .block :: rest → step s = exec i { s with agenda := rest }) ∧
    (s.agenda = [] → step s = exec i s)) ∧
  (∀ (s : State) (i : Instr),
    step (s.withFetchWord 32 (encode i).toNat) = exec i { s.accept (encode i) with request := none, answer := none })

/-- R30: the accept, in one step. -/
def Obligations.CommandWriteIsAcceptedInOneStep : Prop :=
  ∀ (s : State) (w : Word) (rest : List Turn), s.status.busy = false → s.agenda = .write 32 s.params.base w :: rest →
    step s = .next { s with
      agenda := rest, cmd := w, lcmd := w,
      lop := (match decode w with | .ok i => .op (opcodeOf i) | .error _ => .illegal),
      l0 := s.arg0, l1 := s.arg1, l2 := s.arg2, l3 := s.arg3,
      status := { busy := true, done := false, ovr := false, err := .ok }, phase := .exec }

/-- R74: an illegal word is accepted and completes with ILLEGAL_CMD, writing no result and no VEC word. -/
def Obligations.IllegalWordCompletesWithIllegalCmd : Prop :=
  ∀ (s : State) (w : Word), s.status.busy = false →
    (w.extractLsb' 0 4 = 0 ∨ 0xC ≤ (w.extractLsb' 0 4).toNat ∨ w.extractLsb' 4 28 ≠ 0) →
    s.agenda = [.write 32 s.params.base w, .block] →
    core.run 2 s = .next { s with
      agenda := [], cmd := w, lcmd := w, lop := .illegal,
      l0 := s.arg0, l1 := s.arg1, l2 := s.arg2, l3 := s.arg3,
      status := { busy := false, done := true, ovr := false, err := .illegalCmd }, phase := .idle }

/-- R32: in WAIT_ENT the block has no step, for as long as no answer comes; an answer that keeps the collaborator's duty is
held and the phase returns to EXEC. -/
def Obligations.WaitingBlockStepsOnlyOnAnAnswer : Prop :=
  (∀ (s : State) (ft : Word) (n : Nat), s.phase = .waitEnt ft → s.agenda = List.replicate n .block →
    core.run n s = .next { s with agenda := [] }) ∧
  (∀ (s : State) (ft : Word) (a : Answer) (rest : List Turn), s.phase = .waitEnt ft → s.request = some ft →
    (∀ u, a = .ok u → u.toNat < ft.toNat) → s.agenda = .answer a :: rest →
    step s = .next { s with agenda := rest, request := none, answer := some a, phase := .exec })

/-- R161: an OK(u) with u >= ft is recorded as HOST(ENTROPY_RANGE), and the block takes no further step: whatever turns but
a reset follow, BUSY stays, and block turns and answers change nothing. That the phase stays WAIT_ENT with no request
outstanding is the model's choice (log 12). -/
def Obligations.OutOfRangeAnswerStopsTheBlock : Prop :=
  ∀ (s : State) (ft u : Word) (turns : List Turn), s.phase = .waitEnt ft → s.request = some ft → ft.toNat ≤ u.toNat →
    s.agenda = .answer (.ok u) :: turns →
    (∃ t, step s = .next t ∧ t = { s with
        agenda := turns, request := none, answer := none, faults := { s.faults with entropyRange := true } }) ∧
    ((∀ x ∈ turns, x = .block ∨ ∃ a, x = .answer a) → ∀ t, step s = .next t →
      core.run (turns.length + 1) s = .next { t with agenda := [] }) ∧
    (s.status.busy = true → (∀ x ∈ turns, x ≠ .reset) → ∀ n t, core.run (n + 1) s = .next t →
      t.phase = .waitEnt ft ∧ t.status.busy = true ∧ t.faults.entropyRange = true)

/-- R252: a reset abandons the command whatever the phase, an answer to the withdrawn request moves nothing, and the block's
turns then change nothing more. That an answer which no request asked for moves nothing, and which of the model's own fields
a reset keeps, are the model's choices (log 14, log 21); so are the values that the row buffers and the unranking registers
take, which R41 leaves unspecified (log 9). -/
def Obligations.ResetAbandonsTheCommand : Prop :=
  (∀ (s : State) (n : Nat), s.agenda = .reset :: List.replicate n .block →
    core.run (n + 1) s = .next { State.resetWith s.params with faults := s.faults, rdata := s.rdata, draws := s.draws }) ∧
  (∀ (s : State) (a : Answer) (rest : List Turn), s.agenda = .lateAnswer a :: rest →
    step s = .next { s with agenda := rest }) ∧
  (∀ (s : State) (a : Answer) (rest : List Turn), s.request = none → s.agenda = .answer a :: rest →
    step s = .next { s with agenda := rest })

/-- R251: the reset input, in one step, from any state. -/
def Obligations.ResetInputTakesTheTableValues : Prop :=
  ∀ (s : State) (rest : List Turn), s.agenda = .reset :: rest →
    ∃ t, step s = .next t ∧ t.arg0 = 0 ∧ t.arg1 = 0 ∧ t.arg2 = 0 ∧ t.arg3 = 0 ∧ t.res0 = 0 ∧ t.res1 = 0 ∧ t.cmd = 0 ∧
      t.status.word = 0 ∧ t.phase = .idle ∧ t.lop = .op 0 ∧ t.lcmd = 0 ∧ t.l0 = 0 ∧ t.l1 = 0 ∧ t.l2 = 0 ∧ t.l3 = 0 ∧
      (∀ j, t.vec j = none) ∧ t.request = none ∧ t.answer = none ∧ t.faults = s.faults ∧ t.params = s.params ∧
      t.agenda = rest

/-! ### Host accesses -/

/-- R25, R220: where each field of STATUS stands in the word the host reads; all other bits are 0, and the codes 11 to 15
are never in ERR. -/
def Obligations.StatusWordLayout : Prop :=
  (∀ t : Status, t.word.getLsbD 0 = t.busy ∧ t.word.getLsbD 1 = t.done ∧ t.word.getLsbD 2 = t.ovr ∧
    t.word.extractLsb' 3 5 = 0 ∧ t.word.extractLsb' 8 4 = t.err.number ∧ t.word.extractLsb' 12 20 = 0) ∧
  (∀ e : ErrCode, e.number.toNat ≤ 10) ∧
  ErrCode.ok.number = 0 ∧ ErrCode.invalidDimension.number = 1 ∧ ErrCode.invalidCodebook.number = 2 ∧
  ErrCode.invalidSpread.number = 3 ∧ ErrCode.invalidBlockDivision.number = 4 ∧ ErrCode.invalidBlockCount.number = 5 ∧
  ErrCode.entropy.number = 6 ∧ ErrCode.illegalCmd.number = 7 ∧ ErrCode.capacity.number = 8 ∧
  ErrCode.codebookTooLarge.number = 9 ∧ ErrCode.domain.number = 10

/-- R60: a write while BUSY only sets OVR; CMD, STATUS and ARG reads give the register; RES and VEC reads give some value and
fault nothing. -/
def Obligations.AccessWhileBusy : Prop :=
  ∀ (s : State) (rest : List Turn), s.status.busy = true →
    (∀ off v, off % 4 = 0 → s.agenda = .write 32 (s.params.base + off) v :: rest →
      step s = .next { s with agenda := rest, status := { s.status with ovr := true } }) ∧
    (∀ off v, (off, v) ∈ [(0x000, s.cmd), (0x004, s.status.word), (0x008, s.arg0), (0x00C, s.arg1), (0x010, s.arg2),
        (0x014, s.arg3)] → s.agenda = .read 32 (s.params.base + off) :: rest →
      step s = .next { s with agenda := rest, rdata := some v }) ∧
    (∀ off, (off = 0x018 ∨ off = 0x01C ∨ ∃ j, j < s.params.nmax ∧ off = 0x100 + 4 * j) →
      s.agenda = .read 32 (s.params.base + off) :: rest →
      ∃ v, step s = .next { s with agenda := rest, rdata := some v, draws := s.draws + 1 })

/-- R57: a CMD write while idle is an accept; no read changes anything but what the bus returns, the fault record and the
draw counter, and a legal read of a readable word is idempotent; a legal write to any word but CMD is idempotent, while
BUSY it sets OVR alone, and while idle it writes the word at its own offset alone. -/
def Obligations.AccessesHaveNoSideEffectButAccept : Prop :=
  (∀ (s : State) (w : Word), s.status.busy = false → s.hostWrite 32 0 w = s.accept w) ∧
  (∀ (s t : State) (width addr : Nat) (rest : List Turn), s.agenda = .read width addr :: rest → step s = .next t →
    t = { s with agenda := rest, rdata := t.rdata, faults := t.faults, draws := t.draws }) ∧
  (∀ (s : State) (off : Nat), off % 4 = 0 → s.status.busy = false →
    (∀ j, j < s.params.nmax → off = 0x100 + 4 * j → (s.vec j).isSome) →
    (s.hostRead 32 off).hostRead 32 off = s.hostRead 32 off) ∧
  (∀ (s : State) (off : Nat) (v : Word), Memory.wf s.mem → off % 4 = 0 → off ≠ 0 →
    (s.hostWrite 32 off v).hostWrite 32 off v = s.hostWrite 32 off v) ∧
  (∀ (s : State) (off : Nat) (v : Word), off % 4 = 0 → s.status.busy = true →
    s.hostWrite 32 off v = { s with status := { s.status with ovr := true } }) ∧
  (∀ (s : State) (off : Nat) (v : Word), Memory.wf s.mem → off % 4 = 0 → s.status.busy = false →
    writesItsOwnWord s (s.hostWrite 32 off v) off v)

/-- R51: where each register stands, and what an access to it does while the block is idle. -/
def Obligations.IdleAccessesFollowTheRegisterMap : Prop :=
  ∀ (s : State) (rest : List Turn), s.status.busy = false → Memory.wf s.mem →
    (∀ off v, (off, v) ∈ [(0x000, s.cmd), (0x004, s.status.word), (0x008, s.arg0), (0x00C, s.arg1), (0x010, s.arg2),
        (0x014, s.arg3), (0x018, s.res0), (0x01C, s.res1)] → s.agenda = .read 32 (s.params.base + off) :: rest →
      step s = .next { s with agenda := rest, rdata := some v }) ∧
    (∀ j v, j < s.params.nmax → s.vec j = some v → s.agenda = .read 32 (s.params.base + (0x100 + 4 * j)) :: rest →
      step s = .next { s with agenda := rest, rdata := some v }) ∧
    (∀ off v, off ∈ [0x004, 0x018, 0x01C] → s.agenda = .write 32 (s.params.base + off) v :: rest →
      step s = .next { s with agenda := rest }) ∧
    (∀ v, s.agenda = .write 32 (s.params.base + 0x008) v :: rest → step s = .next { s with agenda := rest, arg0 := v }) ∧
    (∀ v, s.agenda = .write 32 (s.params.base + 0x00C) v :: rest → step s = .next { s with agenda := rest, arg1 := v }) ∧
    (∀ v, s.agenda = .write 32 (s.params.base + 0x010) v :: rest → step s = .next { s with agenda := rest, arg2 := v }) ∧
    (∀ v, s.agenda = .write 32 (s.params.base + 0x014) v :: rest → step s = .next { s with agenda := rest, arg3 := v }) ∧
    (∀ j v, j < s.params.nmax → s.agenda = .write 32 (s.params.base + (0x100 + 4 * j)) v :: rest →
      ∃ t, step s = .next t ∧ t = { s with agenda := rest, mem := t.mem } ∧ t.vec j = some v ∧
        (∀ k, k ≠ j → t.vec k = s.vec k) ∧
        ∀ x, (x < vecOffset j ∨ vecOffset j + 4 ≤ x) → Memory.readByte t.mem x = Memory.readByte s.mem x)

/-- R52: reserved offsets read 0 and ignore writes; a write to one while BUSY sets OVR. -/
def Obligations.ReservedOffsetsReadZeroAndIgnoreWrites : Prop :=
  ∀ (s : State) (off : Nat) (rest : List Turn), off % 4 = 0 →
    ((0x020 ≤ off ∧ off < 0x100) ∨ 0x100 + 4 * s.params.nmax ≤ off) →
    (s.agenda = .read 32 (s.params.base + off) :: rest → step s = .next { s with agenda := rest, rdata := some 0 }) ∧
    (∀ v, s.agenda = .write 32 (s.params.base + off) v :: rest →
      (s.status.busy = false → step s = .next { s with agenda := rest }) ∧
      (s.status.busy = true → step s = .next { s with agenda := rest, status := { s.status with ovr := true } }))

/-- R53: an access of another width or at an offset that is no multiple of 4 changes no state of the block and records
HOST(BAD_ACCESS); a read of that kind returns some value. That this holds while BUSY too, so that such a write does not set
OVR though R60 says that a write to any offset sets it, is the model's choice between the two rules (log 18). -/
def Obligations.BadAccessIsRecordedAndChangesNothingElse : Prop :=
  ∀ (s : State) (width off : Nat) (rest : List Turn), (width ≠ 32 ∨ off % 4 ≠ 0) →
    (s.agenda = .read width (s.params.base + off) :: rest →
      ∃ v, step s = .next { s with
        agenda := rest, faults := { s.faults with badAccess := true }, rdata := some v, draws := s.draws + 1 }) ∧
    (∀ v, s.agenda = .write width (s.params.base + off) v :: rest →
      step s = .next { s with agenda := rest, faults := { s.faults with badAccess := true } })

/-- R35, R227: an idle read of a VEC word that holds no value records HOST(UNWRITTEN_VEC). That the machine goes on and
returns some value is the model's choice (log 6). -/
def Obligations.ReadOfUnwrittenVecIsRecorded : Prop :=
  ∀ (s : State) (j : Nat) (rest : List Turn), s.status.busy = false → j < s.params.nmax → s.vec j = none →
    s.agenda = .read 32 (s.params.base + (0x100 + 4 * j)) :: rest →
    ∃ v, step s = .next { s with
      agenda := rest, faults := { s.faults with unwrittenVec := true }, rdata := some v, draws := s.draws + 1 }

/-- The model's choice (log 17): an access below BASE is not one of the block, and stops by name. -/
def Obligations.AccessBelowBaseStops : Prop :=
  ∀ (s : State) (width addr : Nat) (v : Word) (rest : List Turn), addr < s.params.base →
    (s.agenda = .read width addr :: rest → step s = .fault .outsideBlock) ∧
    (s.agenda = .write width addr v :: rest → step s = .fault .outsideBlock)

/-! ### Fixed-point primitives -/

/-- R101, R102. -/
def Obligations.IlogWritesTheBitLength : Prop :=
  decode 0x00000001 = .ok .ilog ∧
  ∀ s : State, exec .ilog s = .next { s with
    res0 := BitVec.ofNat 32 (bitLength s.l0.toNat), status := completedStatus s .ok, phase := .idle }

/-- R103, R104: the product as floor division, its range, and that only bits 15:0 count. -/
def Obligations.Fmul15WritesTheRoundedProduct : Prop :=
  decode 0x00000002 = .ok .fmul15 ∧
  (∀ s : State, exec .fmul15 s = .next { s with
    res0 := BitVec.ofInt 32 ((low16 s.l0 * low16 s.l1 + 16384) / 32768), status := completedStatus s .ok, phase := .idle }) ∧
  (∀ a b : Int, fmul16 a b = q15mul a b ∧ -32768 ≤ fmul16 a b ∧ fmul16 a b ≤ 32768 ∧ fmul16 a b = fmul16 b a ∧
    (trunc16 a = 0 → fmul16 a b = 0) ∧ fmul16 (a + 65536) b = fmul16 a b)

/-- R105, R106, with the two values the source gives. -/
def Obligations.BcosWritesTheWrappedCubic : Prop :=
  decode 0x00000003 = .ok .bcos ∧
  (∀ s : State, exec .bcos s = .next { s with
    res0 := BitVec.ofInt 32 (cosinePolynomial (low16 s.l0)), status := completedStatus s .ok, phase := .idle }) ∧
  cosinePolynomial 0 = -32768 ∧ cosinePolynomial 16384 = 16554

/-- R107: the corner intervals of the cosine, its symmetry and its listed values. -/
def Obligations.BcosCornerIntervalsAndSymmetry : Prop :=
  (∀ s : State, -63 ≤ low16 s.l0 → low16 s.l0 ≤ 63 → ∃ t, exec .bcos s = .next t ∧ t.res0 = 0xFFFF8000) ∧
  (∀ s : State, 64 ≤ low16 s.l0 → low16 s.l0 ≤ 110 → ∃ t, exec .bcos s = .next t ∧ t.res0 = 32767) ∧
  (∀ s : State, 111 ≤ low16 s.l0 → low16 s.l0 ≤ 143 → ∃ t, exec .bcos s = .next t ∧ t.res0 = 32766) ∧
  (∀ s s' : State, low16 s'.l0 = -low16 s.l0 →
    ∃ t t', exec .bcos s = .next t ∧ exec .bcos s' = .next t' ∧ t'.res0 = t.res0) ∧
  (∀ (s : State) (x v : Int), (x, v) ∈ [((4096 : Int), (30274 : Int)), (8192, 23171), (12288, 12540), (16383, 3), (16384, 16554)] →
    low16 s.l0 = x → ∃ t, exec .bcos s = .next t ∧ t.res0 = BitVec.ofInt 32 v)

/-- R114, R115: the saturation cases return the open parameters, every other input the value of R113. -/
def Obligations.Blog2tanWritesLogTangentOrSaturates : Prop :=
  decode 0x00000004 = .ok .blog2tan ∧
  ∀ s : State, exec .blog2tan s = .next { s with
    res0 :=
      if low16 s.l0 ≤ 0 ∧ 0 < low16 s.l1 then Config.l2tNeg
      else if low16 s.l1 ≤ 0 ∧ 0 < low16 s.l0 then Config.l2tPos
      else if low16 s.l0 ≤ 0 ∧ low16 s.l1 ≤ 0 then Config.l2tBoth
      else BitVec.ofInt 32 (logTangent (low16 s.l0).toNat (low16 s.l1).toNat)
    status := completedStatus s .ok, phase := .idle }

/-- R111, R112, R113: the ranges of the parts and of the result, and its antisymmetry. -/
def Obligations.LogTangentStaysInRange : Prop :=
  (∀ v : Nat, 1 ≤ v → v ≤ 32767 →
    1 ≤ bitLength v ∧ bitLength v ≤ 15 ∧ l2tNormalize v = normalized v ∧ 16384 ≤ l2tNormalize v ∧ l2tNormalize v ≤ 32767) ∧
  (∀ z : Int, 16384 ≤ z → z ≤ 32767 →
    l2tCorr z = correction z ∧ 5335 ≤ fmul16 z (-2597) + 7932 ∧ fmul16 z (-2597) + 7932 ≤ 6634 ∧ 3317 ≤ l2tCorr z ∧ l2tCorr z ≤ 5335) ∧
  (∀ s c : Nat, 1 ≤ s → s ≤ 32767 → 1 ≤ c → c ≤ 32767 →
    log2tanPos s c = logTangent s c ∧ -30690 ≤ log2tanPos s c ∧ log2tanPos s c ≤ 30690 ∧
    log2tanPos c s = -log2tanPos s c)

/-- R116, R117: the exact floor square root of every 32-bit value. -/
def Obligations.IsqrtWritesTheFloorSquareRoot : Prop :=
  decode 0x00000005 = .ok .isqrt ∧
  ∀ s : State, ∃ r : Nat, r * r ≤ s.l0.toNat ∧ s.l0.toNat < (r + 1) * (r + 1) ∧
    exec .isqrt s = .next { s with res0 := BitVec.ofNat 32 r, status := completedStatus s .ok, phase := .idle }

/-- R100: each primitive reads its latched operands alone, writes RES0 alone, and completes with OK. -/
def Obligations.FixedPointPrimitivesArePure : Prop :=
  ∀ i ∈ [Instr.ilog, Instr.fmul15, Instr.bcos, Instr.blog2tan, Instr.isqrt], ∀ s s' : State,
    s'.l0 = s.l0 → s'.l1 = s.l1 → ∃ v : Word,
      exec i s = .next { s with res0 := v, status := completedStatus s .ok, phase := .idle } ∧
      exec i s' = .next { s' with res0 := v, status := completedStatus s' .ok, phase := .idle }

/-! ### Combinatorics -/

/-- R131: the boundary values and the recurrence of V. -/
def Obligations.CodebookBoundaryAndRecurrence : Prop :=
  (∀ N, codebook N 0 = 1) ∧ (∀ K, codebook 0 K = if K = 0 then 1 else 0) ∧ (∀ N, codebook N 1 = 2 * N) ∧
  (∀ n k, codebook (n + 1) (k + 1) = codebook n (k + 1) + codebook (n + 1) k + codebook n k)

/-- R131: V(N,K) is the number of vectors of N integers whose absolute values sum to K. -/
def Obligations.CodebookCountsThePulseVectors : Prop :=
  ∀ N K : Nat, Nat.card { x : Fin N → Int // ∑ j, (x j).natAbs = K } = codebook N K

/-- R133: every entry of a saturated row is the exact value cut at 2^32 - 1, whatever the order of the three additions. -/
def Obligations.SaturationLaw : Prop :=
  (∀ N K, vsat N K = min (codebook N K) (2 ^ 32 - 1)) ∧
  (∀ N K k, k ≤ K → (dpRow satAdd K N).getD k 0 = min (codebook N k) (2 ^ 32 - 1)) ∧
  (∀ a b c, satAdd (satAdd a b) c = satAdd (satAdd a c) b ∧ satAdd (satAdd a b) c = satAdd (satAdd b c) a)

/-- R135. The row buffers are hidden scratch: what they hold afterwards is not said here. -/
def Obligations.CwrsVWritesTheSaturatedCodebookSize : Prop :=
  decode 0x00000006 = .ok .cwrsV ∧
  (∀ s : State, s.l1.toNat ≤ s.params.kmax → ∃ t, exec .cwrsV s = .next t ∧
    t = { s with
      res0 := BitVec.ofNat 32 (min (codebook s.l0.toNat s.l1.toNat) (2 ^ 32 - 1))
      rowPrev := t.rowPrev, rowCur := t.rowCur, status := completedStatus s .ok, phase := .idle }) ∧
  (∀ s : State, s.params.kmax < s.l1.toNat → exec .cwrsV s = .next (completedOnly s .capacity))

/-- R137, R138: the pseudo-index map and its domain. -/
def Obligations.GetpulsesWritesThePulseCount : Prop :=
  decode 0x00000007 = .ok .getpulses ∧
  (∀ s : State, s.l0.toNat ≤ 239 → exec .getpulses s = .next { s with
    res0 := BitVec.ofNat 32 (if s.l0.toNat < 8 then s.l0.toNat
      else (8 + s.l0.toNat % 8) * 2 ^ (s.l0.toNat / 8 - 1))
    status := completedStatus s .ok, phase := .idle }) ∧
  (∀ s : State, 239 < s.l0.toNat → exec .getpulses s = .next (completedOnly s .domain)) ∧
  (∀ i j, i < j → j ≤ 239 → gp i < gp j ∧ gp j < 2 ^ 32)

/-- R139, R140: FITS32 answers whether the exact codebook size is below 2^31. -/
def Obligations.Fits32DecidesBelowTwoToThe31 : Prop :=
  decode 0x00000008 = .ok .fits32 ∧
  (∀ s : State, s.l1.toNat ≤ s.params.kmax → ∃ t, exec .fits32 s = .next t ∧
    t = { s with
      res0 := if codebook s.l0.toNat s.l1.toNat < 2 ^ 31 then 1 else 0
      rowPrev := t.rowPrev, rowCur := t.rowCur, status := completedStatus s .ok, phase := .idle }) ∧
  (∀ s : State, s.params.kmax < s.l1.toNat → exec .fits32 s = .next (completedOnly s .capacity))

/-- R141, R142: istar is the largest fitting pseudo-index, the threshold is 8 bits-lengths and 12, at most 260. -/
def Obligations.ThreshWritesTheEstimateAndItsIndex : Prop :=
  decode 0x00000009 = .ok .thresh ∧
  ∀ s : State, ∃ i t, exec .thresh s = .next t ∧
    i ≤ s.params.pseudoMax ∧ codebook s.l0.toNat (gp i) < 2 ^ 31 ∧
    (∀ j, j ≤ s.params.pseudoMax → codebook s.l0.toNat (gp j) < 2 ^ 31 → j ≤ i) ∧
    t = { s with
      res0 := BitVec.ofNat 32 (8 * bitLength (codebook s.l0.toNat (gp i)) + 12), res1 := BitVec.ofNat 32 i
      rowPrev := t.rowPrev, rowCur := t.rowCur, draws := t.draws, status := completedStatus s .ok, phase := .idle } ∧
    t.res0.toNat ≤ 260

/-- R143: V is monotone in K for N >= 1, strictly for N >= 2, so the fitting pseudo-indices are an initial segment. -/
def Obligations.FittingIndicesAreAnInitialSegment : Prop :=
  (∀ N K, 1 ≤ N → codebook N K ≤ codebook N (K + 1)) ∧
  (∀ N K, 2 ≤ N → codebook N K < codebook N (K + 1)) ∧
  (∀ K, 1 ≤ K → codebook 1 K = 2) ∧
  (∀ N i j, 1 ≤ N → i ≤ j → j ≤ 239 → fits N (gp j) = 1 → fits N (gp i) = 1)

/-! ### PVQ_DECODE -/

/-- R165, R221, R222: the errors of PVQ_DECODE in the order of its checks; RES0, RES1 and VEC keep their values. -/
def Obligations.PvqDecodeRefusesInItsCheckOrder : Prop :=
  (∀ s : State, s.l0.toNat = 0 → exec .pvqDecode s = .next (completedOnly s .invalidDimension)) ∧
  (∀ s : State, 1 ≤ s.l0.toNat → (s.params.nmax < s.l0.toNat ∨ s.params.kmax < s.l1.toNat) →
    exec .pvqDecode s = .next (completedOnly s .capacity)) ∧
  (∀ s : State, 1 ≤ s.l0.toNat → s.l0.toNat ≤ s.params.nmax → 1 ≤ s.l1.toNat → s.l1.toNat ≤ s.params.kmax →
    2 ^ 31 ≤ codebook s.l0.toNat s.l1.toNat → ∃ t, exec .pvqDecode s = .next t ∧
    t = { completedOnly s .codebookTooLarge with rowPrev := t.rowPrev, rowCur := t.rowCur })

/-- R165: K = 0 asks for nothing and writes N zeros. -/
def Obligations.PvqDecodeOfZeroPulsesWritesZeros : Prop :=
  ∀ s : State, Memory.wf s.mem → 1 ≤ s.l0.toNat → s.l0.toNat ≤ s.params.nmax → s.l1.toNat = 0 →
    ∃ t, exec .pvqDecode s = .next t ∧
      t = { s with res0 := 0, res1 := 1, mem := t.mem, status := completedStatus s .ok, phase := .idle } ∧
      (∀ j, j < s.l0.toNat → t.vec j = some 0) ∧ (∀ j, s.l0.toNat ≤ j → t.vec j = s.vec j) ∧
      bytesOutsideVecKept s t s.l0.toNat

/-- R160, R164, R31: with its checks passed, K >= 1 and no answer held, PVQ_DECODE posts one request with the codebook size
as its bound, at least 2 and below 2^31, and writes no result; with a check failed, K = 0 or an answer held it posts none;
no other command posts one. -/
def Obligations.OnlyPvqDecodePostsOneRequest : Prop :=
  (∀ s : State, drawsFor s → s.answer = none → ∃ ft t, exec .pvqDecode s = .next t ∧
    ft.toNat = codebook s.l0.toNat s.l1.toNat ∧ 2 ≤ ft.toNat ∧ ft.toNat < 2 ^ 31 ∧
    t = { s with rowPrev := t.rowPrev, rowCur := t.rowCur, request := some ft, phase := .waitEnt ft }) ∧
  (∀ (i : Instr) (s : State), i ≠ .pvqDecode → ∃ t, exec i s = .next t ∧ t.request = s.request ∧ t.answer = s.answer ∧
    t.phase = .idle) ∧
  (∀ s : State, ¬ drawsFor s → ∃ t, exec .pvqDecode s = .next t ∧ t.request = s.request ∧ t.phase = .idle) ∧
  (∀ (s : State) (a : Answer), s.answer = some a → s.request = none → ∃ t, exec .pvqDecode s = .next t ∧ t.request = none)

/-- R165, R166, R170: a legal answer u delivers to VEC[0..N-1] the vector that the steps of R166 give, which is the model's
unrank(N, K, u), u to RES0 and V(N,K) to RES1. Row buffers,
unranking registers and the draw counter are hidden scratch. That the held answer is used up is the model's choice
(log 13); the steps are the spec's from general knowledge (log 26). -/
def Obligations.PvqDecodeDeliversThePulseVector : Prop :=
  decode 0x0000000A = .ok .pvqDecode ∧
  ∀ (s : State) (u : Word), Memory.wf s.mem → drawsFor s → s.answer = some (.ok u) →
    u.toNat < codebook s.l0.toNat s.l1.toNat → ∃ t, exec .pvqDecode s = .next t ∧
      t = { s with
        res0 := u, res1 := BitVec.ofNat 32 (codebook s.l0.toNat s.l1.toNat), mem := t.mem, answer := none
        rowPrev := t.rowPrev, rowCur := t.rowCur, unrank := t.unrank, draws := t.draws
        status := completedStatus s .ok, phase := .idle } ∧
      (unrank s.l0.toNat s.l1.toNat u.toNat).length = s.l0.toNat ∧
      UnrankSteps s.l0.toNat s.l1.toNat u.toNat (unrank s.l0.toNat s.l1.toNat u.toNat) ∧
      (∀ j, j < s.l0.toNat →
        t.vec j = some (BitVec.ofInt 32 ((unrank s.l0.toNat s.l1.toNat u.toNat).getD j 0))) ∧
      (∀ j, s.l0.toNat ≤ j → t.vec j = s.vec j) ∧ bytesOutsideVecKept s t s.l0.toNat

/-- R162: the collaborator's ERR(e) ends the command: e in RES1, code ENTROPY, RES0 and VEC unchanged. That the row
buffers stay as the posting step left them, where the spec leaves open whether the completion sweeps again, is the model's
choice (log 10). -/
def Obligations.PvqDecodePropagatesTheEntropyError : Prop :=
  ∀ (s : State) (e : Word), drawsFor s → s.answer = some (.err e) → ∃ t, exec .pvqDecode s = .next t ∧
    t = { s with res1 := e, answer := t.answer, status := completedStatus s .entropy, phase := .idle }

/-- R168: unranking is a bijection from 0 .. V(N,K)-1 onto the vectors of length N with K pulses. -/
def Obligations.UnrankingIsABijection : Prop :=
  ∀ N K : Nat, 1 ≤ N → 1 ≤ K →
    (∀ u, u < codebook N K →
      (unrank N K u).length = N ∧ ((unrank N K u).map Int.natAbs).sum = K) ∧
    (∀ X : List Int, X.length = N → (X.map Int.natAbs).sum = K → ∃! u, u < codebook N K ∧ unrank N K u = X)

/-- R167, R168: below 2^31 every size the unranking reads is at most V(N,K), every sum is below 2^32 and even. -/
def Obligations.UnrankingFitsItsWidth : Prop :=
  (∀ N K n k : Nat, 1 ≤ N → n ≤ N → k ≤ K → codebook N K < 2 ^ 31 →
    codebook n k ≤ codebook N K ∧ (n < N → codebook n k + codebook (n + 1) k < 2 ^ 32)) ∧
  (∀ m k : Nat, 1 ≤ m → 2 ∣ codebook (m - 1) k + codebook m k ∧
    codebook (m - 1) k ≤ (codebook (m - 1) k + codebook m k) / 2)

/-- R169: what PVQ_DECODE writes depends on (N, K, u) and the sizes alone. -/
def Obligations.PvqDecodeIsDeterminedByOperandsAndAnswer : Prop :=
  ∀ s s' : State, s'.params = s.params → s'.l0 = s.l0 → s'.l1 = s.l1 → s'.answer = s.answer → (∃ u, s.answer = some (.ok u)) →
    Memory.wf s.mem → Memory.wf s'.mem → drawsFor s →
    ∃ t t', exec .pvqDecode s = .next t ∧ exec .pvqDecode s' = .next t' ∧
      (t.phase = .idle → t'.phase = .idle ∧ t'.res0 = t.res0 ∧ t'.res1 = t.res1 ∧ t'.status.err = t.status.err ∧
        ∀ j, j < s.l0.toNat → t'.vec j = t.vec j)

/-- R171: INVALID_CODEBOOK is never raised, since V(N,K) >= 2 for N and K positive. -/
def Obligations.InvalidCodebookIsNeverRaised : Prop :=
  (∀ N K, 1 ≤ N → 1 ≤ K → 2 ≤ vsat N K) ∧
  (∀ s : State, ∃ t, exec .pvqDecode s = .next t ∧ (t.phase = .idle → t.status.err ≠ .invalidCodebook))

/-! ### SPREAD -/

/-- R190, R221, R222: the errors of SPREAD in the order of its checks. -/
def Obligations.SpreadRefusesInItsCheckOrder : Prop :=
  ∀ s : State,
    (3 < s.l2.toNat → exec .spread s = .next (completedOnly s .invalidSpread)) ∧
    (s.l2.toNat ≤ 3 → s.params.nmax < s.l0.toNat → exec .spread s = .next (completedOnly s .capacity)) ∧
    (s.l2.toNat ≤ 3 → s.l0.toNat ≤ s.params.nmax → s.l2.toNat ≠ 0 → s.l1.toNat ≠ 0 → s.l3.toNat = 0 →
      exec .spread s = .next (completedOnly s .invalidBlockCount)) ∧
    (s.l2.toNat ≤ 3 → s.l0.toNat ≤ s.params.nmax → s.l2.toNat ≠ 0 → s.l1.toNat ≠ 0 → s.l3.toNat ≠ 0 →
      s.l0.toNat % s.l3.toNat ≠ 0 → exec .spread s = .next (completedOnly s .invalidBlockDivision))

/-- R192: level none, or no pulses, reads and writes no VEC word, whatever the block count. -/
def Obligations.SpreadWithoutRotationChangesNothing : Prop :=
  ∀ s : State, s.l2.toNat ≤ 3 → s.l0.toNat ≤ s.params.nmax → (s.l2.toNat = 0 ∨ s.l1.toNat = 0) →
    exec .spread s = .next (completedOnly s .ok)

/-- R190, R191, R194 to R198, R200: past its checks, on words that hold finite samples, SPREAD replaces VEC[0..N-1] by the
rotated samples, (c, s) being CS of the angle, and changes nothing else. The factors, the angle, the pairs, the order and
the bounds of the passes, the rounded root and the swapped pre-rotation are written out in Claims, not taken from the
model. The formulas of R194, PAIR and the passes of R195 and the swap of R197 are the spec's from general knowledge
(log 26). -/
def Obligations.SpreadRotatesTheSamples : Prop :=
  decode 0x0000000B = .ok .spread ∧
  ∀ (s : State) (X : List Word), Memory.wf s.mem → 1 ≤ s.l2.toNat → s.l2.toNat ≤ 3 → s.l0.toNat ≤ s.params.nmax →
    1 ≤ s.l1.toNat → 1 ≤ s.l3.toNat → s.l0.toNat % s.l3.toNat = 0 → X.length = s.l0.toNat →
    (∀ j, j < s.l0.toNat → s.vec j = some (X.getD j 0) ∧ ((X.getD j 0).extractLsb' 23 8).toNat ≠ 255) →
    ∃ (c r : Word) (t : State), (c, r) = Config.cs (rotationAngle s.l0.toNat s.l1.toNat s.l2.toNat) ∧
      exec .spread s = .next t ∧
      t = { s with mem := t.mem, status := completedStatus s .ok, phase := .idle } ∧
      (∀ j, j < s.l0.toNat →
        t.vec j = some (spreadOf c r s.l0.toNat s.l3.toNat (fun x => X.getD x 0) j)) ∧
      (∀ j, s.l0.toNat ≤ j → t.vec j = s.vec j) ∧ bytesOutsideVecKept s t s.l0.toNat

/-- R193: with a NaN or an infinity among the samples read, SPREAD still completes; each of VEC[0..N-1] holds some value
(log 23) and nothing else changes. -/
def Obligations.SpreadOfNonFiniteSamplesCompletes : Prop :=
  ∀ s : State, Memory.wf s.mem → 1 ≤ s.l2.toNat → s.l2.toNat ≤ 3 → s.l0.toNat ≤ s.params.nmax →
    1 ≤ s.l1.toNat → 1 ≤ s.l3.toNat → s.l0.toNat % s.l3.toNat = 0 →
    (∀ j, j < s.l0.toNat → (s.vec j).isSome) →
    (∃ j v, j < s.l0.toNat ∧ s.vec j = some v ∧ (v.extractLsb' 23 8).toNat = 255) →
    ∃ t, exec .spread s = .next t ∧
      t = { s with mem := t.mem, draws := t.draws, status := completedStatus s .ok, phase := .idle } ∧
      (∀ j, j < s.l0.toNat → (t.vec j).isSome) ∧ (∀ j, s.l0.toNat ≤ j → t.vec j = s.vec j) ∧
      bytesOutsideVecKept s t s.l0.toNat

/-- R35: a SPREAD that reads a VEC word without a value records HOST(UNWRITTEN_VEC) at its completion step. That it
completes is the model's choice (log 16). -/
def Obligations.SpreadOverUnwrittenVecIsRecorded : Prop :=
  ∀ s : State, Memory.wf s.mem → 1 ≤ s.l2.toNat → s.l2.toNat ≤ 3 → s.l0.toNat ≤ s.params.nmax →
    1 ≤ s.l1.toNat → 1 ≤ s.l3.toNat → s.l0.toNat % s.l3.toNat = 0 →
    (∃ j, j < s.l0.toNat ∧ s.vec j = none) →
    ∃ t, exec .spread s = .next t ∧
      t = { s with
        mem := t.mem, draws := t.draws, faults := { s.faults with unwrittenVec := true }
        status := completedStatus s .ok, phase := .idle } ∧
      bytesOutsideVecKept s t s.l0.toNat

/-- R198: the stride is the rounded square root. -/
def Obligations.StrideIsTheRoundedSquareRoot : Prop :=
  ∀ L : Nat, 1 ≤ L → L < 2 ^ 32 →
    1 ≤ stride L ∧ stride L * stride L - stride L < L ∧ L ≤ stride L * stride L + stride L ∧
    ∀ st, 1 ≤ st → st * st - st < L → L ≤ st * st + st → st = stride L

/-- R195, R197: ROT keeps the length, leaves the samples outside its block alone, and its strided groups do not interact. -/
def Obligations.RotationGroupsDoNotInteract : Prop :=
  ∀ (X Y : List Word) (off L st r : Nat) (c s : Word), 1 ≤ st → X.length = Y.length → off + L ≤ X.length →
    (rotate X off L st c s).length = X.length ∧
    (∀ j, (j < off ∨ off + L ≤ j) → (rotate X off L st c s)[j]? = X[j]?) ∧
    ((∀ i, i < L → i % st = r → X[off + i]? = Y[off + i]?) →
      ∀ i, i < L → i % st = r → (rotate X off L st c s)[off + i]? = (rotate Y off L st c s)[off + i]?)

/-- R193: the conversion of an integer up to 2^24 to binary32 is exact. -/
def Obligations.IntegerConversionIsExactUpTo2Pow24 : Prop :=
  ∀ n : Nat, n ≤ 2 ^ 24 → ∃ (m : Nat) (e : Int), floatVal (f32 n) = .fin false m e ∧
    (m : Rat) * (2 : Rat) ^ e = (n : Rat)

/-- R193: the one rounding every operation uses is to nearest, ties to even. Dropping k bits of a significand errs by at
most half a unit, and by exactly half only towards an even result; with the sticky bit, which says that the exact value
lies between m and m + 1, it errs by less than half. The whole rounding has the unit that IEEE 754 gives the value, with
gradual underflow; that an overflow gives an infinity is presumed from IEEE 754 (log 15). -/
def Obligations.RoundingIsToNearestEven : Prop :=
  (∀ m k : Nat,
    2 * (((roundShift m k false) * 2 ^ k : Nat) - (m : Int)).natAbs ≤ 2 ^ k ∧
    (2 * (((roundShift m k false) * 2 ^ k : Nat) - (m : Int)).natAbs = 2 ^ k → roundShift m k false % 2 = 0)) ∧
  (∀ (m k : Nat) (x : Rat), 1 ≤ k → (m : Rat) < x → x < (m : Rat) + 1 →
    2 * |((roundShift m k true * 2 ^ k : Nat) : Rat) - x| < 2 ^ k) ∧
  (∀ (neg : Bool) (m : Nat) (e : Int), roundsTo neg (magnitude m e) (floatRound neg m e false)) ∧
  (∀ (neg : Bool) (m : Nat) (e : Int) (x : Rat), 2 ^ 24 ≤ m → (m : Rat) < x → x < (m : Rat) + 1 →
    roundsTo neg (x * (2 : Rat) ^ e) (floatRound neg m e true))

/-! ### The whole machine -/

/-- Every step keeps phase, BUSY, DONE, CMD, latches and entropy port in agreement. Two parts of `State.ControlOk` are the
model's choices: the block stuck by an ENTROPY_RANGE fault stays in WAIT_ENT with no request (`wait_requests`, log 12), and
no answer is held after the completion (`answer_exec`, log 13). -/
def Obligations.EveryStepKeepsControlConsistent : Prop :=
  ∀ s t : State, s.ControlOk → step s = .next t → t.ControlOk

/-- Every step keeps memory canonical and inside VEC, VEC words whole, and the row buffers at their length. -/
def Obligations.EveryStepKeepsMemoryConsistent : Prop :=
  ∀ s t : State, s.MemoryOk → step s = .next t → t.MemoryOk

/-- R41: the machine right after reset, for any sizes, meets both invariants; every register, visible or hidden, that the
reset table gives a value has it, VEC holds no value, and the entropy port is empty. The model's choices are the sizes that
`State.reset` carries (log 1) and its empty fault record (log 21); of the scratch that R41 leaves unspecified (log 9) only
the length of the row buffers is said. -/
def Obligations.ResetStateIsIdleAndConsistent : Prop :=
  (∀ p : Params, ∃ s, s = State.resetWith p ∧ s.ControlOk ∧ s.MemoryOk ∧ s.params = p ∧
    s.arg0 = 0 ∧ s.arg1 = 0 ∧ s.arg2 = 0 ∧ s.arg3 = 0 ∧ s.res0 = 0 ∧ s.res1 = 0 ∧ s.cmd = 0 ∧
    s.status.word = 0 ∧ s.phase = .idle ∧ s.lop = .op 0 ∧ s.lcmd = 0 ∧
    s.l0 = 0 ∧ s.l1 = 0 ∧ s.l2 = 0 ∧ s.l3 = 0 ∧ (∀ j, s.vec j = none) ∧
    s.request = none ∧ s.answer = none ∧ s.faultFree) ∧
  State.reset = State.resetWith Params.reference

/-- R221, R222: a command that completes with an error leaves RES0, RES1 and VEC as they were, but for the collaborator's
code in RES1; DONE is set and BUSY cleared. -/
def Obligations.ErrorsLeaveNoPartialResult : Prop :=
  ∀ (i : Instr) (s : State), ∃ t, exec i s = .next t ∧
    (t.phase = .idle → t.status.err ≠ .ok →
      t.res0 = s.res0 ∧ t.mem = s.mem ∧ t.status.done = true ∧ t.status.busy = false ∧
      (t.res1 = s.res1 ∨ (t.status.err = .entropy ∧ ∃ e, s.answer = some (.err e) ∧ t.res1 = e)))

/-- R21, R22, R28, R33, R39, R59: over any step of any agent, the block never writes ARG0 to ARG3; CMD and the latches LOP,
LCMD and L0 to L3 change only at an accept, from the written word and ARG0 to ARG3, or a reset; a result register changes
only at a completion or a reset; VEC changes only at a completion, an idle host write or a reset; no fault is ever cleared; the
parameters never change. -/
def Obligations.OnlyTheNamedEventsChangeARegister : Prop :=
  ∀ s t : State, step s = .next t →
    t.params = s.params ∧
    (s.faults.badAccess = true → t.faults.badAccess = true) ∧
    (s.faults.unwrittenVec = true → t.faults.unwrittenVec = true) ∧
    (s.faults.entropyRange = true → t.faults.entropyRange = true) ∧
    ((s.agenda = [] ∨ s.agenda.head? = some .block) →
      t.arg0 = s.arg0 ∧ t.arg1 = s.arg1 ∧ t.arg2 = s.arg2 ∧ t.arg3 = s.arg3 ∧ t.cmd = s.cmd) ∧
    ((t.cmd ≠ s.cmd ∨ t.lcmd ≠ s.lcmd ∨ t.lop ≠ s.lop ∨ t.l0 ≠ s.l0 ∨ t.l1 ≠ s.l1 ∨ t.l2 ≠ s.l2 ∨ t.l3 ≠ s.l3) →
      (∃ w, s.agenda.head? = some (.write 32 s.params.base w) ∧ s.status.busy = false ∧ t.phase = .exec ∧
        t.cmd = w ∧ t.lcmd = w ∧ t.lop = latchOp w ∧
        t.l0 = s.arg0 ∧ t.l1 = s.arg1 ∧ t.l2 = s.arg2 ∧ t.l3 = s.arg3) ∨
      s.agenda.head? = some .reset) ∧
    ((t.res0 ≠ s.res0 ∨ t.res1 ≠ s.res1) →
      (s.phase = .exec ∧ t.phase = .idle ∧ t.status.done = true) ∨ s.agenda.head? = some .reset) ∧
    (t.mem ≠ s.mem →
      (s.phase = .exec ∧ t.phase = .idle ∧ t.status.done = true ∧ (s.lop = .op 0xA ∨ s.lop = .op 0xB)) ∨
      s.agenda.head? = some .reset ∨
      ∃ width addr v, s.agenda.head? = some (.write width addr v) ∧ s.status.busy = false)

/-- R36, R37: nothing a step does or a host sees depends on the row buffers or the unranking registers. -/
def Obligations.ScratchIsNeverObserved : Prop :=
  ∀ s s' : State, sameButScratch s s' → sameOutcomeButScratch (step s) (step s')

/-- R193: on finite operands fmul, fdiv, fadd and fsub give the exact result rounded once, with no fusing and no flush to
zero. The sign of an exact zero sum, and that an overflow gives an infinity, are presumed from IEEE 754 (log 15). -/
def Obligations.FloatOperationsRoundTheExactResult : Prop :=
  ∀ (a b : Word) (n1 n2 : Bool) (m1 m2 : Nat) (e1 e2 : Int), floatVal a = .fin n1 m1 e1 → floatVal b = .fin n2 m2 e2 →
    roundsTo (n1 != n2) (magnitude m1 e1 * magnitude m2 e2) (fmul a b) ∧
    (m2 ≠ 0 → roundsTo (n1 != n2) (magnitude m1 e1 / magnitude m2 e2) (fdiv a b)) ∧
    (signedValue n1 m1 e1 + signedValue n2 m2 e2 ≠ 0 →
      roundsTo (decide (signedValue n1 m1 e1 + signedValue n2 m2 e2 < 0))
        |signedValue n1 m1 e1 + signedValue n2 m2 e2| (fadd a b)) ∧
    (signedValue n1 m1 e1 + signedValue n2 m2 e2 = 0 → fadd a b = if n1 && n2 then 0x80000000 else 0) ∧
    (signedValue n1 m1 e1 - signedValue n2 m2 e2 ≠ 0 →
      roundsTo (decide (signedValue n1 m1 e1 - signedValue n2 m2 e2 < 0))
        |signedValue n1 m1 e1 - signedValue n2 m2 e2| (fsub a b)) ∧
    (signedValue n1 m1 e1 - signedValue n2 m2 e2 = 0 → fsub a b = if n1 && !n2 then 0x80000000 else 0)
end

