-- ==== Sys2Proof/Laws/Combinatorics.lean ====
section
/-! SUPPORT. The rows of the combinatorics engine, for any addition. -/

namespace Sys2Proof.Machine

/-- A row built from one of L + 1 entries has L more entries after its first. -/
theorem rowTail_length (add : Nat → Nat → Nat) (left a : Nat) (t : List Nat) : (rowTail add left (a :: t)).length = t.length := by
  induction t generalizing left a with
  | nil => rfl
  | cons b t ih => simp [rowTail, ih]

/-- A row keeps its length. -/
theorem nextRow_length (add : Nat → Nat → Nat) (row : List Nat) (h : row ≠ []) : (nextRow add row).length = row.length := by
  cases row with
  | nil => exact absurd rfl h
  | cons a t => simp [nextRow, rowTail_length]

/-- A row has K + 1 entries (41_combinatorics.md R132). -/
@[simp] theorem dpRow_length (add : Nat → Nat → Nat) (K n : Nat) : (dpRow add K n).length = K + 1 := by
  induction n with
  | zero => simp [dpRow]
  | succ n ih =>
    have hne : dpRow add K n ≠ [] := by
      intro h
      simp [h] at ih
    rw [dpRow, nextRow_length add _ hne, ih]

/-- Entry 0 of a row is 1. -/
@[simp] theorem dpRow_zero_entry (add : Nat → Nat → Nat) (K n : Nat) : (dpRow add K n).getD 0 0 = 1 := by
  cases n <;> simp [dpRow, nextRow]

/-- Entry k of the tail, from the entry to its left. -/
theorem rowTail_entry (add : Nat → Nat → Nat) (left : Nat) (row : List Nat) (k : Nat) (hk : k + 1 < row.length) :
    (rowTail add left row).getD k 0 =
      add (add (row.getD (k + 1) 0) ((left :: rowTail add left row).getD k 0)) (row.getD k 0) := by
  induction k generalizing left row with
  | zero =>
    match row, hk with
    | a :: b :: t, _ => simp [rowTail]
  | succ k ih =>
    match row, hk with
    | a :: b :: t, hk =>
      have h := ih (add (add b left) a) (b :: t) (by simpa using hk)
      simpa [rowTail] using h

/-- Entry k + 1 of row n + 1 (41_combinatorics.md R131, R132). -/
theorem dpRow_succ_entry (add : Nat → Nat → Nat) (K n k : Nat) (hk : k < K) :
    (dpRow add K (n + 1)).getD (k + 1) 0 =
      add (add ((dpRow add K n).getD (k + 1) 0) ((dpRow add K (n + 1)).getD k 0)) ((dpRow add K n).getD k 0) := by
  have h := rowTail_entry add 1 (dpRow add K n) k (by simp; omega)
  simpa [dpRow, nextRow] using h

/-- Row 0 is 1 and then zeros. -/
theorem dpRow_first (add : Nat → Nat → Nat) (K k : Nat) : (dpRow add K 0).getD (k + 1) 0 = 0 := by
  simp only [dpRow, List.getD_cons_succ]
  rw [List.getD_eq_getElem?_getD, List.getElem?_replicate]
  split <;> rfl

/-- An entry does not depend on how long the row is (41_combinatorics.md R132). -/
theorem dpRow_entry_prefix (add : Nat → Nat → Nat) (K n k : Nat) (hk : k ≤ K) :
    (dpRow add K n).getD k 0 = (dpRow add k n).getD k 0 := by
  suffices h : ∀ n j K K', j ≤ K → j ≤ K' → (dpRow add K n).getD j 0 = (dpRow add K' n).getD j 0 from
    h n k K k hk (Nat.le_refl k)
  intro n
  induction n with
  | zero =>
    intro j K K' _ _
    cases j with
    | zero => rw [dpRow_zero_entry, dpRow_zero_entry]
    | succ j => rw [dpRow_first, dpRow_first]
  | succ n ihn =>
    intro j
    induction j with
    | zero => intros; rw [dpRow_zero_entry, dpRow_zero_entry]
    | succ j ihj =>
      intro K K' hK hK'
      rw [dpRow_succ_entry add K n j hK, dpRow_succ_entry add K' n j hK', ihn (j + 1) K K' hK hK',
        ihn j K K' (by omega) (by omega), ihj K K' (by omega) (by omega)]

/-- Unranking takes N positions (42_pvq_decode.md R166). -/
@[simp] theorem unrankFrom_length (m j : Nat) (w : UnrankWork) : (unrankFrom m j w).1.length = m := by
  induction m generalizing j w with
  | zero => rfl
  | succ m ih => simp [unrankFrom, ih]

/-- The vector has N entries (42_pvq_decode.md R166). -/
@[simp] theorem unrank_entries (N K u : Nat) : (unrank N K u).length = N := unrankFrom_length _ _ _

end Sys2Proof.Machine
end

