-- ==== Sys2Proof/Laws/State.lean ====
section
/-! SUPPORT. What each update of the state does to each field: one lemma per field per update. -/

namespace Sys2Proof.Machine

/-- Raising an error is completing with its code. -/
@[simp] theorem State.raise_eq (s : State) (c : ErrCode) : s.raise c = s.complete c := rfl

/-! ### setRes0 -/

@[simp] theorem State.setRes0_params (s : State) (v : Word) : (s.setRes0 v).params = s.params := rfl
@[simp] theorem State.setRes0_arg0 (s : State) (v : Word) : (s.setRes0 v).arg0 = s.arg0 := rfl
@[simp] theorem State.setRes0_arg1 (s : State) (v : Word) : (s.setRes0 v).arg1 = s.arg1 := rfl
@[simp] theorem State.setRes0_arg2 (s : State) (v : Word) : (s.setRes0 v).arg2 = s.arg2 := rfl
@[simp] theorem State.setRes0_arg3 (s : State) (v : Word) : (s.setRes0 v).arg3 = s.arg3 := rfl
@[simp] theorem State.setRes0_res0 (s : State) (v : Word) : (s.setRes0 v).res0 = v := rfl
@[simp] theorem State.setRes0_res1 (s : State) (v : Word) : (s.setRes0 v).res1 = s.res1 := rfl
@[simp] theorem State.setRes0_cmd (s : State) (v : Word) : (s.setRes0 v).cmd = s.cmd := rfl
@[simp] theorem State.setRes0_status (s : State) (v : Word) : (s.setRes0 v).status = s.status := rfl
@[simp] theorem State.setRes0_phase (s : State) (v : Word) : (s.setRes0 v).phase = s.phase := rfl
@[simp] theorem State.setRes0_lop (s : State) (v : Word) : (s.setRes0 v).lop = s.lop := rfl
@[simp] theorem State.setRes0_lcmd (s : State) (v : Word) : (s.setRes0 v).lcmd = s.lcmd := rfl
@[simp] theorem State.setRes0_l0 (s : State) (v : Word) : (s.setRes0 v).l0 = s.l0 := rfl
@[simp] theorem State.setRes0_l1 (s : State) (v : Word) : (s.setRes0 v).l1 = s.l1 := rfl
@[simp] theorem State.setRes0_l2 (s : State) (v : Word) : (s.setRes0 v).l2 = s.l2 := rfl
@[simp] theorem State.setRes0_l3 (s : State) (v : Word) : (s.setRes0 v).l3 = s.l3 := rfl
@[simp] theorem State.setRes0_mem (s : State) (v : Word) : (s.setRes0 v).mem = s.mem := rfl
@[simp] theorem State.setRes0_rowPrev (s : State) (v : Word) : (s.setRes0 v).rowPrev = s.rowPrev := rfl
@[simp] theorem State.setRes0_rowCur (s : State) (v : Word) : (s.setRes0 v).rowCur = s.rowCur := rfl
@[simp] theorem State.setRes0_unrank (s : State) (v : Word) : (s.setRes0 v).unrank = s.unrank := rfl
@[simp] theorem State.setRes0_request (s : State) (v : Word) : (s.setRes0 v).request = s.request := rfl
@[simp] theorem State.setRes0_answer (s : State) (v : Word) : (s.setRes0 v).answer = s.answer := rfl
@[simp] theorem State.setRes0_faults (s : State) (v : Word) : (s.setRes0 v).faults = s.faults := rfl
@[simp] theorem State.setRes0_agenda (s : State) (v : Word) : (s.setRes0 v).agenda = s.agenda := rfl
@[simp] theorem State.setRes0_rdata (s : State) (v : Word) : (s.setRes0 v).rdata = s.rdata := rfl
@[simp] theorem State.setRes0_draws (s : State) (v : Word) : (s.setRes0 v).draws = s.draws := rfl

/-! ### setRes1 -/

@[simp] theorem State.setRes1_params (s : State) (v : Word) : (s.setRes1 v).params = s.params := rfl
@[simp] theorem State.setRes1_arg0 (s : State) (v : Word) : (s.setRes1 v).arg0 = s.arg0 := rfl
@[simp] theorem State.setRes1_arg1 (s : State) (v : Word) : (s.setRes1 v).arg1 = s.arg1 := rfl
@[simp] theorem State.setRes1_arg2 (s : State) (v : Word) : (s.setRes1 v).arg2 = s.arg2 := rfl
@[simp] theorem State.setRes1_arg3 (s : State) (v : Word) : (s.setRes1 v).arg3 = s.arg3 := rfl
@[simp] theorem State.setRes1_res0 (s : State) (v : Word) : (s.setRes1 v).res0 = s.res0 := rfl
@[simp] theorem State.setRes1_res1 (s : State) (v : Word) : (s.setRes1 v).res1 = v := rfl
@[simp] theorem State.setRes1_cmd (s : State) (v : Word) : (s.setRes1 v).cmd = s.cmd := rfl
@[simp] theorem State.setRes1_status (s : State) (v : Word) : (s.setRes1 v).status = s.status := rfl
@[simp] theorem State.setRes1_phase (s : State) (v : Word) : (s.setRes1 v).phase = s.phase := rfl
@[simp] theorem State.setRes1_lop (s : State) (v : Word) : (s.setRes1 v).lop = s.lop := rfl
@[simp] theorem State.setRes1_lcmd (s : State) (v : Word) : (s.setRes1 v).lcmd = s.lcmd := rfl
@[simp] theorem State.setRes1_l0 (s : State) (v : Word) : (s.setRes1 v).l0 = s.l0 := rfl
@[simp] theorem State.setRes1_l1 (s : State) (v : Word) : (s.setRes1 v).l1 = s.l1 := rfl
@[simp] theorem State.setRes1_l2 (s : State) (v : Word) : (s.setRes1 v).l2 = s.l2 := rfl
@[simp] theorem State.setRes1_l3 (s : State) (v : Word) : (s.setRes1 v).l3 = s.l3 := rfl
@[simp] theorem State.setRes1_mem (s : State) (v : Word) : (s.setRes1 v).mem = s.mem := rfl
@[simp] theorem State.setRes1_rowPrev (s : State) (v : Word) : (s.setRes1 v).rowPrev = s.rowPrev := rfl
@[simp] theorem State.setRes1_rowCur (s : State) (v : Word) : (s.setRes1 v).rowCur = s.rowCur := rfl
@[simp] theorem State.setRes1_unrank (s : State) (v : Word) : (s.setRes1 v).unrank = s.unrank := rfl
@[simp] theorem State.setRes1_request (s : State) (v : Word) : (s.setRes1 v).request = s.request := rfl
@[simp] theorem State.setRes1_answer (s : State) (v : Word) : (s.setRes1 v).answer = s.answer := rfl
@[simp] theorem State.setRes1_faults (s : State) (v : Word) : (s.setRes1 v).faults = s.faults := rfl
@[simp] theorem State.setRes1_agenda (s : State) (v : Word) : (s.setRes1 v).agenda = s.agenda := rfl
@[simp] theorem State.setRes1_rdata (s : State) (v : Word) : (s.setRes1 v).rdata = s.rdata := rfl
@[simp] theorem State.setRes1_draws (s : State) (v : Word) : (s.setRes1 v).draws = s.draws := rfl

/-! ### complete -/

@[simp] theorem State.complete_params (s : State) (c : ErrCode) : (s.complete c).params = s.params := rfl
@[simp] theorem State.complete_arg0 (s : State) (c : ErrCode) : (s.complete c).arg0 = s.arg0 := rfl
@[simp] theorem State.complete_arg1 (s : State) (c : ErrCode) : (s.complete c).arg1 = s.arg1 := rfl
@[simp] theorem State.complete_arg2 (s : State) (c : ErrCode) : (s.complete c).arg2 = s.arg2 := rfl
@[simp] theorem State.complete_arg3 (s : State) (c : ErrCode) : (s.complete c).arg3 = s.arg3 := rfl
@[simp] theorem State.complete_res0 (s : State) (c : ErrCode) : (s.complete c).res0 = s.res0 := rfl
@[simp] theorem State.complete_res1 (s : State) (c : ErrCode) : (s.complete c).res1 = s.res1 := rfl
@[simp] theorem State.complete_cmd (s : State) (c : ErrCode) : (s.complete c).cmd = s.cmd := rfl
@[simp] theorem State.complete_status (s : State) (c : ErrCode) : (s.complete c).status = s.status.complete c := rfl
@[simp] theorem State.complete_phase (s : State) (c : ErrCode) : (s.complete c).phase = .idle := rfl
@[simp] theorem State.complete_lop (s : State) (c : ErrCode) : (s.complete c).lop = s.lop := rfl
@[simp] theorem State.complete_lcmd (s : State) (c : ErrCode) : (s.complete c).lcmd = s.lcmd := rfl
@[simp] theorem State.complete_l0 (s : State) (c : ErrCode) : (s.complete c).l0 = s.l0 := rfl
@[simp] theorem State.complete_l1 (s : State) (c : ErrCode) : (s.complete c).l1 = s.l1 := rfl
@[simp] theorem State.complete_l2 (s : State) (c : ErrCode) : (s.complete c).l2 = s.l2 := rfl
@[simp] theorem State.complete_l3 (s : State) (c : ErrCode) : (s.complete c).l3 = s.l3 := rfl
@[simp] theorem State.complete_mem (s : State) (c : ErrCode) : (s.complete c).mem = s.mem := rfl
@[simp] theorem State.complete_rowPrev (s : State) (c : ErrCode) : (s.complete c).rowPrev = s.rowPrev := rfl
@[simp] theorem State.complete_rowCur (s : State) (c : ErrCode) : (s.complete c).rowCur = s.rowCur := rfl
@[simp] theorem State.complete_unrank (s : State) (c : ErrCode) : (s.complete c).unrank = s.unrank := rfl
@[simp] theorem State.complete_request (s : State) (c : ErrCode) : (s.complete c).request = s.request := rfl
@[simp] theorem State.complete_answer (s : State) (c : ErrCode) : (s.complete c).answer = s.answer := rfl
@[simp] theorem State.complete_faults (s : State) (c : ErrCode) : (s.complete c).faults = s.faults := rfl
@[simp] theorem State.complete_agenda (s : State) (c : ErrCode) : (s.complete c).agenda = s.agenda := rfl
@[simp] theorem State.complete_rdata (s : State) (c : ErrCode) : (s.complete c).rdata = s.rdata := rfl
@[simp] theorem State.complete_draws (s : State) (c : ErrCode) : (s.complete c).draws = s.draws := rfl

/-! ### setVec -/

@[simp] theorem State.setVec_params (s : State) (j : Nat) (v : Word) : (s.setVec j v).params = s.params := rfl
@[simp] theorem State.setVec_arg0 (s : State) (j : Nat) (v : Word) : (s.setVec j v).arg0 = s.arg0 := rfl
@[simp] theorem State.setVec_arg1 (s : State) (j : Nat) (v : Word) : (s.setVec j v).arg1 = s.arg1 := rfl
@[simp] theorem State.setVec_arg2 (s : State) (j : Nat) (v : Word) : (s.setVec j v).arg2 = s.arg2 := rfl
@[simp] theorem State.setVec_arg3 (s : State) (j : Nat) (v : Word) : (s.setVec j v).arg3 = s.arg3 := rfl
@[simp] theorem State.setVec_res0 (s : State) (j : Nat) (v : Word) : (s.setVec j v).res0 = s.res0 := rfl
@[simp] theorem State.setVec_res1 (s : State) (j : Nat) (v : Word) : (s.setVec j v).res1 = s.res1 := rfl
@[simp] theorem State.setVec_cmd (s : State) (j : Nat) (v : Word) : (s.setVec j v).cmd = s.cmd := rfl
@[simp] theorem State.setVec_status (s : State) (j : Nat) (v : Word) : (s.setVec j v).status = s.status := rfl
@[simp] theorem State.setVec_phase (s : State) (j : Nat) (v : Word) : (s.setVec j v).phase = s.phase := rfl
@[simp] theorem State.setVec_lop (s : State) (j : Nat) (v : Word) : (s.setVec j v).lop = s.lop := rfl
@[simp] theorem State.setVec_lcmd (s : State) (j : Nat) (v : Word) : (s.setVec j v).lcmd = s.lcmd := rfl
@[simp] theorem State.setVec_l0 (s : State) (j : Nat) (v : Word) : (s.setVec j v).l0 = s.l0 := rfl
@[simp] theorem State.setVec_l1 (s : State) (j : Nat) (v : Word) : (s.setVec j v).l1 = s.l1 := rfl
@[simp] theorem State.setVec_l2 (s : State) (j : Nat) (v : Word) : (s.setVec j v).l2 = s.l2 := rfl
@[simp] theorem State.setVec_l3 (s : State) (j : Nat) (v : Word) : (s.setVec j v).l3 = s.l3 := rfl
@[simp] theorem State.setVec_mem (s : State) (j : Nat) (v : Word) :
    (s.setVec j v).mem = Memory.writeWord s.mem (vecOffset j) v := rfl
@[simp] theorem State.setVec_rowPrev (s : State) (j : Nat) (v : Word) : (s.setVec j v).rowPrev = s.rowPrev := rfl
@[simp] theorem State.setVec_rowCur (s : State) (j : Nat) (v : Word) : (s.setVec j v).rowCur = s.rowCur := rfl
@[simp] theorem State.setVec_unrank (s : State) (j : Nat) (v : Word) : (s.setVec j v).unrank = s.unrank := rfl
@[simp] theorem State.setVec_request (s : State) (j : Nat) (v : Word) : (s.setVec j v).request = s.request := rfl
@[simp] theorem State.setVec_answer (s : State) (j : Nat) (v : Word) : (s.setVec j v).answer = s.answer := rfl
@[simp] theorem State.setVec_faults (s : State) (j : Nat) (v : Word) : (s.setVec j v).faults = s.faults := rfl
@[simp] theorem State.setVec_agenda (s : State) (j : Nat) (v : Word) : (s.setVec j v).agenda = s.agenda := rfl
@[simp] theorem State.setVec_rdata (s : State) (j : Nat) (v : Word) : (s.setVec j v).rdata = s.rdata := rfl
@[simp] theorem State.setVec_draws (s : State) (j : Nat) (v : Word) : (s.setVec j v).draws = s.draws := rfl

/-! ### setVecFrom0 -/

@[simp] theorem State.setVecFrom0_params (s : State) (vs : List Word) : (s.setVecFrom0 vs).params = s.params := rfl
@[simp] theorem State.setVecFrom0_arg0 (s : State) (vs : List Word) : (s.setVecFrom0 vs).arg0 = s.arg0 := rfl
@[simp] theorem State.setVecFrom0_arg1 (s : State) (vs : List Word) : (s.setVecFrom0 vs).arg1 = s.arg1 := rfl
@[simp] theorem State.setVecFrom0_arg2 (s : State) (vs : List Word) : (s.setVecFrom0 vs).arg2 = s.arg2 := rfl
@[simp] theorem State.setVecFrom0_arg3 (s : State) (vs : List Word) : (s.setVecFrom0 vs).arg3 = s.arg3 := rfl
@[simp] theorem State.setVecFrom0_res0 (s : State) (vs : List Word) : (s.setVecFrom0 vs).res0 = s.res0 := rfl
@[simp] theorem State.setVecFrom0_res1 (s : State) (vs : List Word) : (s.setVecFrom0 vs).res1 = s.res1 := rfl
@[simp] theorem State.setVecFrom0_cmd (s : State) (vs : List Word) : (s.setVecFrom0 vs).cmd = s.cmd := rfl
@[simp] theorem State.setVecFrom0_status (s : State) (vs : List Word) : (s.setVecFrom0 vs).status = s.status := rfl
@[simp] theorem State.setVecFrom0_phase (s : State) (vs : List Word) : (s.setVecFrom0 vs).phase = s.phase := rfl
@[simp] theorem State.setVecFrom0_lop (s : State) (vs : List Word) : (s.setVecFrom0 vs).lop = s.lop := rfl
@[simp] theorem State.setVecFrom0_lcmd (s : State) (vs : List Word) : (s.setVecFrom0 vs).lcmd = s.lcmd := rfl
@[simp] theorem State.setVecFrom0_l0 (s : State) (vs : List Word) : (s.setVecFrom0 vs).l0 = s.l0 := rfl
@[simp] theorem State.setVecFrom0_l1 (s : State) (vs : List Word) : (s.setVecFrom0 vs).l1 = s.l1 := rfl
@[simp] theorem State.setVecFrom0_l2 (s : State) (vs : List Word) : (s.setVecFrom0 vs).l2 = s.l2 := rfl
@[simp] theorem State.setVecFrom0_l3 (s : State) (vs : List Word) : (s.setVecFrom0 vs).l3 = s.l3 := rfl
@[simp] theorem State.setVecFrom0_mem (s : State) (vs : List Word) :
    (s.setVecFrom0 vs).mem = Memory.writeWords s.mem (vecOffset 0) vs := rfl
@[simp] theorem State.setVecFrom0_rowPrev (s : State) (vs : List Word) : (s.setVecFrom0 vs).rowPrev = s.rowPrev := rfl
@[simp] theorem State.setVecFrom0_rowCur (s : State) (vs : List Word) : (s.setVecFrom0 vs).rowCur = s.rowCur := rfl
@[simp] theorem State.setVecFrom0_unrank (s : State) (vs : List Word) : (s.setVecFrom0 vs).unrank = s.unrank := rfl
@[simp] theorem State.setVecFrom0_request (s : State) (vs : List Word) : (s.setVecFrom0 vs).request = s.request := rfl
@[simp] theorem State.setVecFrom0_answer (s : State) (vs : List Word) : (s.setVecFrom0 vs).answer = s.answer := rfl
@[simp] theorem State.setVecFrom0_faults (s : State) (vs : List Word) : (s.setVecFrom0 vs).faults = s.faults := rfl
@[simp] theorem State.setVecFrom0_agenda (s : State) (vs : List Word) : (s.setVecFrom0 vs).agenda = s.agenda := rfl
@[simp] theorem State.setVecFrom0_rdata (s : State) (vs : List Word) : (s.setVecFrom0 vs).rdata = s.rdata := rfl
@[simp] theorem State.setVecFrom0_draws (s : State) (vs : List Word) : (s.setVecFrom0 vs).draws = s.draws := rfl

/-! ### drawn -/

@[simp] theorem State.drawn_params (s : State) : (s.drawn).params = s.params := rfl
@[simp] theorem State.drawn_arg0 (s : State) : (s.drawn).arg0 = s.arg0 := rfl
@[simp] theorem State.drawn_arg1 (s : State) : (s.drawn).arg1 = s.arg1 := rfl
@[simp] theorem State.drawn_arg2 (s : State) : (s.drawn).arg2 = s.arg2 := rfl
@[simp] theorem State.drawn_arg3 (s : State) : (s.drawn).arg3 = s.arg3 := rfl
@[simp] theorem State.drawn_res0 (s : State) : (s.drawn).res0 = s.res0 := rfl
@[simp] theorem State.drawn_res1 (s : State) : (s.drawn).res1 = s.res1 := rfl
@[simp] theorem State.drawn_cmd (s : State) : (s.drawn).cmd = s.cmd := rfl
@[simp] theorem State.drawn_status (s : State) : (s.drawn).status = s.status := rfl
@[simp] theorem State.drawn_phase (s : State) : (s.drawn).phase = s.phase := rfl
@[simp] theorem State.drawn_lop (s : State) : (s.drawn).lop = s.lop := rfl
@[simp] theorem State.drawn_lcmd (s : State) : (s.drawn).lcmd = s.lcmd := rfl
@[simp] theorem State.drawn_l0 (s : State) : (s.drawn).l0 = s.l0 := rfl
@[simp] theorem State.drawn_l1 (s : State) : (s.drawn).l1 = s.l1 := rfl
@[simp] theorem State.drawn_l2 (s : State) : (s.drawn).l2 = s.l2 := rfl
@[simp] theorem State.drawn_l3 (s : State) : (s.drawn).l3 = s.l3 := rfl
@[simp] theorem State.drawn_mem (s : State) : (s.drawn).mem = s.mem := rfl
@[simp] theorem State.drawn_rowPrev (s : State) : (s.drawn).rowPrev = s.rowPrev := rfl
@[simp] theorem State.drawn_rowCur (s : State) : (s.drawn).rowCur = s.rowCur := rfl
@[simp] theorem State.drawn_unrank (s : State) : (s.drawn).unrank = s.unrank := rfl
@[simp] theorem State.drawn_request (s : State) : (s.drawn).request = s.request := rfl
@[simp] theorem State.drawn_answer (s : State) : (s.drawn).answer = s.answer := rfl
@[simp] theorem State.drawn_faults (s : State) : (s.drawn).faults = s.faults := rfl
@[simp] theorem State.drawn_agenda (s : State) : (s.drawn).agenda = s.agenda := rfl
@[simp] theorem State.drawn_rdata (s : State) : (s.drawn).rdata = s.rdata := rfl
@[simp] theorem State.drawn_draws (s : State) : (s.drawn).draws = s.draws + 1 := rfl

/-! ### recordBadAccess -/

@[simp] theorem State.recordBadAccess_params (s : State) : (s.recordBadAccess).params = s.params := rfl
@[simp] theorem State.recordBadAccess_arg0 (s : State) : (s.recordBadAccess).arg0 = s.arg0 := rfl
@[simp] theorem State.recordBadAccess_arg1 (s : State) : (s.recordBadAccess).arg1 = s.arg1 := rfl
@[simp] theorem State.recordBadAccess_arg2 (s : State) : (s.recordBadAccess).arg2 = s.arg2 := rfl
@[simp] theorem State.recordBadAccess_arg3 (s : State) : (s.recordBadAccess).arg3 = s.arg3 := rfl
@[simp] theorem State.recordBadAccess_res0 (s : State) : (s.recordBadAccess).res0 = s.res0 := rfl
@[simp] theorem State.recordBadAccess_res1 (s : State) : (s.recordBadAccess).res1 = s.res1 := rfl
@[simp] theorem State.recordBadAccess_cmd (s : State) : (s.recordBadAccess).cmd = s.cmd := rfl
@[simp] theorem State.recordBadAccess_status (s : State) : (s.recordBadAccess).status = s.status := rfl
@[simp] theorem State.recordBadAccess_phase (s : State) : (s.recordBadAccess).phase = s.phase := rfl
@[simp] theorem State.recordBadAccess_lop (s : State) : (s.recordBadAccess).lop = s.lop := rfl
@[simp] theorem State.recordBadAccess_lcmd (s : State) : (s.recordBadAccess).lcmd = s.lcmd := rfl
@[simp] theorem State.recordBadAccess_l0 (s : State) : (s.recordBadAccess).l0 = s.l0 := rfl
@[simp] theorem State.recordBadAccess_l1 (s : State) : (s.recordBadAccess).l1 = s.l1 := rfl
@[simp] theorem State.recordBadAccess_l2 (s : State) : (s.recordBadAccess).l2 = s.l2 := rfl
@[simp] theorem State.recordBadAccess_l3 (s : State) : (s.recordBadAccess).l3 = s.l3 := rfl
@[simp] theorem State.recordBadAccess_mem (s : State) : (s.recordBadAccess).mem = s.mem := rfl
@[simp] theorem State.recordBadAccess_rowPrev (s : State) : (s.recordBadAccess).rowPrev = s.rowPrev := rfl
@[simp] theorem State.recordBadAccess_rowCur (s : State) : (s.recordBadAccess).rowCur = s.rowCur := rfl
@[simp] theorem State.recordBadAccess_unrank (s : State) : (s.recordBadAccess).unrank = s.unrank := rfl
@[simp] theorem State.recordBadAccess_request (s : State) : (s.recordBadAccess).request = s.request := rfl
@[simp] theorem State.recordBadAccess_answer (s : State) : (s.recordBadAccess).answer = s.answer := rfl
@[simp] theorem State.recordBadAccess_faults (s : State) :
    (s.recordBadAccess).faults = { s.faults with badAccess := true } := rfl
@[simp] theorem State.recordBadAccess_agenda (s : State) : (s.recordBadAccess).agenda = s.agenda := rfl
@[simp] theorem State.recordBadAccess_rdata (s : State) : (s.recordBadAccess).rdata = s.rdata := rfl
@[simp] theorem State.recordBadAccess_draws (s : State) : (s.recordBadAccess).draws = s.draws := rfl

/-! ### recordUnwrittenVec -/

@[simp] theorem State.recordUnwrittenVec_params (s : State) : (s.recordUnwrittenVec).params = s.params := rfl
@[simp] theorem State.recordUnwrittenVec_arg0 (s : State) : (s.recordUnwrittenVec).arg0 = s.arg0 := rfl
@[simp] theorem State.recordUnwrittenVec_arg1 (s : State) : (s.recordUnwrittenVec).arg1 = s.arg1 := rfl
@[simp] theorem State.recordUnwrittenVec_arg2 (s : State) : (s.recordUnwrittenVec).arg2 = s.arg2 := rfl
@[simp] theorem State.recordUnwrittenVec_arg3 (s : State) : (s.recordUnwrittenVec).arg3 = s.arg3 := rfl
@[simp] theorem State.recordUnwrittenVec_res0 (s : State) : (s.recordUnwrittenVec).res0 = s.res0 := rfl
@[simp] theorem State.recordUnwrittenVec_res1 (s : State) : (s.recordUnwrittenVec).res1 = s.res1 := rfl
@[simp] theorem State.recordUnwrittenVec_cmd (s : State) : (s.recordUnwrittenVec).cmd = s.cmd := rfl
@[simp] theorem State.recordUnwrittenVec_status (s : State) : (s.recordUnwrittenVec).status = s.status := rfl
@[simp] theorem State.recordUnwrittenVec_phase (s : State) : (s.recordUnwrittenVec).phase = s.phase := rfl
@[simp] theorem State.recordUnwrittenVec_lop (s : State) : (s.recordUnwrittenVec).lop = s.lop := rfl
@[simp] theorem State.recordUnwrittenVec_lcmd (s : State) : (s.recordUnwrittenVec).lcmd = s.lcmd := rfl
@[simp] theorem State.recordUnwrittenVec_l0 (s : State) : (s.recordUnwrittenVec).l0 = s.l0 := rfl
@[simp] theorem State.recordUnwrittenVec_l1 (s : State) : (s.recordUnwrittenVec).l1 = s.l1 := rfl
@[simp] theorem State.recordUnwrittenVec_l2 (s : State) : (s.recordUnwrittenVec).l2 = s.l2 := rfl
@[simp] theorem State.recordUnwrittenVec_l3 (s : State) : (s.recordUnwrittenVec).l3 = s.l3 := rfl
@[simp] theorem State.recordUnwrittenVec_mem (s : State) : (s.recordUnwrittenVec).mem = s.mem := rfl
@[simp] theorem State.recordUnwrittenVec_rowPrev (s : State) : (s.recordUnwrittenVec).rowPrev = s.rowPrev := rfl
@[simp] theorem State.recordUnwrittenVec_rowCur (s : State) : (s.recordUnwrittenVec).rowCur = s.rowCur := rfl
@[simp] theorem State.recordUnwrittenVec_unrank (s : State) : (s.recordUnwrittenVec).unrank = s.unrank := rfl
@[simp] theorem State.recordUnwrittenVec_request (s : State) : (s.recordUnwrittenVec).request = s.request := rfl
@[simp] theorem State.recordUnwrittenVec_answer (s : State) : (s.recordUnwrittenVec).answer = s.answer := rfl
@[simp] theorem State.recordUnwrittenVec_faults (s : State) :
    (s.recordUnwrittenVec).faults = { s.faults with unwrittenVec := true } := rfl
@[simp] theorem State.recordUnwrittenVec_agenda (s : State) : (s.recordUnwrittenVec).agenda = s.agenda := rfl
@[simp] theorem State.recordUnwrittenVec_rdata (s : State) : (s.recordUnwrittenVec).rdata = s.rdata := rfl
@[simp] theorem State.recordUnwrittenVec_draws (s : State) : (s.recordUnwrittenVec).draws = s.draws := rfl

/-! ### recordEntropyRange -/

@[simp] theorem State.recordEntropyRange_params (s : State) : (s.recordEntropyRange).params = s.params := rfl
@[simp] theorem State.recordEntropyRange_arg0 (s : State) : (s.recordEntropyRange).arg0 = s.arg0 := rfl
@[simp] theorem State.recordEntropyRange_arg1 (s : State) : (s.recordEntropyRange).arg1 = s.arg1 := rfl
@[simp] theorem State.recordEntropyRange_arg2 (s : State) : (s.recordEntropyRange).arg2 = s.arg2 := rfl
@[simp] theorem State.recordEntropyRange_arg3 (s : State) : (s.recordEntropyRange).arg3 = s.arg3 := rfl
@[simp] theorem State.recordEntropyRange_res0 (s : State) : (s.recordEntropyRange).res0 = s.res0 := rfl
@[simp] theorem State.recordEntropyRange_res1 (s : State) : (s.recordEntropyRange).res1 = s.res1 := rfl
@[simp] theorem State.recordEntropyRange_cmd (s : State) : (s.recordEntropyRange).cmd = s.cmd := rfl
@[simp] theorem State.recordEntropyRange_status (s : State) : (s.recordEntropyRange).status = s.status := rfl
@[simp] theorem State.recordEntropyRange_phase (s : State) : (s.recordEntropyRange).phase = s.phase := rfl
@[simp] theorem State.recordEntropyRange_lop (s : State) : (s.recordEntropyRange).lop = s.lop := rfl
@[simp] theorem State.recordEntropyRange_lcmd (s : State) : (s.recordEntropyRange).lcmd = s.lcmd := rfl
@[simp] theorem State.recordEntropyRange_l0 (s : State) : (s.recordEntropyRange).l0 = s.l0 := rfl
@[simp] theorem State.recordEntropyRange_l1 (s : State) : (s.recordEntropyRange).l1 = s.l1 := rfl
@[simp] theorem State.recordEntropyRange_l2 (s : State) : (s.recordEntropyRange).l2 = s.l2 := rfl
@[simp] theorem State.recordEntropyRange_l3 (s : State) : (s.recordEntropyRange).l3 = s.l3 := rfl
@[simp] theorem State.recordEntropyRange_mem (s : State) : (s.recordEntropyRange).mem = s.mem := rfl
@[simp] theorem State.recordEntropyRange_rowPrev (s : State) : (s.recordEntropyRange).rowPrev = s.rowPrev := rfl
@[simp] theorem State.recordEntropyRange_rowCur (s : State) : (s.recordEntropyRange).rowCur = s.rowCur := rfl
@[simp] theorem State.recordEntropyRange_unrank (s : State) : (s.recordEntropyRange).unrank = s.unrank := rfl
@[simp] theorem State.recordEntropyRange_request (s : State) : (s.recordEntropyRange).request = s.request := rfl
@[simp] theorem State.recordEntropyRange_answer (s : State) : (s.recordEntropyRange).answer = s.answer := rfl
@[simp] theorem State.recordEntropyRange_faults (s : State) :
    (s.recordEntropyRange).faults = { s.faults with entropyRange := true } := rfl
@[simp] theorem State.recordEntropyRange_agenda (s : State) : (s.recordEntropyRange).agenda = s.agenda := rfl
@[simp] theorem State.recordEntropyRange_rdata (s : State) : (s.recordEntropyRange).rdata = s.rdata := rfl
@[simp] theorem State.recordEntropyRange_draws (s : State) : (s.recordEntropyRange).draws = s.draws := rfl

/-! ### accept -/

@[simp] theorem State.accept_params (s : State) (w : Word) : (s.accept w).params = s.params := rfl
@[simp] theorem State.accept_arg0 (s : State) (w : Word) : (s.accept w).arg0 = s.arg0 := rfl
@[simp] theorem State.accept_arg1 (s : State) (w : Word) : (s.accept w).arg1 = s.arg1 := rfl
@[simp] theorem State.accept_arg2 (s : State) (w : Word) : (s.accept w).arg2 = s.arg2 := rfl
@[simp] theorem State.accept_arg3 (s : State) (w : Word) : (s.accept w).arg3 = s.arg3 := rfl
@[simp] theorem State.accept_res0 (s : State) (w : Word) : (s.accept w).res0 = s.res0 := rfl
@[simp] theorem State.accept_res1 (s : State) (w : Word) : (s.accept w).res1 = s.res1 := rfl
@[simp] theorem State.accept_cmd (s : State) (w : Word) : (s.accept w).cmd = w := rfl
@[simp] theorem State.accept_status (s : State) (w : Word) : (s.accept w).status = s.status.accept := rfl
@[simp] theorem State.accept_phase (s : State) (w : Word) : (s.accept w).phase = .exec := rfl
@[simp] theorem State.accept_lop (s : State) (w : Word) : (s.accept w).lop = latchOp w := rfl
@[simp] theorem State.accept_lcmd (s : State) (w : Word) : (s.accept w).lcmd = w := rfl
@[simp] theorem State.accept_l0 (s : State) (w : Word) : (s.accept w).l0 = s.arg0 := rfl
@[simp] theorem State.accept_l1 (s : State) (w : Word) : (s.accept w).l1 = s.arg1 := rfl
@[simp] theorem State.accept_l2 (s : State) (w : Word) : (s.accept w).l2 = s.arg2 := rfl
@[simp] theorem State.accept_l3 (s : State) (w : Word) : (s.accept w).l3 = s.arg3 := rfl
@[simp] theorem State.accept_mem (s : State) (w : Word) : (s.accept w).mem = s.mem := rfl
@[simp] theorem State.accept_rowPrev (s : State) (w : Word) : (s.accept w).rowPrev = s.rowPrev := rfl
@[simp] theorem State.accept_rowCur (s : State) (w : Word) : (s.accept w).rowCur = s.rowCur := rfl
@[simp] theorem State.accept_unrank (s : State) (w : Word) : (s.accept w).unrank = s.unrank := rfl
@[simp] theorem State.accept_request (s : State) (w : Word) : (s.accept w).request = s.request := rfl
@[simp] theorem State.accept_answer (s : State) (w : Word) : (s.accept w).answer = s.answer := rfl
@[simp] theorem State.accept_faults (s : State) (w : Word) : (s.accept w).faults = s.faults := rfl
@[simp] theorem State.accept_agenda (s : State) (w : Word) : (s.accept w).agenda = s.agenda := rfl
@[simp] theorem State.accept_rdata (s : State) (w : Word) : (s.accept w).rdata = s.rdata := rfl
@[simp] theorem State.accept_draws (s : State) (w : Word) : (s.accept w).draws = s.draws := rfl

/-! ### sweep -/

@[simp] theorem State.sweep_params (s : State) (N K : Nat) : (s.sweep N K).params = s.params := rfl
@[simp] theorem State.sweep_arg0 (s : State) (N K : Nat) : (s.sweep N K).arg0 = s.arg0 := rfl
@[simp] theorem State.sweep_arg1 (s : State) (N K : Nat) : (s.sweep N K).arg1 = s.arg1 := rfl
@[simp] theorem State.sweep_arg2 (s : State) (N K : Nat) : (s.sweep N K).arg2 = s.arg2 := rfl
@[simp] theorem State.sweep_arg3 (s : State) (N K : Nat) : (s.sweep N K).arg3 = s.arg3 := rfl
@[simp] theorem State.sweep_res0 (s : State) (N K : Nat) : (s.sweep N K).res0 = s.res0 := rfl
@[simp] theorem State.sweep_res1 (s : State) (N K : Nat) : (s.sweep N K).res1 = s.res1 := rfl
@[simp] theorem State.sweep_cmd (s : State) (N K : Nat) : (s.sweep N K).cmd = s.cmd := rfl
@[simp] theorem State.sweep_status (s : State) (N K : Nat) : (s.sweep N K).status = s.status := rfl
@[simp] theorem State.sweep_phase (s : State) (N K : Nat) : (s.sweep N K).phase = s.phase := rfl
@[simp] theorem State.sweep_lop (s : State) (N K : Nat) : (s.sweep N K).lop = s.lop := rfl
@[simp] theorem State.sweep_lcmd (s : State) (N K : Nat) : (s.sweep N K).lcmd = s.lcmd := rfl
@[simp] theorem State.sweep_l0 (s : State) (N K : Nat) : (s.sweep N K).l0 = s.l0 := rfl
@[simp] theorem State.sweep_l1 (s : State) (N K : Nat) : (s.sweep N K).l1 = s.l1 := rfl
@[simp] theorem State.sweep_l2 (s : State) (N K : Nat) : (s.sweep N K).l2 = s.l2 := rfl
@[simp] theorem State.sweep_l3 (s : State) (N K : Nat) : (s.sweep N K).l3 = s.l3 := rfl
@[simp] theorem State.sweep_mem (s : State) (N K : Nat) : (s.sweep N K).mem = s.mem := rfl
@[simp] theorem State.sweep_rowPrev (s : State) (N K : Nat) :
    (s.sweep N K).rowPrev = (sweptRows K s.rowPrev s.rowCur N).1 := rfl
@[simp] theorem State.sweep_rowCur (s : State) (N K : Nat) :
    (s.sweep N K).rowCur = (sweptRows K s.rowPrev s.rowCur N).2 := rfl
@[simp] theorem State.sweep_unrank (s : State) (N K : Nat) : (s.sweep N K).unrank = s.unrank := rfl
@[simp] theorem State.sweep_request (s : State) (N K : Nat) : (s.sweep N K).request = s.request := rfl
@[simp] theorem State.sweep_answer (s : State) (N K : Nat) : (s.sweep N K).answer = s.answer := rfl
@[simp] theorem State.sweep_faults (s : State) (N K : Nat) : (s.sweep N K).faults = s.faults := rfl
@[simp] theorem State.sweep_agenda (s : State) (N K : Nat) : (s.sweep N K).agenda = s.agenda := rfl
@[simp] theorem State.sweep_rdata (s : State) (N K : Nat) : (s.sweep N K).rdata = s.rdata := rfl
@[simp] theorem State.sweep_draws (s : State) (N K : Nat) : (s.sweep N K).draws = s.draws := rfl

/-! ### scrambleRows -/

@[simp] theorem State.scrambleRows_params (s : State) : (s.scrambleRows).params = s.params := rfl
@[simp] theorem State.scrambleRows_arg0 (s : State) : (s.scrambleRows).arg0 = s.arg0 := rfl
@[simp] theorem State.scrambleRows_arg1 (s : State) : (s.scrambleRows).arg1 = s.arg1 := rfl
@[simp] theorem State.scrambleRows_arg2 (s : State) : (s.scrambleRows).arg2 = s.arg2 := rfl
@[simp] theorem State.scrambleRows_arg3 (s : State) : (s.scrambleRows).arg3 = s.arg3 := rfl
@[simp] theorem State.scrambleRows_res0 (s : State) : (s.scrambleRows).res0 = s.res0 := rfl
@[simp] theorem State.scrambleRows_res1 (s : State) : (s.scrambleRows).res1 = s.res1 := rfl
@[simp] theorem State.scrambleRows_cmd (s : State) : (s.scrambleRows).cmd = s.cmd := rfl
@[simp] theorem State.scrambleRows_status (s : State) : (s.scrambleRows).status = s.status := rfl
@[simp] theorem State.scrambleRows_phase (s : State) : (s.scrambleRows).phase = s.phase := rfl
@[simp] theorem State.scrambleRows_lop (s : State) : (s.scrambleRows).lop = s.lop := rfl
@[simp] theorem State.scrambleRows_lcmd (s : State) : (s.scrambleRows).lcmd = s.lcmd := rfl
@[simp] theorem State.scrambleRows_l0 (s : State) : (s.scrambleRows).l0 = s.l0 := rfl
@[simp] theorem State.scrambleRows_l1 (s : State) : (s.scrambleRows).l1 = s.l1 := rfl
@[simp] theorem State.scrambleRows_l2 (s : State) : (s.scrambleRows).l2 = s.l2 := rfl
@[simp] theorem State.scrambleRows_l3 (s : State) : (s.scrambleRows).l3 = s.l3 := rfl
@[simp] theorem State.scrambleRows_mem (s : State) : (s.scrambleRows).mem = s.mem := rfl
@[simp] theorem State.scrambleRows_rowPrev (s : State) :
    (s.scrambleRows).rowPrev = s.freeWords (s.params.kmax + 1) := rfl
@[simp] theorem State.scrambleRows_rowCur (s : State) :
    (s.scrambleRows).rowCur = s.drawn.freeWords (s.params.kmax + 1) := rfl
@[simp] theorem State.scrambleRows_unrank (s : State) : (s.scrambleRows).unrank = s.unrank := rfl
@[simp] theorem State.scrambleRows_request (s : State) : (s.scrambleRows).request = s.request := rfl
@[simp] theorem State.scrambleRows_answer (s : State) : (s.scrambleRows).answer = s.answer := rfl
@[simp] theorem State.scrambleRows_faults (s : State) : (s.scrambleRows).faults = s.faults := rfl
@[simp] theorem State.scrambleRows_agenda (s : State) : (s.scrambleRows).agenda = s.agenda := rfl
@[simp] theorem State.scrambleRows_rdata (s : State) : (s.scrambleRows).rdata = s.rdata := rfl
@[simp] theorem State.scrambleRows_draws (s : State) : (s.scrambleRows).draws = s.draws + 2 := rfl

/-! ### setUnrank -/

@[simp] theorem State.setUnrank_params (s : State) (w : UnrankWork) : (s.setUnrank w).params = s.params := rfl
@[simp] theorem State.setUnrank_arg0 (s : State) (w : UnrankWork) : (s.setUnrank w).arg0 = s.arg0 := rfl
@[simp] theorem State.setUnrank_arg1 (s : State) (w : UnrankWork) : (s.setUnrank w).arg1 = s.arg1 := rfl
@[simp] theorem State.setUnrank_arg2 (s : State) (w : UnrankWork) : (s.setUnrank w).arg2 = s.arg2 := rfl
@[simp] theorem State.setUnrank_arg3 (s : State) (w : UnrankWork) : (s.setUnrank w).arg3 = s.arg3 := rfl
@[simp] theorem State.setUnrank_res0 (s : State) (w : UnrankWork) : (s.setUnrank w).res0 = s.res0 := rfl
@[simp] theorem State.setUnrank_res1 (s : State) (w : UnrankWork) : (s.setUnrank w).res1 = s.res1 := rfl
@[simp] theorem State.setUnrank_cmd (s : State) (w : UnrankWork) : (s.setUnrank w).cmd = s.cmd := rfl
@[simp] theorem State.setUnrank_status (s : State) (w : UnrankWork) : (s.setUnrank w).status = s.status := rfl
@[simp] theorem State.setUnrank_phase (s : State) (w : UnrankWork) : (s.setUnrank w).phase = s.phase := rfl
@[simp] theorem State.setUnrank_lop (s : State) (w : UnrankWork) : (s.setUnrank w).lop = s.lop := rfl
@[simp] theorem State.setUnrank_lcmd (s : State) (w : UnrankWork) : (s.setUnrank w).lcmd = s.lcmd := rfl
@[simp] theorem State.setUnrank_l0 (s : State) (w : UnrankWork) : (s.setUnrank w).l0 = s.l0 := rfl
@[simp] theorem State.setUnrank_l1 (s : State) (w : UnrankWork) : (s.setUnrank w).l1 = s.l1 := rfl
@[simp] theorem State.setUnrank_l2 (s : State) (w : UnrankWork) : (s.setUnrank w).l2 = s.l2 := rfl
@[simp] theorem State.setUnrank_l3 (s : State) (w : UnrankWork) : (s.setUnrank w).l3 = s.l3 := rfl
@[simp] theorem State.setUnrank_mem (s : State) (w : UnrankWork) : (s.setUnrank w).mem = s.mem := rfl
@[simp] theorem State.setUnrank_rowPrev (s : State) (w : UnrankWork) : (s.setUnrank w).rowPrev = s.rowPrev := rfl
@[simp] theorem State.setUnrank_rowCur (s : State) (w : UnrankWork) : (s.setUnrank w).rowCur = s.rowCur := rfl
@[simp] theorem State.setUnrank_unrank (s : State) (w : UnrankWork) :
    (s.setUnrank w).unrank = { i := wordOfNat w.i, k := wordOfNat w.k, j := wordOfNat w.j, neg := w.neg, p := wordOfNat w.p } :=
  rfl
@[simp] theorem State.setUnrank_request (s : State) (w : UnrankWork) : (s.setUnrank w).request = s.request := rfl
@[simp] theorem State.setUnrank_answer (s : State) (w : UnrankWork) : (s.setUnrank w).answer = s.answer := rfl
@[simp] theorem State.setUnrank_faults (s : State) (w : UnrankWork) : (s.setUnrank w).faults = s.faults := rfl
@[simp] theorem State.setUnrank_agenda (s : State) (w : UnrankWork) : (s.setUnrank w).agenda = s.agenda := rfl
@[simp] theorem State.setUnrank_rdata (s : State) (w : UnrankWork) : (s.setUnrank w).rdata = s.rdata := rfl
@[simp] theorem State.setUnrank_draws (s : State) (w : UnrankWork) : (s.setUnrank w).draws = s.draws := rfl

/-! ### postRequest -/

@[simp] theorem State.postRequest_params (s : State) (ft : Word) : (s.postRequest ft).params = s.params := rfl
@[simp] theorem State.postRequest_arg0 (s : State) (ft : Word) : (s.postRequest ft).arg0 = s.arg0 := rfl
@[simp] theorem State.postRequest_arg1 (s : State) (ft : Word) : (s.postRequest ft).arg1 = s.arg1 := rfl
@[simp] theorem State.postRequest_arg2 (s : State) (ft : Word) : (s.postRequest ft).arg2 = s.arg2 := rfl
@[simp] theorem State.postRequest_arg3 (s : State) (ft : Word) : (s.postRequest ft).arg3 = s.arg3 := rfl
@[simp] theorem State.postRequest_res0 (s : State) (ft : Word) : (s.postRequest ft).res0 = s.res0 := rfl
@[simp] theorem State.postRequest_res1 (s : State) (ft : Word) : (s.postRequest ft).res1 = s.res1 := rfl
@[simp] theorem State.postRequest_cmd (s : State) (ft : Word) : (s.postRequest ft).cmd = s.cmd := rfl
@[simp] theorem State.postRequest_status (s : State) (ft : Word) : (s.postRequest ft).status = s.status := rfl
@[simp] theorem State.postRequest_phase (s : State) (ft : Word) : (s.postRequest ft).phase = .waitEnt ft := rfl
@[simp] theorem State.postRequest_lop (s : State) (ft : Word) : (s.postRequest ft).lop = s.lop := rfl
@[simp] theorem State.postRequest_lcmd (s : State) (ft : Word) : (s.postRequest ft).lcmd = s.lcmd := rfl
@[simp] theorem State.postRequest_l0 (s : State) (ft : Word) : (s.postRequest ft).l0 = s.l0 := rfl
@[simp] theorem State.postRequest_l1 (s : State) (ft : Word) : (s.postRequest ft).l1 = s.l1 := rfl
@[simp] theorem State.postRequest_l2 (s : State) (ft : Word) : (s.postRequest ft).l2 = s.l2 := rfl
@[simp] theorem State.postRequest_l3 (s : State) (ft : Word) : (s.postRequest ft).l3 = s.l3 := rfl
@[simp] theorem State.postRequest_mem (s : State) (ft : Word) : (s.postRequest ft).mem = s.mem := rfl
@[simp] theorem State.postRequest_rowPrev (s : State) (ft : Word) : (s.postRequest ft).rowPrev = s.rowPrev := rfl
@[simp] theorem State.postRequest_rowCur (s : State) (ft : Word) : (s.postRequest ft).rowCur = s.rowCur := rfl
@[simp] theorem State.postRequest_unrank (s : State) (ft : Word) : (s.postRequest ft).unrank = s.unrank := rfl
@[simp] theorem State.postRequest_request (s : State) (ft : Word) : (s.postRequest ft).request = some ft := rfl
@[simp] theorem State.postRequest_answer (s : State) (ft : Word) : (s.postRequest ft).answer = s.answer := rfl
@[simp] theorem State.postRequest_faults (s : State) (ft : Word) : (s.postRequest ft).faults = s.faults := rfl
@[simp] theorem State.postRequest_agenda (s : State) (ft : Word) : (s.postRequest ft).agenda = s.agenda := rfl
@[simp] theorem State.postRequest_rdata (s : State) (ft : Word) : (s.postRequest ft).rdata = s.rdata := rfl
@[simp] theorem State.postRequest_draws (s : State) (ft : Word) : (s.postRequest ft).draws = s.draws := rfl

/-! ### takeAnswer -/

@[simp] theorem State.takeAnswer_params (s : State) : (s.takeAnswer).params = s.params := rfl
@[simp] theorem State.takeAnswer_arg0 (s : State) : (s.takeAnswer).arg0 = s.arg0 := rfl
@[simp] theorem State.takeAnswer_arg1 (s : State) : (s.takeAnswer).arg1 = s.arg1 := rfl
@[simp] theorem State.takeAnswer_arg2 (s : State) : (s.takeAnswer).arg2 = s.arg2 := rfl
@[simp] theorem State.takeAnswer_arg3 (s : State) : (s.takeAnswer).arg3 = s.arg3 := rfl
@[simp] theorem State.takeAnswer_res0 (s : State) : (s.takeAnswer).res0 = s.res0 := rfl
@[simp] theorem State.takeAnswer_res1 (s : State) : (s.takeAnswer).res1 = s.res1 := rfl
@[simp] theorem State.takeAnswer_cmd (s : State) : (s.takeAnswer).cmd = s.cmd := rfl
@[simp] theorem State.takeAnswer_status (s : State) : (s.takeAnswer).status = s.status := rfl
@[simp] theorem State.takeAnswer_phase (s : State) : (s.takeAnswer).phase = s.phase := rfl
@[simp] theorem State.takeAnswer_lop (s : State) : (s.takeAnswer).lop = s.lop := rfl
@[simp] theorem State.takeAnswer_lcmd (s : State) : (s.takeAnswer).lcmd = s.lcmd := rfl
@[simp] theorem State.takeAnswer_l0 (s : State) : (s.takeAnswer).l0 = s.l0 := rfl
@[simp] theorem State.takeAnswer_l1 (s : State) : (s.takeAnswer).l1 = s.l1 := rfl
@[simp] theorem State.takeAnswer_l2 (s : State) : (s.takeAnswer).l2 = s.l2 := rfl
@[simp] theorem State.takeAnswer_l3 (s : State) : (s.takeAnswer).l3 = s.l3 := rfl
@[simp] theorem State.takeAnswer_mem (s : State) : (s.takeAnswer).mem = s.mem := rfl
@[simp] theorem State.takeAnswer_rowPrev (s : State) : (s.takeAnswer).rowPrev = s.rowPrev := rfl
@[simp] theorem State.takeAnswer_rowCur (s : State) : (s.takeAnswer).rowCur = s.rowCur := rfl
@[simp] theorem State.takeAnswer_unrank (s : State) : (s.takeAnswer).unrank = s.unrank := rfl
@[simp] theorem State.takeAnswer_request (s : State) : (s.takeAnswer).request = s.request := rfl
@[simp] theorem State.takeAnswer_answer (s : State) : (s.takeAnswer).answer = none := rfl
@[simp] theorem State.takeAnswer_faults (s : State) : (s.takeAnswer).faults = s.faults := rfl
@[simp] theorem State.takeAnswer_agenda (s : State) : (s.takeAnswer).agenda = s.agenda := rfl
@[simp] theorem State.takeAnswer_rdata (s : State) : (s.takeAnswer).rdata = s.rdata := rfl
@[simp] theorem State.takeAnswer_draws (s : State) : (s.takeAnswer).draws = s.draws := rfl

/-! ### breakEntropy -/

@[simp] theorem State.breakEntropy_params (s : State) (ft : Word) : (s.breakEntropy ft).params = s.params := rfl
@[simp] theorem State.breakEntropy_arg0 (s : State) (ft : Word) : (s.breakEntropy ft).arg0 = s.arg0 := rfl
@[simp] theorem State.breakEntropy_arg1 (s : State) (ft : Word) : (s.breakEntropy ft).arg1 = s.arg1 := rfl
@[simp] theorem State.breakEntropy_arg2 (s : State) (ft : Word) : (s.breakEntropy ft).arg2 = s.arg2 := rfl
@[simp] theorem State.breakEntropy_arg3 (s : State) (ft : Word) : (s.breakEntropy ft).arg3 = s.arg3 := rfl
@[simp] theorem State.breakEntropy_res0 (s : State) (ft : Word) : (s.breakEntropy ft).res0 = s.res0 := rfl
@[simp] theorem State.breakEntropy_res1 (s : State) (ft : Word) : (s.breakEntropy ft).res1 = s.res1 := rfl
@[simp] theorem State.breakEntropy_cmd (s : State) (ft : Word) : (s.breakEntropy ft).cmd = s.cmd := rfl
@[simp] theorem State.breakEntropy_status (s : State) (ft : Word) : (s.breakEntropy ft).status = s.status := rfl
@[simp] theorem State.breakEntropy_phase (s : State) (ft : Word) : (s.breakEntropy ft).phase = .waitEnt ft := rfl
@[simp] theorem State.breakEntropy_lop (s : State) (ft : Word) : (s.breakEntropy ft).lop = s.lop := rfl
@[simp] theorem State.breakEntropy_lcmd (s : State) (ft : Word) : (s.breakEntropy ft).lcmd = s.lcmd := rfl
@[simp] theorem State.breakEntropy_l0 (s : State) (ft : Word) : (s.breakEntropy ft).l0 = s.l0 := rfl
@[simp] theorem State.breakEntropy_l1 (s : State) (ft : Word) : (s.breakEntropy ft).l1 = s.l1 := rfl
@[simp] theorem State.breakEntropy_l2 (s : State) (ft : Word) : (s.breakEntropy ft).l2 = s.l2 := rfl
@[simp] theorem State.breakEntropy_l3 (s : State) (ft : Word) : (s.breakEntropy ft).l3 = s.l3 := rfl
@[simp] theorem State.breakEntropy_mem (s : State) (ft : Word) : (s.breakEntropy ft).mem = s.mem := rfl
@[simp] theorem State.breakEntropy_rowPrev (s : State) (ft : Word) : (s.breakEntropy ft).rowPrev = s.rowPrev := rfl
@[simp] theorem State.breakEntropy_rowCur (s : State) (ft : Word) : (s.breakEntropy ft).rowCur = s.rowCur := rfl
@[simp] theorem State.breakEntropy_unrank (s : State) (ft : Word) : (s.breakEntropy ft).unrank = s.unrank := rfl
@[simp] theorem State.breakEntropy_request (s : State) (ft : Word) : (s.breakEntropy ft).request = none := rfl
@[simp] theorem State.breakEntropy_answer (s : State) (ft : Word) : (s.breakEntropy ft).answer = none := rfl
@[simp] theorem State.breakEntropy_faults (s : State) (ft : Word) :
    (s.breakEntropy ft).faults = { s.faults with entropyRange := true } := rfl
@[simp] theorem State.breakEntropy_agenda (s : State) (ft : Word) : (s.breakEntropy ft).agenda = s.agenda := rfl
@[simp] theorem State.breakEntropy_rdata (s : State) (ft : Word) : (s.breakEntropy ft).rdata = s.rdata := rfl
@[simp] theorem State.breakEntropy_draws (s : State) (ft : Word) : (s.breakEntropy ft).draws = s.draws := rfl

/-! ### placeCommand -/

@[simp] theorem State.placeCommand_params (s : State) (w : Word) : (s.placeCommand w).params = s.params := rfl
@[simp] theorem State.placeCommand_arg0 (s : State) (w : Word) : (s.placeCommand w).arg0 = s.arg0 := rfl
@[simp] theorem State.placeCommand_arg1 (s : State) (w : Word) : (s.placeCommand w).arg1 = s.arg1 := rfl
@[simp] theorem State.placeCommand_arg2 (s : State) (w : Word) : (s.placeCommand w).arg2 = s.arg2 := rfl
@[simp] theorem State.placeCommand_arg3 (s : State) (w : Word) : (s.placeCommand w).arg3 = s.arg3 := rfl
@[simp] theorem State.placeCommand_res0 (s : State) (w : Word) : (s.placeCommand w).res0 = s.res0 := rfl
@[simp] theorem State.placeCommand_res1 (s : State) (w : Word) : (s.placeCommand w).res1 = s.res1 := rfl
@[simp] theorem State.placeCommand_cmd (s : State) (w : Word) : (s.placeCommand w).cmd = w := rfl
@[simp] theorem State.placeCommand_status (s : State) (w : Word) : (s.placeCommand w).status = s.status.accept := rfl
@[simp] theorem State.placeCommand_phase (s : State) (w : Word) : (s.placeCommand w).phase = .exec := rfl
@[simp] theorem State.placeCommand_lop (s : State) (w : Word) : (s.placeCommand w).lop = latchOp w := rfl
@[simp] theorem State.placeCommand_lcmd (s : State) (w : Word) : (s.placeCommand w).lcmd = w := rfl
@[simp] theorem State.placeCommand_l0 (s : State) (w : Word) : (s.placeCommand w).l0 = s.arg0 := rfl
@[simp] theorem State.placeCommand_l1 (s : State) (w : Word) : (s.placeCommand w).l1 = s.arg1 := rfl
@[simp] theorem State.placeCommand_l2 (s : State) (w : Word) : (s.placeCommand w).l2 = s.arg2 := rfl
@[simp] theorem State.placeCommand_l3 (s : State) (w : Word) : (s.placeCommand w).l3 = s.arg3 := rfl
@[simp] theorem State.placeCommand_mem (s : State) (w : Word) : (s.placeCommand w).mem = s.mem := rfl
@[simp] theorem State.placeCommand_rowPrev (s : State) (w : Word) : (s.placeCommand w).rowPrev = s.rowPrev := rfl
@[simp] theorem State.placeCommand_rowCur (s : State) (w : Word) : (s.placeCommand w).rowCur = s.rowCur := rfl
@[simp] theorem State.placeCommand_unrank (s : State) (w : Word) : (s.placeCommand w).unrank = s.unrank := rfl
@[simp] theorem State.placeCommand_request (s : State) (w : Word) : (s.placeCommand w).request = none := rfl
@[simp] theorem State.placeCommand_answer (s : State) (w : Word) : (s.placeCommand w).answer = none := rfl
@[simp] theorem State.placeCommand_faults (s : State) (w : Word) : (s.placeCommand w).faults = s.faults := rfl
@[simp] theorem State.placeCommand_agenda (s : State) (w : Word) :
    (s.placeCommand w).agenda = .block :: s.agenda := rfl
@[simp] theorem State.placeCommand_rdata (s : State) (w : Word) : (s.placeCommand w).rdata = s.rdata := rfl
@[simp] theorem State.placeCommand_draws (s : State) (w : Word) : (s.placeCommand w).draws = s.draws := rfl

/-! ### hwReset -/

@[simp] theorem State.hwReset_params (s : State) : (s.hwReset).params = s.params := rfl
@[simp] theorem State.hwReset_arg0 (s : State) : (s.hwReset).arg0 = (State.resetWith s.params).arg0 := rfl
@[simp] theorem State.hwReset_arg1 (s : State) : (s.hwReset).arg1 = (State.resetWith s.params).arg1 := rfl
@[simp] theorem State.hwReset_arg2 (s : State) : (s.hwReset).arg2 = (State.resetWith s.params).arg2 := rfl
@[simp] theorem State.hwReset_arg3 (s : State) : (s.hwReset).arg3 = (State.resetWith s.params).arg3 := rfl
@[simp] theorem State.hwReset_res0 (s : State) : (s.hwReset).res0 = (State.resetWith s.params).res0 := rfl
@[simp] theorem State.hwReset_res1 (s : State) : (s.hwReset).res1 = (State.resetWith s.params).res1 := rfl
@[simp] theorem State.hwReset_cmd (s : State) : (s.hwReset).cmd = (State.resetWith s.params).cmd := rfl
@[simp] theorem State.hwReset_status (s : State) : (s.hwReset).status = (State.resetWith s.params).status := rfl
@[simp] theorem State.hwReset_phase (s : State) : (s.hwReset).phase = (State.resetWith s.params).phase := rfl
@[simp] theorem State.hwReset_lop (s : State) : (s.hwReset).lop = (State.resetWith s.params).lop := rfl
@[simp] theorem State.hwReset_lcmd (s : State) : (s.hwReset).lcmd = (State.resetWith s.params).lcmd := rfl
@[simp] theorem State.hwReset_l0 (s : State) : (s.hwReset).l0 = (State.resetWith s.params).l0 := rfl
@[simp] theorem State.hwReset_l1 (s : State) : (s.hwReset).l1 = (State.resetWith s.params).l1 := rfl
@[simp] theorem State.hwReset_l2 (s : State) : (s.hwReset).l2 = (State.resetWith s.params).l2 := rfl
@[simp] theorem State.hwReset_l3 (s : State) : (s.hwReset).l3 = (State.resetWith s.params).l3 := rfl
@[simp] theorem State.hwReset_mem (s : State) : (s.hwReset).mem = (State.resetWith s.params).mem := rfl
@[simp] theorem State.hwReset_rowPrev (s : State) : (s.hwReset).rowPrev = (State.resetWith s.params).rowPrev := rfl
@[simp] theorem State.hwReset_rowCur (s : State) : (s.hwReset).rowCur = (State.resetWith s.params).rowCur := rfl
@[simp] theorem State.hwReset_unrank (s : State) : (s.hwReset).unrank = (State.resetWith s.params).unrank := rfl
@[simp] theorem State.hwReset_request (s : State) : (s.hwReset).request = (State.resetWith s.params).request := rfl
@[simp] theorem State.hwReset_answer (s : State) : (s.hwReset).answer = (State.resetWith s.params).answer := rfl
@[simp] theorem State.hwReset_faults (s : State) : (s.hwReset).faults = s.faults := rfl
@[simp] theorem State.hwReset_agenda (s : State) : (s.hwReset).agenda = s.agenda := rfl
@[simp] theorem State.hwReset_rdata (s : State) : (s.hwReset).rdata = s.rdata := rfl
@[simp] theorem State.hwReset_draws (s : State) : (s.hwReset).draws = s.draws := rfl

/-! ### returns -/

@[simp] theorem State.returns_params (s : State) (v : Word) : (s.returns v).params = s.params := rfl
@[simp] theorem State.returns_arg0 (s : State) (v : Word) : (s.returns v).arg0 = s.arg0 := rfl
@[simp] theorem State.returns_arg1 (s : State) (v : Word) : (s.returns v).arg1 = s.arg1 := rfl
@[simp] theorem State.returns_arg2 (s : State) (v : Word) : (s.returns v).arg2 = s.arg2 := rfl
@[simp] theorem State.returns_arg3 (s : State) (v : Word) : (s.returns v).arg3 = s.arg3 := rfl
@[simp] theorem State.returns_res0 (s : State) (v : Word) : (s.returns v).res0 = s.res0 := rfl
@[simp] theorem State.returns_res1 (s : State) (v : Word) : (s.returns v).res1 = s.res1 := rfl
@[simp] theorem State.returns_cmd (s : State) (v : Word) : (s.returns v).cmd = s.cmd := rfl
@[simp] theorem State.returns_status (s : State) (v : Word) : (s.returns v).status = s.status := rfl
@[simp] theorem State.returns_phase (s : State) (v : Word) : (s.returns v).phase = s.phase := rfl
@[simp] theorem State.returns_lop (s : State) (v : Word) : (s.returns v).lop = s.lop := rfl
@[simp] theorem State.returns_lcmd (s : State) (v : Word) : (s.returns v).lcmd = s.lcmd := rfl
@[simp] theorem State.returns_l0 (s : State) (v : Word) : (s.returns v).l0 = s.l0 := rfl
@[simp] theorem State.returns_l1 (s : State) (v : Word) : (s.returns v).l1 = s.l1 := rfl
@[simp] theorem State.returns_l2 (s : State) (v : Word) : (s.returns v).l2 = s.l2 := rfl
@[simp] theorem State.returns_l3 (s : State) (v : Word) : (s.returns v).l3 = s.l3 := rfl
@[simp] theorem State.returns_mem (s : State) (v : Word) : (s.returns v).mem = s.mem := rfl
@[simp] theorem State.returns_rowPrev (s : State) (v : Word) : (s.returns v).rowPrev = s.rowPrev := rfl
@[simp] theorem State.returns_rowCur (s : State) (v : Word) : (s.returns v).rowCur = s.rowCur := rfl
@[simp] theorem State.returns_unrank (s : State) (v : Word) : (s.returns v).unrank = s.unrank := rfl
@[simp] theorem State.returns_request (s : State) (v : Word) : (s.returns v).request = s.request := rfl
@[simp] theorem State.returns_answer (s : State) (v : Word) : (s.returns v).answer = s.answer := rfl
@[simp] theorem State.returns_faults (s : State) (v : Word) : (s.returns v).faults = s.faults := rfl
@[simp] theorem State.returns_agenda (s : State) (v : Word) : (s.returns v).agenda = s.agenda := rfl
@[simp] theorem State.returns_rdata (s : State) (v : Word) : (s.returns v).rdata = some v := rfl
@[simp] theorem State.returns_draws (s : State) (v : Word) : (s.returns v).draws = s.draws := rfl

/-! ### returnsFree -/

@[simp] theorem State.returnsFree_params (s : State) : (s.returnsFree).params = s.params := rfl
@[simp] theorem State.returnsFree_arg0 (s : State) : (s.returnsFree).arg0 = s.arg0 := rfl
@[simp] theorem State.returnsFree_arg1 (s : State) : (s.returnsFree).arg1 = s.arg1 := rfl
@[simp] theorem State.returnsFree_arg2 (s : State) : (s.returnsFree).arg2 = s.arg2 := rfl
@[simp] theorem State.returnsFree_arg3 (s : State) : (s.returnsFree).arg3 = s.arg3 := rfl
@[simp] theorem State.returnsFree_res0 (s : State) : (s.returnsFree).res0 = s.res0 := rfl
@[simp] theorem State.returnsFree_res1 (s : State) : (s.returnsFree).res1 = s.res1 := rfl
@[simp] theorem State.returnsFree_cmd (s : State) : (s.returnsFree).cmd = s.cmd := rfl
@[simp] theorem State.returnsFree_status (s : State) : (s.returnsFree).status = s.status := rfl
@[simp] theorem State.returnsFree_phase (s : State) : (s.returnsFree).phase = s.phase := rfl
@[simp] theorem State.returnsFree_lop (s : State) : (s.returnsFree).lop = s.lop := rfl
@[simp] theorem State.returnsFree_lcmd (s : State) : (s.returnsFree).lcmd = s.lcmd := rfl
@[simp] theorem State.returnsFree_l0 (s : State) : (s.returnsFree).l0 = s.l0 := rfl
@[simp] theorem State.returnsFree_l1 (s : State) : (s.returnsFree).l1 = s.l1 := rfl
@[simp] theorem State.returnsFree_l2 (s : State) : (s.returnsFree).l2 = s.l2 := rfl
@[simp] theorem State.returnsFree_l3 (s : State) : (s.returnsFree).l3 = s.l3 := rfl
@[simp] theorem State.returnsFree_mem (s : State) : (s.returnsFree).mem = s.mem := rfl
@[simp] theorem State.returnsFree_rowPrev (s : State) : (s.returnsFree).rowPrev = s.rowPrev := rfl
@[simp] theorem State.returnsFree_rowCur (s : State) : (s.returnsFree).rowCur = s.rowCur := rfl
@[simp] theorem State.returnsFree_unrank (s : State) : (s.returnsFree).unrank = s.unrank := rfl
@[simp] theorem State.returnsFree_request (s : State) : (s.returnsFree).request = s.request := rfl
@[simp] theorem State.returnsFree_answer (s : State) : (s.returnsFree).answer = s.answer := rfl
@[simp] theorem State.returnsFree_faults (s : State) : (s.returnsFree).faults = s.faults := rfl
@[simp] theorem State.returnsFree_agenda (s : State) : (s.returnsFree).agenda = s.agenda := rfl
@[simp] theorem State.returnsFree_rdata (s : State) : (s.returnsFree).rdata = some (Config.freeWord s.draws 0) := rfl
@[simp] theorem State.returnsFree_draws (s : State) : (s.returnsFree).draws = s.draws + 1 := rfl

/-! ### afterVecRead: it may record a fault and draw, and nothing else -/

@[simp] theorem State.afterVecRead_params (s : State) (N : Nat) : (s.afterVecRead N).params = s.params := by
  unfold State.afterVecRead; split <;> rfl
@[simp] theorem State.afterVecRead_arg0 (s : State) (N : Nat) : (s.afterVecRead N).arg0 = s.arg0 := by
  unfold State.afterVecRead; split <;> rfl
@[simp] theorem State.afterVecRead_arg1 (s : State) (N : Nat) : (s.afterVecRead N).arg1 = s.arg1 := by
  unfold State.afterVecRead; split <;> rfl
@[simp] theorem State.afterVecRead_arg2 (s : State) (N : Nat) : (s.afterVecRead N).arg2 = s.arg2 := by
  unfold State.afterVecRead; split <;> rfl
@[simp] theorem State.afterVecRead_arg3 (s : State) (N : Nat) : (s.afterVecRead N).arg3 = s.arg3 := by
  unfold State.afterVecRead; split <;> rfl
@[simp] theorem State.afterVecRead_res0 (s : State) (N : Nat) : (s.afterVecRead N).res0 = s.res0 := by
  unfold State.afterVecRead; split <;> rfl
@[simp] theorem State.afterVecRead_res1 (s : State) (N : Nat) : (s.afterVecRead N).res1 = s.res1 := by
  unfold State.afterVecRead; split <;> rfl
@[simp] theorem State.afterVecRead_cmd (s : State) (N : Nat) : (s.afterVecRead N).cmd = s.cmd := by
  unfold State.afterVecRead; split <;> rfl
@[simp] theorem State.afterVecRead_status (s : State) (N : Nat) : (s.afterVecRead N).status = s.status := by
  unfold State.afterVecRead; split <;> rfl
@[simp] theorem State.afterVecRead_phase (s : State) (N : Nat) : (s.afterVecRead N).phase = s.phase := by
  unfold State.afterVecRead; split <;> rfl
@[simp] theorem State.afterVecRead_lop (s : State) (N : Nat) : (s.afterVecRead N).lop = s.lop := by
  unfold State.afterVecRead; split <;> rfl
@[simp] theorem State.afterVecRead_lcmd (s : State) (N : Nat) : (s.afterVecRead N).lcmd = s.lcmd := by
  unfold State.afterVecRead; split <;> rfl
@[simp] theorem State.afterVecRead_l0 (s : State) (N : Nat) : (s.afterVecRead N).l0 = s.l0 := by
  unfold State.afterVecRead; split <;> rfl
@[simp] theorem State.afterVecRead_l1 (s : State) (N : Nat) : (s.afterVecRead N).l1 = s.l1 := by
  unfold State.afterVecRead; split <;> rfl
@[simp] theorem State.afterVecRead_l2 (s : State) (N : Nat) : (s.afterVecRead N).l2 = s.l2 := by
  unfold State.afterVecRead; split <;> rfl
@[simp] theorem State.afterVecRead_l3 (s : State) (N : Nat) : (s.afterVecRead N).l3 = s.l3 := by
  unfold State.afterVecRead; split <;> rfl
@[simp] theorem State.afterVecRead_mem (s : State) (N : Nat) : (s.afterVecRead N).mem = s.mem := by
  unfold State.afterVecRead; split <;> rfl
@[simp] theorem State.afterVecRead_rowPrev (s : State) (N : Nat) : (s.afterVecRead N).rowPrev = s.rowPrev := by
  unfold State.afterVecRead; split <;> rfl
@[simp] theorem State.afterVecRead_rowCur (s : State) (N : Nat) : (s.afterVecRead N).rowCur = s.rowCur := by
  unfold State.afterVecRead; split <;> rfl
@[simp] theorem State.afterVecRead_unrank (s : State) (N : Nat) : (s.afterVecRead N).unrank = s.unrank := by
  unfold State.afterVecRead; split <;> rfl
@[simp] theorem State.afterVecRead_request (s : State) (N : Nat) : (s.afterVecRead N).request = s.request := by
  unfold State.afterVecRead; split <;> rfl
@[simp] theorem State.afterVecRead_answer (s : State) (N : Nat) : (s.afterVecRead N).answer = s.answer := by
  unfold State.afterVecRead; split <;> rfl
@[simp] theorem State.afterVecRead_agenda (s : State) (N : Nat) : (s.afterVecRead N).agenda = s.agenda := by
  unfold State.afterVecRead; split <;> rfl
@[simp] theorem State.afterVecRead_rdata (s : State) (N : Nat) : (s.afterVecRead N).rdata = s.rdata := by
  unfold State.afterVecRead; split <;> rfl

/-! ### STATUS -/

@[simp] theorem Status.accept_busy (t : Status) : t.accept.busy = true := rfl
@[simp] theorem Status.accept_done (t : Status) : t.accept.done = false := rfl
@[simp] theorem Status.accept_ovr (t : Status) : t.accept.ovr = false := rfl
@[simp] theorem Status.accept_err (t : Status) : t.accept.err = .ok := rfl
@[simp] theorem Status.overrun_busy (t : Status) : t.overrun.busy = t.busy := rfl
@[simp] theorem Status.overrun_done (t : Status) : t.overrun.done = t.done := rfl
@[simp] theorem Status.overrun_ovr (t : Status) : t.overrun.ovr = true := rfl
@[simp] theorem Status.overrun_err (t : Status) : t.overrun.err = t.err := rfl
@[simp] theorem Status.complete_busy (t : Status) (c : ErrCode) : (t.complete c).busy = false := rfl
@[simp] theorem Status.complete_done (t : Status) (c : ErrCode) : (t.complete c).done = true := rfl
@[simp] theorem Status.complete_ovr (t : Status) (c : ErrCode) : (t.complete c).ovr = t.ovr := rfl
@[simp] theorem Status.complete_err (t : Status) (c : ErrCode) : (t.complete c).err = c := rfl

end Sys2Proof.Machine
end

