-- ==== Sys2Proof/Laws/Memory.lean ====
section
/-! SUPPORT. Memory: read after write, the canonical form, and words over bytes. -/

namespace Sys2Proof.Machine

/-! ### Bytes -/

/-- Reading a byte after writing one: the written one at its address, else what was there. -/
theorem Memory.readByte_writeByte (m : Memory) (x y : Nat) (v : Byte) (h : Memory.wf m) :
    Memory.readByte (Memory.writeByte m x v) y = if y = x then some v else Memory.readByte m y := by
  induction m with
  | nil =>
    by_cases hy : y = x
    · simp [Memory.writeByte, Memory.readByte, hy]
    · simp [Memory.writeByte, Memory.readByte, hy, Ne.symm hy]
  | cons c rest ih =>
    obtain ⟨a, b⟩ := c
    have hrest : Memory.wf rest := (List.pairwise_cons.1 h).2
    unfold Memory.writeByte
    split
    · rename_i hlt
      by_cases hy : y = x
      · simp [Memory.readByte, hy]
      · simp [Memory.readByte, hy, Ne.symm hy]
    · split
      · rename_i hax
        subst hax
        by_cases hy : y = a
        · simp [Memory.readByte, hy]
        · simp [Memory.readByte, hy, Ne.symm hy]
      · rename_i hlt hax
        by_cases hy : a = y
        · subst hy
          simp [Memory.readByte, hax]
        · simp [Memory.readByte, hy, ih hrest]

/-- Every address of the written memory is the written one or was there before. -/
theorem Memory.writeByte_addr (m : Memory) (x : Nat) (v : Byte) (c : Host.Cell) (h : c ∈ Memory.writeByte m x v) :
    c.1 = x ∨ c ∈ m := by
  induction m with
  | nil =>
    simp only [Memory.writeByte, List.mem_singleton] at h
    exact .inl (by rw [h])
  | cons d rest ih =>
    obtain ⟨a, b⟩ := d
    unfold Memory.writeByte at h
    split at h
    · rcases List.mem_cons.1 h with h | h
      · exact .inl (by rw [h])
      · exact .inr h
    · split at h
      · rcases List.mem_cons.1 h with h | h
        · exact .inl (by rw [h])
        · exact .inr (List.mem_cons_of_mem _ h)
      · rcases List.mem_cons.1 h with h | h
        · exact .inr (h ▸ List.mem_cons_self)
        · exact (ih h).imp id (List.mem_cons_of_mem _)

/-- Writing a byte keeps the canonical form. -/
theorem Memory.wf_writeByte (m : Memory) (x : Nat) (v : Byte) (h : Memory.wf m) : Memory.wf (Memory.writeByte m x v) := by
  induction m with
  | nil => exact List.pairwise_singleton _ _
  | cons d rest ih =>
    obtain ⟨a, b⟩ := d
    have hc := List.pairwise_cons.1 h
    unfold Memory.writeByte
    split
    · rename_i hlt
      refine List.pairwise_cons.2 ⟨fun c hm => ?_, h⟩
      rcases List.mem_cons.1 hm with hm | hm
      · subst hm; exact hlt
      · exact Nat.lt_trans hlt (hc.1 c hm)
    · split
      · rename_i hax
        subst hax
        exact List.pairwise_cons.2 ⟨hc.1, hc.2⟩
      · rename_i hlt hax
        refine List.pairwise_cons.2 ⟨fun c hm => ?_, ih hc.2⟩
        rcases Memory.writeByte_addr rest x v c hm with hm | hm
        · show a < c.1
          omega
        · exact hc.1 c hm

/-! ### Words -/

/-- Writing a word keeps the canonical form. -/
theorem Memory.wf_writeWord (m : Memory) (x : Nat) (v : Word) (h : Memory.wf m) : Memory.wf (Memory.writeWord m x v) := by
  unfold Memory.writeWord
  exact Memory.wf_writeByte _ _ _ (Memory.wf_writeByte _ _ _ (Memory.wf_writeByte _ _ _ (Memory.wf_writeByte _ _ _ h)))

/-- Writing words keeps the canonical form. -/
theorem Memory.wf_writeWords (m : Memory) (x : Nat) (vs : List Word) (h : Memory.wf m) :
    Memory.wf (Memory.writeWords m x vs) := by
  induction vs generalizing m x with
  | nil => exact h
  | cons v rest ih => exact ih _ _ (Memory.wf_writeWord m x v h)

/-- Reading a byte after writing a word. -/
theorem Memory.readByte_writeWord (m : Memory) (x y : Nat) (v : Word) (h : Memory.wf m) :
    Memory.readByte (Memory.writeWord m x v) y =
      if x ≤ y ∧ y < x + 4 then some (byteOf v (y - x)) else Memory.readByte m y := by
  have h1 := Memory.wf_writeByte m x (byteOf v 0) h
  have h2 := Memory.wf_writeByte _ (x + 1) (byteOf v 1) h1
  have h3 := Memory.wf_writeByte _ (x + 2) (byteOf v 2) h2
  unfold Memory.writeWord
  rw [Memory.readByte_writeByte _ _ _ _ h3, Memory.readByte_writeByte _ _ _ _ h2, Memory.readByte_writeByte _ _ _ _ h1,
    Memory.readByte_writeByte _ _ _ _ h]
  by_cases e3 : y = x + 3
  · simp [e3]
  by_cases e2 : y = x + 2
  · simp [e2]
  by_cases e1 : y = x + 1
  · simp [e1]
  by_cases e0 : y = x
  · simp [e0]
  · rw [if_neg e3, if_neg e2, if_neg e1, if_neg e0, if_neg (by omega)]

/-- The bytes of a word make the word. -/
@[simp] theorem wordOfBytes_byteOf (v : Word) : wordOfBytes (byteOf v 0) (byteOf v 1) (byteOf v 2) (byteOf v 3) = v := by
  unfold wordOfBytes byteOf
  apply BitVec.eq_of_getLsbD_eq
  intro i hi
  simp only [BitVec.getLsbD_append, BitVec.getLsbD_extractLsb']
  by_cases h0 : i < 8
  · simp [h0]
  by_cases h1 : i < 16
  · have : i - 8 < 8 := by omega
    simp [h0, this, show 8 + (i - 8) = i by omega]
  by_cases h2 : i < 24
  · have a : ¬ i - 8 < 8 := by omega
    have b : i - 8 - 8 < 8 := by omega
    simp [h0, a, b, show 16 + (i - 8 - 8) = i by omega]
  · have a : ¬ i - 8 < 8 := by omega
    have b : ¬ i - 8 - 8 < 8 := by omega
    have c : i - 8 - 8 - 8 < 8 := by omega
    simp [h0, a, b, c, show 24 + (i - 8 - 8 - 8) = i by omega]

/-- A byte of a word made of bytes. -/
theorem byteOf_wordOfBytes (b0 b1 b2 b3 : Byte) :
    byteOf (wordOfBytes b0 b1 b2 b3) 0 = b0 ∧ byteOf (wordOfBytes b0 b1 b2 b3) 1 = b1 ∧
    byteOf (wordOfBytes b0 b1 b2 b3) 2 = b2 ∧ byteOf (wordOfBytes b0 b1 b2 b3) 3 = b3 := by
  unfold wordOfBytes byteOf
  refine ⟨?_, ?_, ?_, ?_⟩ <;> apply BitVec.eq_of_getLsbD_eq <;> intro i hi <;>
    simp only [BitVec.getLsbD_extractLsb', BitVec.getLsbD_append]
  · rw [if_pos (by omega)]
    simp [hi]
  · rw [if_neg (by omega), if_pos (by omega), show 8 * 1 + i - 8 = i by omega]
    simp [hi]
  · rw [if_neg (by omega), if_neg (by omega), if_pos (by omega), show 8 * 2 + i - 8 - 8 = i by omega]
    simp [hi]
  · rw [if_neg (by omega), if_neg (by omega), if_neg (by omega), show 8 * 3 + i - 8 - 8 - 8 = i by omega]
    simp [hi]

/-- Reading a word back. -/
theorem Memory.readWord_writeWord_same (m : Memory) (x : Nat) (v : Word) (h : Memory.wf m) :
    Memory.readWord (Memory.writeWord m x v) x = some v := by
  unfold Memory.readWord
  simp [Memory.readByte_writeWord _ _ _ _ h]

/-- Writing a word leaves a word that shares no byte with it alone. -/
theorem Memory.readWord_writeWord_other (m : Memory) (x y : Nat) (v : Word) (h : Memory.wf m) (hxy : x + 4 ≤ y ∨ y + 4 ≤ x) :
    Memory.readWord (Memory.writeWord m x v) y = Memory.readWord m y := by
  unfold Memory.readWord
  simp only [Memory.readByte_writeWord _ _ _ _ h]
  rw [if_neg (by omega), if_neg (by omega), if_neg (by omega), if_neg (by omega)]

/-- A byte outside the written words is unchanged. -/
theorem Memory.readByte_writeWords_other (m : Memory) (x y : Nat) (vs : List Word) (h : Memory.wf m)
    (hy : y < x ∨ x + 4 * vs.length ≤ y) : Memory.readByte (Memory.writeWords m x vs) y = Memory.readByte m y := by
  induction vs generalizing m x with
  | nil => rfl
  | cons v rest ih =>
    simp only [List.length_cons] at hy
    rw [Memory.writeWords, ih _ _ (Memory.wf_writeWord m x v h) (by omega), Memory.readByte_writeWord _ _ _ _ h,
      if_neg (by omega)]

/-- A byte inside the written words holds a value. -/
theorem Memory.readByte_writeWords_isSome (m : Memory) (x y : Nat) (vs : List Word) (h : Memory.wf m)
    (hy : x ≤ y ∧ y < x + 4 * vs.length) : (Memory.readByte (Memory.writeWords m x vs) y).isSome := by
  induction vs generalizing m x with
  | nil => simp only [List.length_nil] at hy; omega
  | cons v rest ih =>
    simp only [List.length_cons] at hy
    rw [Memory.writeWords]
    by_cases hlow : y < x + 4
    · rw [Memory.readByte_writeWords_other _ _ _ _ (Memory.wf_writeWord m x v h) (.inl hlow),
        Memory.readByte_writeWord _ _ _ _ h, if_pos (by omega)]
      rfl
    · exact ih _ _ (Memory.wf_writeWord m x v h) (by omega)

/-- A word before the written words is unchanged. -/
theorem Memory.readWord_writeWords_before (m : Memory) (x y : Nat) (vs : List Word) (h : Memory.wf m) (hy : y + 4 ≤ x) :
    Memory.readWord (Memory.writeWords m x vs) y = Memory.readWord m y := by
  induction vs generalizing m x with
  | nil => rfl
  | cons v rest ih =>
    rw [Memory.writeWords, ih _ _ (Memory.wf_writeWord m x v h) (by omega),
      Memory.readWord_writeWord_other _ _ _ _ h (.inr hy)]

/-- A word from the end of the written words on is unchanged. -/
theorem Memory.readWord_writeWords_after (m : Memory) (x y : Nat) (vs : List Word) (h : Memory.wf m)
    (hy : x + 4 * vs.length ≤ y) : Memory.readWord (Memory.writeWords m x vs) y = Memory.readWord m y := by
  induction vs generalizing m x with
  | nil => rfl
  | cons v rest ih =>
    simp only [List.length_cons] at hy
    rw [Memory.writeWords, ih _ _ (Memory.wf_writeWord m x v h) (by omega),
      Memory.readWord_writeWord_other _ _ _ _ h (.inl (by omega))]

/-- The j-th written word reads back. -/
theorem Memory.readWord_writeWords (m : Memory) (x j : Nat) (vs : List Word) (h : Memory.wf m) (hj : j < vs.length) :
    Memory.readWord (Memory.writeWords m x vs) (x + 4 * j) = vs[j]? := by
  induction vs generalizing m x j with
  | nil => simp at hj
  | cons v rest ih =>
    rw [Memory.writeWords]
    cases j with
    | zero =>
      rw [Memory.readWord_writeWords_before _ _ _ _ (Memory.wf_writeWord m x v h) (by omega)]
      simpa using Memory.readWord_writeWord_same m x v h
    | succ j =>
      simp only [List.length_cons] at hj
      have := ih (Memory.writeWord m x v) (x + 4) j (Memory.wf_writeWord m x v h) (by omega)
      rw [show x + 4 * (j + 1) = x + 4 + 4 * j by omega, this]
      simp

/-! ### VEC -/

/-- VEC after a write of one word of it. -/
theorem State.vec_setVec (s : State) (j k : Nat) (v : Word) (h : Memory.wf s.mem) :
    (s.setVec j v).vec k = if k = j then some v else s.vec k := by
  unfold State.vec
  by_cases hk : k = j
  · subst hk
    simpa using Memory.readWord_writeWord_same s.mem (vecOffset k) v h
  · rw [if_neg hk]
    exact Memory.readWord_writeWord_other _ _ _ _ h (by unfold vecOffset; omega)

/-- VEC after a list of words is written from VEC[0] on. -/
theorem State.vec_setVecFrom0 (s : State) (vs : List Word) (j : Nat) (h : Memory.wf s.mem) :
    (s.setVecFrom0 vs).vec j = if j < vs.length then vs[j]? else s.vec j := by
  unfold State.vec
  split
  · rename_i hj
    have := Memory.readWord_writeWords s.mem (vecOffset 0) j vs h hj
    simpa [vecOffset, Nat.add_comm] using this
  · rename_i hj
    exact Memory.readWord_writeWords_after _ _ _ _ h (by unfold vecOffset; omega)

/-- The memory of the machine right after reset is canonical. -/
theorem State.reset_mem_wf (p : Params) : Memory.wf (State.resetWith p).mem := List.Pairwise.nil

/-! ### Equal memories -/

/-- Below its first address a canonical memory reads as no value. -/
theorem Memory.readByte_none_of_lt (m : Memory) (x : Nat) (h : ∀ c ∈ m, x < c.1) : Memory.readByte m x = none := by
  induction m with
  | nil => rfl
  | cons c rest ih =>
    have hc : x < c.1 := h c List.mem_cons_self
    unfold Memory.readByte
    rw [if_neg (by omega)]
    exact ih fun d hd => h d (List.mem_cons_of_mem _ hd)

/-- Canonical memories that read alike are equal. -/
theorem Memory.ext_readByte (m m' : Memory) (h : Memory.wf m) (h' : Memory.wf m')
    (he : ∀ x, Memory.readByte m x = Memory.readByte m' x) : m = m' := by
  induction m generalizing m' with
  | nil =>
    cases m' with
    | nil => rfl
    | cons c' r' => have := he c'.1; simp [Memory.readByte] at this
  | cons c r ih =>
    cases m' with
    | nil => have := he c.1; simp [Memory.readByte] at this
    | cons c' r' =>
      obtain ⟨a, b⟩ := c
      obtain ⟨a', b'⟩ := c'
      have hc := List.pairwise_cons.1 h
      have hc' := List.pairwise_cons.1 h'
      have hr : Memory.readByte r a = none := Memory.readByte_none_of_lt r a hc.1
      have hr' : Memory.readByte r' a' = none := Memory.readByte_none_of_lt r' a' hc'.1
      have e1 := he a
      have e2 := he a'
      simp only [Memory.readByte, if_true] at e1 e2
      have haa : a = a' := by
        rcases Nat.lt_trichotomy a a' with hl | hl | hl
        · rw [if_neg (by omega), Memory.readByte_none_of_lt r' a fun d hd => Nat.lt_trans hl (hc'.1 d hd)] at e1
          exact absurd e1 (by simp)
        · exact hl
        · rw [if_neg (by omega), Memory.readByte_none_of_lt r a' fun d hd => Nat.lt_trans hl (hc.1 d hd)] at e2
          exact absurd e2 (by simp)
      subst haa
      rw [if_pos rfl] at e1
      injection e1 with e1
      subst e1
      rw [ih r' hc.2 hc'.2]
      intro x
      by_cases hx : a = x
      · subst hx
        rw [hr, hr']
      · have := he x
        simpa [Memory.readByte, hx] using this

/-- Writing a word twice is writing it once. -/
theorem Memory.writeWord_writeWord (m : Memory) (x : Nat) (v : Word) (h : Memory.wf m) :
    Memory.writeWord (Memory.writeWord m x v) x v = Memory.writeWord m x v := by
  have h1 := Memory.wf_writeWord m x v h
  refine Memory.ext_readByte _ _ (Memory.wf_writeWord _ x v h1) h1 fun y => ?_
  rw [Memory.readByte_writeWord _ _ _ _ h1]
  split
  · rename_i hy
    rw [Memory.readByte_writeWord _ _ _ _ h, if_pos hy]
  · rfl

end Sys2Proof.Machine
end

