-- ==== Sys2Proof/Laws/Ops.lean ====
section
/-! SUPPORT. What the shared operations can do, each said once: rows, the entropy port, host accesses. -/

namespace Sys2Proof.Machine

/-! ### Row buffers -/

/-- A row laid over a buffer that is long enough keeps the buffer's length. -/
theorem overlay_length (row : List Nat) (buffer : List Word) (h : row.length ≤ buffer.length) :
    (overlay row buffer).length = buffer.length := by
  simp [overlay]
  omega

/-- A sweep keeps the lengths of the buffers (10_state.md R36). -/
theorem sweptRows_length (K n L : Nat) (prev cur : List Word) (hp : prev.length = L) (hc : cur.length = L) (hK : K + 1 ≤ L) :
    (sweptRows K prev cur n).1.length = L ∧ (sweptRows K prev cur n).2.length = L := by
  induction n with
  | zero => exact ⟨by rw [sweptRows, overlay_length _ _ (by simp; omega), hp], hc⟩
  | succ n ih => exact ⟨by rw [sweptRows, overlay_length _ _ (by simp; omega), ih.2], ih.1⟩

/-- After a sweep to row N, entry K of the first buffer is vsat(N, K), whatever the buffers held (41_combinatorics.md R132). -/
theorem sweptRows_result (K n : Nat) (prev cur : List Word) :
    (sweptRows K prev cur n).1.getD K 0 = wordOfNat (vsat n K) := by
  have h : ∀ buffer, (overlay (dpRow satAdd K n) buffer).getD K 0 = wordOfNat (vsat n K) := by
    intro buffer
    simp [overlay, vsat, List.getD_eq_getElem?_getD, List.getElem?_append_left]
  cases n with
  | zero => exact h prev
  | succ n => exact h _

/-- Free words come in the number asked for. -/
@[simp] theorem State.freeWords_length (s : State) (n : Nat) : (s.freeWords n).length = n := by simp [State.freeWords]

/-- VEC[0..N-1] is read as N words. -/
@[simp] theorem State.vecWords_length (s : State) (N : Nat) : (s.vecWords N).length = N := by simp [State.vecWords]

/-! ### The entropy port -/

/-- What an arriving answer can do (10_state.md R32; 42_pvq_decode.md R161; 70_reset_and_hazards.md R252). -/
theorem State.receive_cases (s : State) (a : Answer) :
    (s.request = none ∧ s.receive a = s) ∨
    (∃ ft, s.request = some ft ∧ (∀ u, a = .ok u → u.toNat < ft.toNat) ∧
      s.receive a = { s with request := none, answer := some a, phase := .exec }) ∨
    (∃ ft u, s.request = some ft ∧ a = .ok u ∧ ft.toNat ≤ u.toNat ∧ s.receive a = s.breakEntropy ft) := by
  unfold State.receive
  cases hr : s.request with
  | none => exact .inl ⟨rfl, rfl⟩
  | some ft =>
    cases a with
    | err e => exact .inr (.inl ⟨ft, rfl, by simp, rfl⟩)
    | ok u =>
      by_cases hu : u.toNat < ft.toNat
      · exact .inr (.inl ⟨ft, rfl, by simpa using hu, by simp [hu]⟩)
      · exact .inr (.inr ⟨ft, u, rfl, rfl, by omega, by simp [hu]⟩)

/-! ### Host accesses -/

/-- A legal read (20_memory.md R53). -/
theorem State.hostRead_legal (s : State) (off : Nat) (h : off % 4 = 0) :
    s.hostRead 32 off = s.readTarget (busTarget s.params off) := by
  simp [State.hostRead, accessLegal, h]

/-- A legal write while idle (20_memory.md R51, R53). -/
theorem State.hostWrite_idle (s : State) (off : Nat) (v : Word) (h : off % 4 = 0) (hb : s.status.busy = false) :
    s.hostWrite 32 off v = s.writeTarget v (busTarget s.params off) := by
  simp [State.hostWrite, accessLegal, h, hb]

/-- A legal write while BUSY (20_memory.md R60). -/
theorem State.hostWrite_busy (s : State) (off : Nat) (v : Word) (h : off % 4 = 0) (hb : s.status.busy = true) :
    s.hostWrite 32 off v = { s with status := s.status.overrun } := by
  simp [State.hostWrite, accessLegal, h, hb]

/-- From offset 0x020 on there is VEC, up to SPAN, and nothing else (20_memory.md R51, R52). -/
theorem busTarget_beyond_registers (p : Params) (off : Nat) (h : 0x020 ≤ off) :
    busTarget p off = if 0x100 ≤ off ∧ off < Params.span p then .vec ((off - 0x100) / 4) else .reserved := by
  have past : ∀ r, r < 0x020 → off ≠ r := fun r hr e => Nat.not_lt.2 h (e ▸ hr)
  simp only [busTarget, past, Nat.reduceLT, if_false]

/-- VEC[j] stands at offset 0x100 + 4*j (20_memory.md R51). -/
theorem busTarget_vec (p : Params) (j : Nat) (h : j < p.nmax) : busTarget p (0x100 + 4 * j) = .vec j := by
  rw [busTarget_beyond_registers _ _ (by omega), if_pos (by unfold Params.span; omega)]
  congr 1
  omega

/-- The reserved offsets (20_memory.md R52). -/
theorem busTarget_reserved (p : Params) (off : Nat) (h : (0x020 ≤ off ∧ off < 0x100) ∨ 0x100 + 4 * p.nmax ≤ off) :
    busTarget p off = .reserved := by
  rw [busTarget_beyond_registers _ _ (by omega), if_neg (by unfold Params.span; omega)]

/-- The offset a target is found at (20_memory.md R51): a register's own, VEC[j]'s own; a reserved one is none of them. -/
theorem busTarget_offset (p : Params) (off : Nat) (h4 : off % 4 = 0) :
    match busTarget p off with
    | .cmd => off = 0x000
    | .status => off = 0x004
    | .arg0 => off = 0x008
    | .arg1 => off = 0x00C
    | .arg2 => off = 0x010
    | .arg3 => off = 0x014
    | .res0 => off = 0x018
    | .res1 => off = 0x01C
    | .vec j => j < p.nmax ∧ off = vecOffset j
    | .reserved => 0x020 ≤ off := by
  by_cases hlow : off < 0x020
  · obtain ⟨k, hk, rfl⟩ : ∃ k, k < 8 ∧ off = 4 * k := ⟨off / 4, by omega, by omega⟩
    match k, hk with
    | 0, _ | 1, _ | 2, _ | 3, _ | 4, _ | 5, _ | 6, _ | 7, _ => rfl
  · rw [busTarget_beyond_registers _ _ (by omega)]
    by_cases hv : 0x100 ≤ off ∧ off < Params.span p
    · rw [if_pos hv]
      unfold Params.span at hv
      exact ⟨by omega, by unfold vecOffset; omega⟩
    · rw [if_neg hv]
      exact Nat.not_lt.1 hlow

/-- A host read changes nothing but what the bus returns, the fault record and the draw counter (20_memory.md R57). -/
theorem State.hostRead_frame (s : State) (width off : Nat) :
    s.hostRead width off =
      { s with
        rdata := (s.hostRead width off).rdata, faults := (s.hostRead width off).faults
        draws := (s.hostRead width off).draws } := by
  unfold State.hostRead
  split
  · cases busTarget s.params off <;> simp only [State.readTarget, State.readVec] <;>
      first | rfl | (split <;> first | rfl | (split <;> rfl))
  · rfl

/-- What a host write can do (20_memory.md R51, R53, R60; 10_state.md R42): a bad access; an overrun; while idle an accept, a
write of one readable and writable word, or nothing. -/
theorem State.hostWrite_cases (s : State) (width off : Nat) (v : Word) :
    (accessLegal width off = false ∧ s.hostWrite width off v = s.recordBadAccess) ∨
    (accessLegal width off = true ∧ s.status.busy = true ∧
      s.hostWrite width off v = { s with status := s.status.overrun }) ∨
    (accessLegal width off = true ∧ s.status.busy = false ∧
      ((off = 0x000 ∧ s.hostWrite width off v = s.accept v) ∨
      (off = 0x008 ∧ s.hostWrite width off v = { s with arg0 := v }) ∨
      (off = 0x00C ∧ s.hostWrite width off v = { s with arg1 := v }) ∨
      (off = 0x010 ∧ s.hostWrite width off v = { s with arg2 := v }) ∨
      (off = 0x014 ∧ s.hostWrite width off v = { s with arg3 := v }) ∨
      (∃ j, j < s.params.nmax ∧ off = vecOffset j ∧ s.hostWrite width off v = s.setVec j v) ∨
      s.hostWrite width off v = s)) := by
  unfold State.hostWrite
  cases hl : accessLegal width off
  · exact .inl ⟨rfl, rfl⟩
  cases hb : s.status.busy
  · refine .inr (.inr ⟨rfl, rfl, ?_⟩)
    have h4 : off % 4 = 0 := by
      simp only [accessLegal, Bool.and_eq_true, decide_eq_true_eq] at hl
      exact hl.2
    have place := busTarget_offset s.params off h4
    cases ht : busTarget s.params off <;> rw [ht] at place
    case vec j =>
      iterate 5 right
      exact .inl ⟨j, place.1, place.2, rfl⟩
    all_goals simp [State.writeTarget, place]
  · exact .inr (.inl ⟨rfl, rfl, rfl⟩)

end Sys2Proof.Machine
end

