-- ==== Sys2Proof/Laws/Exec.lean ====
section
/-! SUPPORT. What each command's meaning, the block's turn and one step can do, each said once. -/

namespace Sys2Proof.Machine

/-! ### Meanings -/

/-- The outcomes of CWRS_V (41_combinatorics.md R135). -/
theorem execCwrsV_cases (s : State) :
    (s.params.kmax < s.u1 ∧ execCwrsV s = .next (s.complete .capacity)) ∨
    (s.u1 ≤ s.params.kmax ∧
      execCwrsV s = .next (((s.sweep s.u0 s.u1).setRes0 (wordOfNat (vsat s.u0 s.u1))).complete .ok)) := by
  unfold execCwrsV
  split
  · exact .inl ⟨‹_›, rfl⟩
  · exact .inr ⟨by omega, rfl⟩

/-- The outcomes of GETPULSES (41_combinatorics.md R138). -/
theorem execGetpulses_cases (s : State) :
    (239 < s.u0 ∧ execGetpulses s = .next (s.complete .domain)) ∨
    (s.u0 ≤ 239 ∧ execGetpulses s = .next ((s.setRes0 (wordOfNat (gp s.u0))).complete .ok)) := by
  unfold execGetpulses
  split
  · exact .inl ⟨‹_›, rfl⟩
  · exact .inr ⟨by omega, rfl⟩

/-- The outcomes of FITS32 (41_combinatorics.md R140). -/
theorem execFits32_cases (s : State) :
    (s.params.kmax < s.u1 ∧ execFits32 s = .next (s.complete .capacity)) ∨
    (s.u1 ≤ s.params.kmax ∧
      execFits32 s = .next (((s.sweep s.u0 s.u1).setRes0 (wordOfNat (fits s.u0 s.u1))).complete .ok)) := by
  unfold execFits32
  split
  · exact .inl ⟨‹_›, rfl⟩
  · exact .inr ⟨by omega, rfl⟩

/-- The outcomes of PVQ_DECODE (42_pvq_decode.md R165). -/
theorem execPvqDecode_cases (s : State) :
    (s.u0 = 0 ∧ execPvqDecode s = .next (s.complete .invalidDimension)) ∨
    (1 ≤ s.u0 ∧ (s.params.nmax < s.u0 ∨ s.params.kmax < s.u1) ∧ execPvqDecode s = .next (s.complete .capacity)) ∨
    (1 ≤ s.u0 ∧ s.u0 ≤ s.params.nmax ∧ s.u1 ≤ s.params.kmax ∧
      ((s.u1 = 0 ∧ execPvqDecode s = .next (pvqZeroPulses s s.u0)) ∨
      (1 ≤ s.u1 ∧ vsat s.u0 s.u1 = 0 ∧ execPvqDecode s = .next ((s.sweep s.u0 s.u1).complete .invalidCodebook)) ∨
      (1 ≤ s.u1 ∧ 2 ^ 31 ≤ vsat s.u0 s.u1 ∧
        execPvqDecode s = .next ((s.sweep s.u0 s.u1).complete .codebookTooLarge)) ∨
      (1 ≤ s.u1 ∧ 1 ≤ vsat s.u0 s.u1 ∧ vsat s.u0 s.u1 < 2 ^ 31 ∧
        execPvqDecode s = .next (pvqDraw s s.u0 s.u1 (wordOfNat (vsat s.u0 s.u1)))))) := by
  unfold execPvqDecode
  by_cases hN : s.u0 = 0
  · exact .inl ⟨hN, by simp [hN]⟩
  rw [if_neg hN]
  by_cases hcap : s.params.nmax < s.u0 ∨ s.params.kmax < s.u1
  · exact .inr (.inl ⟨by omega, hcap, by simp [hcap]⟩)
  rw [if_neg hcap]
  refine .inr (.inr ⟨by omega, by omega, by omega, ?_⟩)
  by_cases hK : s.u1 = 0
  · exact .inl ⟨hK, by simp [hK]⟩
  rw [if_neg hK]
  by_cases hz : vsat s.u0 s.u1 = 0
  · exact .inr (.inl ⟨by omega, hz, by simp [hz]⟩)
  rw [if_neg hz]
  by_cases hl : 2 ^ 31 ≤ vsat s.u0 s.u1
  · exact .inr (.inr (.inl ⟨by omega, hl, by rw [if_pos hl]; rfl⟩))
  · exact .inr (.inr (.inr ⟨by omega, by omega, by omega, by rw [if_neg hl]⟩))

/-- From the draw on (42_pvq_decode.md R160 to R162, R165). -/
theorem pvqDraw_cases (s : State) (N K : Nat) (ft : Word) :
    (s.answer = none ∧ pvqDraw s N K ft = (s.sweep N K).postRequest ft) ∨
    (∃ e, s.answer = some (.err e) ∧ pvqDraw s N K ft = pvqEntropyError s e) ∨
    (∃ u, s.answer = some (.ok u) ∧ u.toNat < ft.toNat ∧ pvqDraw s N K ft = pvqDeliver s N K u ft) ∨
    (∃ u, s.answer = some (.ok u) ∧ ft.toNat ≤ u.toNat ∧ pvqDraw s N K ft = s.breakEntropy ft) := by
  unfold pvqDraw
  cases hr : s.answer with
  | none => exact .inl ⟨rfl, rfl⟩
  | some a =>
    cases a with
    | err e => exact .inr (.inl ⟨e, rfl, rfl⟩)
    | ok u =>
      by_cases hu : u.toNat < ft.toNat
      · exact .inr (.inr (.inl ⟨u, rfl, hu, by simp [hu]⟩))
      · exact .inr (.inr (.inr ⟨u, rfl, by omega, by simp [hu]⟩))

/-- What a delivery writes: the vector, u, the codebook size and the completion; all else but hidden scratch and the draw
counter stays (42_pvq_decode.md R165, R170). -/
theorem pvqDeliver_frame (s : State) (N K : Nat) (u ft : Word) :
    pvqDeliver s N K u ft =
      { s with
        res0 := u, res1 := ft, mem := (s.setVecFrom0 ((unrank N K u.toNat).map wordOfInt)).mem, answer := none
        rowPrev := (pvqDeliver s N K u ft).rowPrev, rowCur := (pvqDeliver s N K u ft).rowCur
        unrank := (pvqDeliver s N K u ft).unrank, draws := s.draws + 2
        status := s.status.complete .ok, phase := .idle } := by
  unfold pvqDeliver
  simp only [State.scrambleRows, State.setUnrank, State.setVecFrom0, State.setRes0, State.setRes1, State.takeAnswer,
    State.complete]

/-- The outcomes of SPREAD (43_spreading.md R190). -/
theorem execSpread_cases (s : State) :
    (3 < s.u2 ∧ execSpread s = .next (s.complete .invalidSpread)) ∨
    (s.u2 ≤ 3 ∧ s.params.nmax < s.u0 ∧ execSpread s = .next (s.complete .capacity)) ∨
    (s.u2 ≤ 3 ∧ s.u0 ≤ s.params.nmax ∧
      (((s.u2 = 0 ∨ s.u1 = 0) ∧ execSpread s = .next (s.complete .ok)) ∨
      (1 ≤ s.u2 ∧ 1 ≤ s.u1 ∧ s.u3 = 0 ∧ execSpread s = .next (s.complete .invalidBlockCount)) ∨
      (1 ≤ s.u2 ∧ 1 ≤ s.u1 ∧ 1 ≤ s.u3 ∧ s.u0 % s.u3 ≠ 0 ∧ execSpread s = .next (s.complete .invalidBlockDivision)) ∨
      (1 ≤ s.u2 ∧ 1 ≤ s.u1 ∧ 1 ≤ s.u3 ∧ s.u0 % s.u3 = 0 ∧
        execSpread s = .next (spreadRun s s.u0 s.u1 s.u2 s.u3)))) := by
  unfold execSpread
  by_cases h2 : 3 < s.u2
  · exact .inl ⟨h2, by simp [h2]⟩
  rw [if_neg h2]
  by_cases h0 : s.params.nmax < s.u0
  · exact .inr (.inl ⟨by omega, h0, by simp [h0]⟩)
  rw [if_neg h0]
  refine .inr (.inr ⟨by omega, by omega, ?_⟩)
  by_cases hn : s.u2 = 0 ∨ s.u1 = 0
  · exact .inl ⟨hn, by simp [hn]⟩
  rw [if_neg hn]
  by_cases h3 : s.u3 = 0
  · exact .inr (.inl ⟨by omega, by omega, h3, by simp [h3]⟩)
  rw [if_neg h3]
  by_cases hd : s.u0 % s.u3 ≠ 0
  · exact .inr (.inr (.inl ⟨by omega, by omega, by omega, hd, by simp [hd]⟩))
  · exact .inr (.inr (.inr ⟨by omega, by omega, by omega, by omega, by rw [if_neg hd]⟩))

/-- SPREAD past its checks writes N words from VEC[0] on and completes with OK (43_spreading.md R190, R193). -/
theorem spreadRun_cases (s : State) (N K lvl B : Nat) :
    ((s.vecWords N).any floatNonFinite = true ∧
      spreadRun s N K lvl B =
        (((s.afterVecRead N).setVecFrom0 ((s.afterVecRead N).freeWords N)).drawn).complete .ok) ∨
    ((s.vecWords N).any floatNonFinite = false ∧
      spreadRun s N K lvl B = ((s.afterVecRead N).setVecFrom0
        (spreadSamples N B (Config.cs (spreadTheta N K lvl)).1 (Config.cs (spreadTheta N K lvl)).2
          (s.vecWords N))).complete .ok) := by
  by_cases h : (s.vecWords N).any floatNonFinite = true
  · exact .inl ⟨h, if_pos h⟩
  · exact .inr ⟨by simpa using h, if_neg h⟩

/-! ### Rotation keeps the number of samples -/

@[simp] theorem rotatePair_length (c s : Word) (a b : Nat) (X : List Word) : (rotatePair c s a b X).length = X.length := by
  simp [rotatePair]

@[simp] theorem rotatePairs_length (c s : Word) (off st : Nat) (is : List Nat) (X : List Word) :
    (rotatePairs c s off st is X).length = X.length := by
  induction is generalizing X with
  | nil => rfl
  | cons i rest ih => simp [rotatePairs, ih]

@[simp] theorem rotate_length' (X : List Word) (off L st : Nat) (c s : Word) : (rotate X off L st c s).length = X.length := by
  simp [rotate]

@[simp] theorem rotateBlock_length (X : List Word) (off L : Nat) (c s : Word) : (rotateBlock X off L c s).length = X.length := by
  unfold rotateBlock
  split <;> simp

@[simp] theorem rotateBlocks_length (L : Nat) (c s : Word) (count b : Nat) (X : List Word) :
    (rotateBlocks L c s count b X).length = X.length := by
  induction count generalizing b X with
  | zero => rfl
  | succ count ih => simp [rotateBlocks, ih]

@[simp] theorem spreadSamples_length (N B : Nat) (c s : Word) (X : List Word) : (spreadSamples N B c s X).length = X.length := by
  unfold spreadSamples
  split <;> simp

/-! ### Turns and steps -/

/-- The block's turn: nothing outside EXEC, else the latched command or ILLEGAL_CMD (10_state.md R31, R32). -/
theorem blockTurn_cases (s : State) :
    (s.phase ≠ .exec ∧ blockTurn s = .next s) ∨
    (s.phase = .exec ∧ s.lop.instr? = none ∧ blockTurn s = .next (s.complete .illegalCmd)) ∨
    (∃ i, s.phase = .exec ∧ s.lop.instr? = some i ∧ blockTurn s = exec i s) := by
  unfold blockTurn
  cases hp : s.phase with
  | idle => exact .inl ⟨by simp, rfl⟩
  | waitEnt ft => exact .inl ⟨by simp, rfl⟩
  | exec =>
    cases hi : s.lop.instr? with
    | none => exact .inr (.inl ⟨rfl, rfl, rfl⟩)
    | some i => exact .inr (.inr ⟨i, rfl, rfl, rfl⟩)

/-- An address at or above BASE is routed to the block (20_memory.md R50). -/
@[simp] theorem Params.offset?_add (p : Params) (off : Nat) : Params.offset? p (p.base + off) = some off := by
  simp [Params.offset?]

/-- A step on a block turn. -/
theorem step_block (s : State) (rest : List Turn) (h : s.agenda = .block :: rest) :
    step s = blockTurn { s with agenda := rest } := by
  unfold step nextTurn
  rw [h]
  rfl

/-- A step with no turn left. -/
theorem step_nil (s : State) (h : s.agenda = []) : step s = blockTurn s := by
  unfold step nextTurn
  rw [h]

/-- A step on a host read of the block. -/
theorem step_read (s : State) (width off : Nat) (rest : List Turn)
    (h : s.agenda = .read width (s.params.base + off) :: rest) :
    step s = .next (({ s with agenda := rest } : State).hostRead width off) := by
  unfold step nextTurn
  rw [h]
  simp only [takeTurn, Params.offset?_add]

/-- A step on a host write of the block. -/
theorem step_write (s : State) (width off : Nat) (v : Word) (rest : List Turn)
    (h : s.agenda = .write width (s.params.base + off) v :: rest) :
    step s = .next (({ s with agenda := rest } : State).hostWrite width off v) := by
  unfold step nextTurn
  rw [h]
  simp only [takeTurn, Params.offset?_add]

/-- A step on an answer of the collaborator. -/
theorem step_answer (s : State) (a : Answer) (rest : List Turn) (h : s.agenda = .answer a :: rest) :
    step s = .next (({ s with agenda := rest } : State).receive a) := by
  unfold step nextTurn
  rw [h]
  rfl

/-- A step on a late answer. -/
theorem step_lateAnswer (s : State) (a : Answer) (rest : List Turn) (h : s.agenda = .lateAnswer a :: rest) :
    step s = .next { s with agenda := rest } := by
  unfold step nextTurn
  rw [h]
  rfl

/-- A step on the reset input. -/
theorem step_reset (s : State) (rest : List Turn) (h : s.agenda = .reset :: rest) :
    step s = .next ({ s with agenda := rest } : State).hwReset := by
  unfold step nextTurn
  rw [h]
  rfl

/-- A table word of 32 bits is placed as the command word it is. -/
@[simp] theorem State.withFetchWord_toNat (s : State) (w : Word) : s.withFetchWord 32 w.toNat = s.placeCommand w := by
  unfold State.withFetchWord
  rw [Nat.mod_eq_of_lt w.isLt, BitVec.ofNat_toNat, BitVec.setWidth_eq]

/-- The step after a command word is placed is the block's turn on its accept. -/
theorem step_placeCommand (s : State) (w : Word) :
    step (s.placeCommand w) = blockTurn { s.accept w with request := none, answer := none } :=
  step_block _ _ rfl

/-- A run that begins with a step to a next state goes on from there. -/
theorem core_run_next (n : Nat) (s t : State) (h : step s = .next t) : core.run (n + 1) s = core.run n t := by
  have h' : core.step s = .next t := h
  simp only [Host.Core.run, h']

/-- A run to a next state takes its first step to a next state. -/
theorem core_run_next_iff (n : Nat) (s t : State) :
    core.run (n + 1) s = .next t ↔ ∃ s', step s = .next s' ∧ core.run n s' = .next t := by
  constructor
  · intro h
    cases hs : step s with
    | next s' => exact ⟨s', rfl, by rwa [core_run_next n s s' hs] at h⟩
    | fault f =>
      have h' : core.step s = .fault f := hs
      simp only [Host.Core.run, h'] at h
      cases h
    | refused r =>
      have h' : core.step s = .refused r := hs
      simp only [Host.Core.run, h'] at h
      cases h
  · rintro ⟨s', hs, h⟩
    rw [core_run_next n s s' hs, h]

/-- One step that answers a next state is one of these (20_memory.md R58). -/
theorem step_cases (s t : State) (h : step s = .next t) :
    (∃ rest, (s.agenda = .block :: rest ∨ (s.agenda = [] ∧ rest = [])) ∧ blockTurn { s with agenda := rest } = .next t) ∨
    (∃ width addr rest, s.agenda = .read width addr :: rest ∧ s.params.base ≤ addr ∧
      t = ({ s with agenda := rest }).hostRead width (addr - s.params.base)) ∨
    (∃ width addr v rest, s.agenda = .write width addr v :: rest ∧ s.params.base ≤ addr ∧
      t = ({ s with agenda := rest }).hostWrite width (addr - s.params.base) v) ∨
    (∃ a rest, s.agenda = .answer a :: rest ∧ t = ({ s with agenda := rest }).receive a) ∨
    (∃ a rest, s.agenda = .lateAnswer a :: rest ∧ t = { s with agenda := rest }) ∨
    (∃ rest, s.agenda = .reset :: rest ∧ t = ({ s with agenda := rest }).hwReset) := by
  unfold step nextTurn at h
  cases hg : s.agenda with
  | nil =>
    rw [hg] at h
    refine .inl ⟨[], .inr ⟨rfl, rfl⟩, ?_⟩
    rwa [show { s with agenda := [] } = s by rw [← hg]]
  | cons x rest =>
    rw [hg] at h
    cases x with
    | block => exact .inl ⟨rest, .inl rfl, h⟩
    | read width addr =>
      simp only [takeTurn, Params.offset?] at h
      split at h
      · rename_i off ho
        split at ho
        · injection ho with ho
          injection h with h
          exact .inr (.inl ⟨width, addr, rest, rfl, ‹_›, by rw [← h, ← ho]⟩)
        · exact absurd ho (by simp)
      · exact absurd h (by simp)
    | write width addr v =>
      simp only [takeTurn, Params.offset?] at h
      split at h
      · rename_i off ho
        split at ho
        · injection ho with ho
          injection h with h
          exact .inr (.inr (.inl ⟨width, addr, v, rest, rfl, ‹_›, by rw [← h, ← ho]⟩))
        · exact absurd ho (by simp)
      · exact absurd h (by simp)
    | answer a =>
      injection h with h
      exact .inr (.inr (.inr (.inl ⟨a, rest, rfl, h.symm⟩)))
    | lateAnswer a =>
      injection h with h
      exact .inr (.inr (.inr (.inr (.inl ⟨a, rest, rfl, h.symm⟩))))
    | reset =>
      injection h with h
      exact .inr (.inr (.inr (.inr (.inr ⟨rest, rfl, h.symm⟩))))

end Sys2Proof.Machine
end

