-- ==== Sys2Proof/Laws/Frame.lean ====
section
/-! SUPPORT. What every command leaves alone, and the three ways a command's step can end, each said once for all
commands. -/

namespace Sys2Proof.Machine

/-! ### What no command changes -/

/-- What no step of a command changes: parameters, operands, command word, latches, agenda, what the bus returned; and no
fault is cleared, BAD_ACCESS being the host's alone. -/
structure State.Keeps (s t : State) : Prop where
  params : t.params = s.params
  args : t.arg0 = s.arg0 ∧ t.arg1 = s.arg1 ∧ t.arg2 = s.arg2 ∧ t.arg3 = s.arg3
  command : t.cmd = s.cmd ∧ t.lcmd = s.lcmd ∧ t.lop = s.lop
  latches : t.l0 = s.l0 ∧ t.l1 = s.l1 ∧ t.l2 = s.l2 ∧ t.l3 = s.l3
  agenda : t.agenda = s.agenda
  rdata : t.rdata = s.rdata
  badAccess : t.faults.badAccess = s.faults.badAccess
  unwrittenVec : s.faults.unwrittenVec = true → t.faults.unwrittenVec = true
  entropyRange : s.faults.entropyRange = true → t.faults.entropyRange = true

/-- An update of any other field keeps them. -/
theorem State.keeps_of_fields (s : State) (r0 r1 : Word) (st : Status) (ph : Phase) (m : Memory) (p c : List Word)
    (u : UnrankRegs) (q : Option Word) (a : Option Answer) (d : Nat) :
    s.Keeps { s with
      res0 := r0, res1 := r1, status := st, phase := ph, mem := m, rowPrev := p, rowCur := c, unrank := u
      request := q, answer := a, draws := d } :=
  ⟨rfl, ⟨rfl, rfl, rfl, rfl⟩, ⟨rfl, rfl, rfl⟩, ⟨rfl, rfl, rfl, rfl⟩, rfl, rfl, rfl, id, id⟩

/-- Keeping composes. -/
theorem State.Keeps.trans {a b c : State} (h : a.Keeps b) (k : b.Keeps c) : a.Keeps c := by
  obtain ⟨a1, a2, a3, a4⟩ := h.args
  obtain ⟨b1, b2, b3, b4⟩ := k.args
  obtain ⟨c1, c2, c3⟩ := h.command
  obtain ⟨d1, d2, d3⟩ := k.command
  obtain ⟨e1, e2, e3, e4⟩ := h.latches
  obtain ⟨f1, f2, f3, f4⟩ := k.latches
  exact ⟨k.params.trans h.params, ⟨b1.trans a1, b2.trans a2, b3.trans a3, b4.trans a4⟩,
    ⟨d1.trans c1, d2.trans c2, d3.trans c3⟩, ⟨f1.trans e1, f2.trans e2, f3.trans e3, f4.trans e4⟩,
    k.agenda.trans h.agenda, k.rdata.trans h.rdata, k.badAccess.trans h.badAccess, k.unwrittenVec ∘ h.unwrittenVec,
    k.entropyRange ∘ h.entropyRange⟩

theorem State.keeps_complete (s : State) (c : ErrCode) : s.Keeps (s.complete c) := State.keeps_of_fields s ..
theorem State.keeps_sweep (s : State) (N K : Nat) : s.Keeps (s.sweep N K) := State.keeps_of_fields s ..
theorem State.keeps_scrambleRows (s : State) : s.Keeps s.scrambleRows := State.keeps_of_fields s ..
theorem State.keeps_setUnrank (s : State) (w : UnrankWork) : s.Keeps (s.setUnrank w) := State.keeps_of_fields s ..
theorem State.keeps_setRes0 (s : State) (v : Word) : s.Keeps (s.setRes0 v) := State.keeps_of_fields s ..
theorem State.keeps_setRes1 (s : State) (v : Word) : s.Keeps (s.setRes1 v) := State.keeps_of_fields s ..
theorem State.keeps_setVecFrom0 (s : State) (vs : List Word) : s.Keeps (s.setVecFrom0 vs) := State.keeps_of_fields s ..
theorem State.keeps_drawn (s : State) : s.Keeps s.drawn := State.keeps_of_fields s ..
theorem State.keeps_takeAnswer (s : State) : s.Keeps s.takeAnswer := State.keeps_of_fields s ..
theorem State.keeps_postRequest (s : State) (ft : Word) : s.Keeps (s.postRequest ft) := State.keeps_of_fields s ..

theorem State.keeps_recordUnwrittenVec (s : State) : s.Keeps s.recordUnwrittenVec :=
  ⟨rfl, ⟨rfl, rfl, rfl, rfl⟩, ⟨rfl, rfl, rfl⟩, ⟨rfl, rfl, rfl, rfl⟩, rfl, rfl, rfl, fun _ => rfl, id⟩

theorem State.keeps_breakEntropy (s : State) (ft : Word) : s.Keeps (s.breakEntropy ft) :=
  ⟨rfl, ⟨rfl, rfl, rfl, rfl⟩, ⟨rfl, rfl, rfl⟩, ⟨rfl, rfl, rfl, rfl⟩, rfl, rfl, rfl, id, fun _ => rfl⟩

/-- Reading VEC changes the fault record and the draw counter alone (10_state.md R35; log 16). -/
theorem State.afterVecRead_cases (s : State) (N : Nat) :
    (s.vecMissing N = true ∧ s.afterVecRead N = s.recordUnwrittenVec.drawn) ∨
    (s.vecMissing N = false ∧ s.afterVecRead N = s) := by
  unfold State.afterVecRead
  cases s.vecMissing N
  · exact .inr ⟨rfl, rfl⟩
  · exact .inl ⟨rfl, rfl⟩

theorem State.keeps_afterVecRead (s : State) (N : Nat) : s.Keeps (s.afterVecRead N) := by
  rcases s.afterVecRead_cases N with ⟨_, e⟩ | ⟨_, e⟩ <;> rw [e]
  · exact s.keeps_recordUnwrittenVec.trans (State.keeps_drawn _)
  · exact State.keeps_of_fields s ..

/-! ### How a command's step ends -/

/-- A command's step ends in a completion, in PVQ_DECODE's request, or in the stuck block of an ENTROPY_RANGE fault
(10_state.md R31; 42_pvq_decode.md R160 to R162, R165; 60_exceptions.md R221). -/
inductive Ending (i : Instr) (s : State) : State → Prop
  /-- A completion with the code `c`; with an error nothing but PVQ_DECODE's RES1 for ERR(e) is written, and only
  PVQ_DECODE and SPREAD write VEC. -/
  | completes (t : State) (c : ErrCode) (keeps : s.Keeps t) (request : t.request = s.request)
      (answer : t.answer = s.answer ∨ (t.answer = none ∧ i = .pvqDecode)) (phase : t.phase = .idle)
      (status : t.status = s.status.complete c)
      (vec : t.mem = s.mem ∨ (c = .ok ∧ (i = .pvqDecode ∨ i = .spread)))
      (error : c ≠ .ok → t.res0 = s.res0 ∧ t.mem = s.mem ∧
        (t.res1 = s.res1 ∨ (c = .entropy ∧ ∃ e, s.answer = some (.err e) ∧ t.res1 = e))) : Ending i s t
  /-- PVQ_DECODE asks for an index. -/
  | asks (ft : Word) (command : i = .pvqDecode) (none_held : s.answer = none) (n_pos : 1 ≤ s.u0)
      (n_max : s.u0 ≤ s.params.nmax) (k_pos : 1 ≤ s.u1) (k_max : s.u1 ≤ s.params.kmax)
      (bound : ft = wordOfNat (vsat s.u0 s.u1)) (fits : vsat s.u0 s.u1 < 2 ^ 31) :
      Ending i s ((s.sweep s.u0 s.u1).postRequest ft)
  /-- PVQ_DECODE holds an index out of range (log 22). -/
  | breaks (ft u : Word) (command : i = .pvqDecode) (held : s.answer = some (.ok u))
      (bound : ft = wordOfNat (vsat s.u0 s.u1)) (fits : vsat s.u0 s.u1 < 2 ^ 31) (out : ft.toNat ≤ u.toNat) :
      Ending i s (s.breakEntropy ft)

/-- A completion that writes no result but with an error code. -/
theorem Ending.of_error (i : Instr) (s : State) (c : ErrCode) : Ending i s (s.complete c) :=
  .completes _ c (s.keeps_complete c) rfl (.inl rfl) rfl rfl (.inl rfl) fun _ => ⟨rfl, rfl, .inl rfl⟩

theorem Ending.of_swept_error (i : Instr) (s : State) (c : ErrCode) (N K : Nat) : Ending i s ((s.sweep N K).complete c) :=
  .completes _ c ((s.keeps_sweep N K).trans (State.keeps_complete _ c)) rfl (.inl rfl) rfl rfl (.inl rfl)
    fun _ => ⟨rfl, rfl, .inl rfl⟩

theorem Ending.of_res0 (i : Instr) (s : State) (v : Word) : Ending i s ((s.setRes0 v).complete .ok) :=
  .completes _ .ok ((s.keeps_setRes0 v).trans (State.keeps_complete _ _)) rfl (.inl rfl) rfl rfl (.inl rfl)
    fun h => absurd rfl h

theorem Ending.of_swept_res0 (i : Instr) (s : State) (N K : Nat) (v : Word) :
    Ending i s (((s.sweep N K).setRes0 v).complete .ok) :=
  .completes _ .ok ((s.keeps_sweep N K).trans ((State.keeps_setRes0 _ v).trans (State.keeps_complete _ _))) rfl (.inl rfl)
    rfl rfl (.inl rfl) fun h => absurd rfl h

/-- PVQ_DECODE ends in one of the three ways. -/
theorem execPvqDecode_ending (s : State) : ∃ t, execPvqDecode s = .next t ∧ Ending .pvqDecode s t := by
  rcases execPvqDecode_cases s with ⟨_, h⟩ | ⟨_, _, h⟩ | ⟨h1, h2, h4, ⟨_, h⟩ | ⟨_, _, h⟩ | ⟨_, _, h⟩ | ⟨h3, _, h6, h⟩⟩ <;>
    refine ⟨_, h, ?_⟩
  · exact .of_error ..
  · exact .of_error ..
  · exact .completes _ .ok ((s.keeps_setVecFrom0 _).trans ((State.keeps_setRes0 _ _).trans ((State.keeps_setRes1 _ _).trans
      (State.keeps_complete _ _)))) rfl (.inl rfl) rfl rfl (.inr ⟨rfl, .inl rfl⟩) fun h => absurd rfl h
  · exact .of_swept_error ..
  · exact .of_swept_error ..
  · rcases pvqDraw_cases s s.u0 s.u1 (wordOfNat (vsat s.u0 s.u1)) with ⟨ha, e⟩ | ⟨x, ha, e⟩ | ⟨u, ha, hu, e⟩ | ⟨u, ha, hu, e⟩ <;>
      rw [e]
    · exact .asks _ rfl ha h1 h2 h3 h4 rfl h6
    · exact .completes _ .entropy ((s.keeps_setRes1 x).trans ((State.keeps_takeAnswer _).trans (State.keeps_complete _ _)))
        rfl (.inr ⟨rfl, rfl⟩) rfl rfl (.inl rfl) fun _ => ⟨rfl, rfl, .inr ⟨rfl, x, ha, rfl⟩⟩
    · rw [pvqDeliver_frame]
      exact .completes _ .ok (State.keeps_of_fields s ..) rfl (.inr ⟨rfl, rfl⟩) rfl rfl (.inr ⟨rfl, .inl rfl⟩)
        fun h => absurd rfl h
    · exact .breaks _ u rfl ha rfl h6 hu

/-- SPREAD always completes. -/
theorem execSpread_ending (s : State) : ∃ t, execSpread s = .next t ∧ Ending .spread s t := by
  rcases execSpread_cases s with ⟨_, h⟩ | ⟨_, _, h⟩ | ⟨_, _, hpast⟩
  · exact ⟨_, h, .of_error ..⟩
  · exact ⟨_, h, .of_error ..⟩
  rcases hpast with ⟨_, h⟩ | ⟨_, _, _, h⟩ | ⟨_, _, _, _, h⟩ | ⟨_, _, _, _, h⟩
  · exact ⟨_, h, .of_error ..⟩
  · exact ⟨_, h, .of_error ..⟩
  · exact ⟨_, h, .of_error ..⟩
  · refine ⟨_, h, ?_⟩
    have hk := s.keeps_afterVecRead s.u0
    have hs : (s.afterVecRead s.u0).request = s.request ∧ (s.afterVecRead s.u0).answer = s.answer ∧
        (s.afterVecRead s.u0).status = s.status := by
      rcases s.afterVecRead_cases s.u0 with ⟨_, e⟩ | ⟨_, e⟩ <;> rw [e] <;> exact ⟨rfl, rfl, rfl⟩
    have hrun : ∃ vs, spreadRun s s.u0 s.u1 s.u2 s.u3 = ((s.afterVecRead s.u0).setVecFrom0 vs).complete .ok ∨
        spreadRun s s.u0 s.u1 s.u2 s.u3 = (((s.afterVecRead s.u0).setVecFrom0 vs).drawn).complete .ok := by
      rcases spreadRun_cases s s.u0 s.u1 s.u2 s.u3 with ⟨_, e⟩ | ⟨_, e⟩
      · exact ⟨_, .inr e⟩
      · exact ⟨_, .inl e⟩
    obtain ⟨vs, hrun⟩ := hrun
    generalize s.afterVecRead s.u0 = x at hk hs hrun
    rcases hrun with e | e <;> rw [e]
    · exact .completes _ .ok (hk.trans ((State.keeps_setVecFrom0 _ _).trans (State.keeps_complete _ _))) hs.1 (.inl hs.2.1) rfl
        (congrArg (Status.complete · .ok) hs.2.2) (.inr ⟨rfl, .inr rfl⟩) fun h => absurd rfl h
    · exact .completes _ .ok (hk.trans ((State.keeps_setVecFrom0 _ _).trans ((State.keeps_drawn _).trans
        (State.keeps_complete _ _)))) hs.1 (.inl hs.2.1) rfl (congrArg (Status.complete · .ok) hs.2.2)
        (.inr ⟨rfl, .inr rfl⟩) fun h => absurd rfl h

/-- Every command, from every state, answers a next state, in one of the three ways. -/
theorem exec_ending (i : Instr) (s : State) : ∃ t, exec i s = .next t ∧ Ending i s t := by
  cases i
  case ilog => exact ⟨_, rfl, .of_res0 ..⟩
  case fmul15 => exact ⟨_, rfl, .of_res0 ..⟩
  case bcos => exact ⟨_, rfl, .of_res0 ..⟩
  case blog2tan => exact ⟨_, rfl, .of_res0 ..⟩
  case isqrt => exact ⟨_, rfl, .of_res0 ..⟩
  case cwrsV =>
    rcases execCwrsV_cases s with ⟨_, h⟩ | ⟨_, h⟩
    · exact ⟨_, h, .of_error ..⟩
    · exact ⟨_, h, .of_swept_res0 ..⟩
  case getpulses =>
    rcases execGetpulses_cases s with ⟨_, h⟩ | ⟨_, h⟩
    · exact ⟨_, h, .of_error ..⟩
    · exact ⟨_, h, .of_res0 ..⟩
  case fits32 =>
    rcases execFits32_cases s with ⟨_, h⟩ | ⟨_, h⟩
    · exact ⟨_, h, .of_error ..⟩
    · exact ⟨_, h, .of_swept_res0 ..⟩
  case thresh =>
    exact ⟨_, rfl, .completes _ .ok (s.keeps_scrambleRows.trans ((State.keeps_setRes0 _ _).trans
      ((State.keeps_setRes1 _ _).trans (State.keeps_complete _ _)))) rfl (.inl rfl) rfl rfl (.inl rfl) fun h => absurd rfl h⟩
  case pvqDecode => exact execPvqDecode_ending s
  case spread => exact execSpread_ending s

/-- A command keeps what no command changes. -/
theorem Ending.keeps {i : Instr} {s t : State} (h : Ending i s t) : s.Keeps t := by
  cases h with
  | completes _ _ keeps => exact keeps
  | asks => exact (State.keeps_sweep _ _ _).trans (State.keeps_postRequest _ _)
  | breaks => exact State.keeps_breakEntropy _ _

end Sys2Proof.Machine
end

