-- ==== Sys2Proof/Laws/PerInstr.lean ====
section
/-! SUPPORT. Statements made instruction by instruction about the syntax. -/

namespace Sys2Proof.Laws.Encoding

/-- The instruction is well formed, its command word is a well-formed one whose OP is the instruction's opcode, and the word
decodes to the instruction (30_encoding.md R70, R72, R73). -/
def Statement (i : Instr) : Prop :=
  i.wellFormed = true ∧ (cmdFields (encode i)).wellFormed = true ∧ (cmdFields (encode i)).op = opcodeOf i ∧
  decode (encode i) = .ok i

theorem ilog : Statement .ilog := by unfold Statement; decide
theorem fmul15 : Statement .fmul15 := by unfold Statement; decide
theorem bcos : Statement .bcos := by unfold Statement; decide
theorem blog2tan : Statement .blog2tan := by unfold Statement; decide
theorem isqrt : Statement .isqrt := by unfold Statement; decide
theorem cwrsV : Statement .cwrsV := by unfold Statement; decide
theorem getpulses : Statement .getpulses := by unfold Statement; decide
theorem fits32 : Statement .fits32 := by unfold Statement; decide
theorem thresh : Statement .thresh := by unfold Statement; decide
theorem pvqDecode : Statement .pvqDecode := by unfold Statement; decide
theorem spread : Statement .spread := by unfold Statement; decide

end Sys2Proof.Laws.Encoding
end

