-- ==== Sys2Proof/Tests/Slice0.lean ====
section
/-! SUPPORT. The model's own tests. Expected results come from the tables of 95_test_vectors.md, or from the encodings of
30_encoding.md written out; the witnesses show that the premises of the statements can be met. -/

namespace Sys2Proof.Tests

open Sys2Proof Sys2Proof.Machine Sys2Proof.Claims

/- One theorem is checked at a time: a thread for each would exceed the memory limit. -/
set_option Elab.async false

/-! ### Helpers -/

/-- The machine after reset, with the parameters of 95_test_vectors.md. -/
def fresh : State := State.resetWith Params.reference

/-- A command accepted with these operands, VEC[0..] holding the listed words. -/
def running (w l0 l1 l2 l3 : Word) (vec : List Word) : State :=
  { fresh.setVecFrom0 vec with
    cmd := w, lcmd := w, lop := latchOp w, l0 := l0, l1 := l1, l2 := l2, l3 := l3
    status := Status.accept Status.reset, phase := .exec }

/-- PVQ_DECODE 3, 1 waiting for an index below 6. -/
def waiting : State := { running 0xA 3 1 0 0 [] with phase := .waitEnt 6, request := some 6 }

/-- (RES0, RES1, STATUS) of a next state. -/
def results : Host.Outcome State Fault Refusal → Option (Word × Word × Word)
  | .next t => some (t.res0, t.res1, t.status.word)
  | _ => none

/-- VEC[0..n-1] of a next state. -/
def vecs (n : Nat) : Host.Outcome State Fault Refusal → List (Option Word)
  | .next t => (List.range n).map t.vec
  | _ => []

/-- The recorded host faults and BUSY of a next state. -/
def faultsOf : Host.Outcome State Fault Refusal → Option (HostFaults × Bool)
  | .next t => some (t.faults, t.status.busy)
  | _ => none

/-! ### WellFormed: one ill-formed term for each check -/

theorem test_reserved_bit_is_ill_formed : (CmdWord.reservedClear { op := 0x5, rsv := 0x8000000 }) = false := by decide
theorem test_opcode_0_is_ill_formed : (CmdWord.opcodeDefined { op := 0x0, rsv := 0 }) = false := by decide
theorem test_opcode_C_is_ill_formed : (CmdWord.wellFormed { op := 0xC, rsv := 0 }) = false := by decide
theorem test_opcode_B_is_well_formed : (CmdWord.wellFormed { op := 0xB, rsv := 0 }) = true := by decide
theorem test_nmax_0_is_ill_formed : ({ Params.reference with nmax := 0 } : Params).nmaxLegal = false := by decide
theorem test_kmax_below_GP_is_ill_formed : ({ Params.reference with kmax := 127 } : Params).kmaxLegal = false := by decide
theorem test_pseudoMax_240_is_ill_formed : ({ Params.reference with pseudoMax := 240 } : Params).pseudoMaxLegal = false := by
  decide
theorem test_base_2_is_ill_formed : ({ Params.reference with base := 2 } : Params).baseLegal = false := by decide
theorem test_reference_is_well_formed : Params.reference.wellFormed = true := by decide

/-! ### Decoding: the words of 30_encoding.md R70 and R72, bit by bit (RSV in bits 31:4, OP in bits 3:0) -/

theorem test_decode_ilog : decode 0b00000000000000000000000000000001#32 = .ok .ilog := by decide
theorem test_decode_fmul15 : decode 0b00000000000000000000000000000010#32 = .ok .fmul15 := by decide
theorem test_decode_bcos : decode 0b00000000000000000000000000000011#32 = .ok .bcos := by decide
theorem test_decode_blog2tan : decode 0b00000000000000000000000000000100#32 = .ok .blog2tan := by decide
theorem test_decode_isqrt : decode 0b00000000000000000000000000000101#32 = .ok .isqrt := by decide
theorem test_decode_cwrsV : decode 0b00000000000000000000000000000110#32 = .ok .cwrsV := by decide
theorem test_decode_getpulses : decode 0b00000000000000000000000000000111#32 = .ok .getpulses := by decide
theorem test_decode_fits32 : decode 0b00000000000000000000000000001000#32 = .ok .fits32 := by decide
theorem test_decode_thresh : decode 0b00000000000000000000000000001001#32 = .ok .thresh := by decide
theorem test_decode_pvqDecode : decode 0b00000000000000000000000000001010#32 = .ok .pvqDecode := by decide
theorem test_decode_spread : decode 0b00000000000000000000000000001011#32 = .ok .spread := by decide
theorem test_decode_opcode_0 : decode 0x00000000 = .error .reservedOpcode := by decide
theorem test_decode_opcode_C : decode 0x0000000C = .error .reservedOpcode := by decide
theorem test_decode_opcode_F : decode 0x0000000F = .error .reservedOpcode := by decide
theorem test_decode_rsv_bit_4 : decode 0x00000011 = .error .reservedBitsSet := by decide
theorem test_decode_rsv_bit_31 : decode 0x80000005 = .error .reservedBitsSet := by decide
theorem test_decode_bytes_little_endian : decodeBytes [0x0A, 0x00, 0x00, 0x00, 0x55] = .ok (.pvqDecode, [0x55]) := by decide
theorem test_decode_bytes_big_endian_is_illegal : decodeBytes [0x00, 0x00, 0x00, 0x0A] = .error .reservedBitsSet := by decide
theorem test_decode_bytes_truncated : decodeBytes [0x0A, 0x00, 0x00] = .error .truncated := by decide
theorem test_decodeTableWord : decodeTableWord 32 0xB = some .spread ∧ decodeTableWord 32 0xC = none := by decide
theorem test_withFetchWord_runs_it :
    results (step (fresh.withFetchWord 32 0x1)) = some (0, 0, 0x00000002) := by decide +kernel

/-! ### One step of each command (95_test_vectors.md 2.1 to 2.9) -/

theorem test_ilog_2pow31 : results (exec .ilog (running 0x1 0x80000000 0 0 0 [])) = some (32, 0, 2) := by decide +kernel
theorem test_ilog_0 : results (exec .ilog (running 0x1 0 0 0 0 [])) = some (0, 0, 2) := by decide +kernel
theorem test_fmul15_17_bits :
    results (exec .fmul15 (running 0x2 0xFFFF8000 0xFFFF8000 0 0 [])) = some (0x00008000, 0, 2) := by decide +kernel
theorem test_fmul15_negative_tie :
    results (exec .fmul15 (running 0x2 0xFFFFFFFD 16384 0 0 [])) = some (0xFFFFFFFF, 0, 2) := by decide +kernel
theorem test_bcos_0_wraps : results (exec .bcos (running 0x3 0 0 0 0 [])) = some (0xFFFF8000, 0, 2) := by decide +kernel
theorem test_bcos_12288 : results (exec .bcos (running 0x3 12288 0 0 0 [])) = some (0x000030FC, 0, 2) := by decide +kernel
theorem test_blog2tan_order :
    results (exec .blog2tan (running 0x4 12540 30274 0 0 [])) = some (0xFFFFF5CD, 0, 2) := by decide +kernel
theorem test_blog2tan_saturates :
    results (exec .blog2tan (running 0x4 0xFFFF8000 16554 0 0 [])) = some (Config.l2tNeg, 0, 2) := by rfl
theorem test_isqrt_below_square : results (exec .isqrt (running 0x5 0xFFFE0000 0 0 0 [])) = some (65534, 0, 2) := by
  decide +kernel
theorem test_isqrt_square : results (exec .isqrt (running 0x5 0xFFFE0001 0 0 0 [])) = some (65535, 0, 2) := by decide +kernel
theorem test_cwrsV_8_33 : results (exec .cwrsV (running 0x6 8 33 0 0 [])) = some (0x845CFE10, 0, 2) := by decide +kernel
theorem test_cwrsV_saturates : results (exec .cwrsV (running 0x6 16 16 0 0 [])) = some (0xFFFFFFFF, 0, 2) := by
  decide +kernel
theorem test_getpulses_239 : results (exec .getpulses (running 0x7 239 0 0 0 [])) = some (0xF0000000, 0, 2) := by
  decide +kernel
theorem test_getpulses_240 : results (exec .getpulses (running 0x7 240 0 0 0 [])) = some (0, 0, 0x00000A02) := by
  decide +kernel
theorem test_fits32_16_11 : results (exec .fits32 (running 0x8 16 11 0 0 [])) = some (1, 0, 2) := by decide +kernel
theorem test_fits32_16_12 : results (exec .fits32 (running 0x8 16 12 0 0 [])) = some (0, 0, 2) := by decide +kernel
theorem test_thresh_32 : results (exec .thresh (running 0x9 32 0 0 0 [])) = some (252, 7, 2) := by decide +kernel
theorem test_pvqDecode_posts :
    (match exec .pvqDecode (running 0xA 3 1 0 0 []) with | .next t => (t.request, t.phase) | _ => (none, .idle)) =
      (some 6, .waitEnt 6) := by decide +kernel
theorem test_pvqDecode_answer_4 :
    vecs 4 (exec .pvqDecode { running 0xA 3 1 0 0 [] with answer := some (.ok 4) }) =
      [some 0, some 0xFFFFFFFF, some 0, none] := by decide +kernel
theorem test_unrank_8_16_12345 : unrank 8 16 12345 = [10, 0, 1, -1, 2, 0, -1, 1] := by decide +kernel
/-- Row A: c = 0x3F7F7959, s = 0x3D833740. -/
theorem test_rotate_row_A :
    spreadTheta 4 1 2 = 0x3D272F06 ∧
    rotate [0x3F800000, 0, 0, 0] 0 4 1 0x3F7F7959 0x3D833740 = [0x3F7DE827, 0x3E0268C3, 0x3C061921, 0x3989E452] := by
  decide +kernel
/-- Row F: two blocks of 8, pre-rotated with stride 3. -/
theorem test_rotate_row_F :
    spreadTheta 16 1 3 = 0x3E949B93 ∧ stride 8 = 3 ∧
    rotateBlock [0x3F800000, 0, 0, 0, 0, 0, 0, 0] 0 8 0x3F65D9D5 0x3EE16DD2 =
      [0xBE2FE9C7, 0x3CB2E3D4, 0xBEAD7E2A, 0x3D95438D, 0x3F11F7BC, 0xBECDAE14, 0x3EFFC6C3, 0x3EACBCC2] := by
  decide +kernel

/-! ### Protocol (95_test_vectors.md 2.7, 2.8, P5) -/

theorem test_illegal_word_completes :
    results (step { running 0x1B 0 0 0 0 [] with agenda := [.block] }) = some (0, 0, 0x00000702) := by decide +kernel
theorem test_busy_write_sets_ovr :
    results (step { waiting with agenda := [.write 32 0x008 5] }) = some (0, 0, 0x00000005) := by decide +kernel
theorem test_out_of_range_answer_is_recorded :
    faultsOf (step { waiting with agenda := [.answer (.ok 6)] }) =
      some ({ HostFaults.none with entropyRange := true }, true) := by decide +kernel
theorem test_halfword_read_is_bad :
    faultsOf (step { fresh with agenda := [.read 16 0x004] }) =
      some ({ HostFaults.none with badAccess := true }, false) := by decide +kernel
theorem test_read_of_unwritten_vec :
    faultsOf (step { fresh with agenda := [.read 32 0x100] }) =
      some ({ HostFaults.none with unwrittenVec := true }, false) := by decide +kernel
theorem test_vec_write_is_little_endian :
    (match step { fresh with agenda := [.write 32 0x104 0x11223344] } with | .next t => t.mem | _ => []) =
      [(0x104, 0x44), (0x105, 0x33), (0x106, 0x22), (0x107, 0x11)] := by decide +kernel

/-! ### Witnesses: states and operands that meet the premises of the statements, at the boundaries of their ranges -/

theorem witness_StepRunsTheLatchedCommand :
    (running 0xB 0 0 0 0 []).phase = .exec ∧ (running 0xB 0 0 0 0 []).lop = latchOp (running 0xB 0 0 0 0 []).lcmd ∧
    decode (running 0xB 0 0 0 0 []).lcmd = .ok .spread ∧ (running 0xB 0 0 0 0 []).agenda = [] ∧
    ({ running 0xB 0 0 0 0 [] with agenda := [.block, .reset] } : State).agenda = [.block, .reset] := by decide +kernel

theorem witness_CommandWriteIsAcceptedInOneStep :
    fresh.status.busy = false ∧
    ({ fresh with agenda := [.write 32 fresh.params.base 0xB] } : State).agenda = [.write 32 fresh.params.base 0xB] := by decide

theorem witness_IllegalWordCompletesWithIllegalCmd :
    fresh.status.busy = false ∧
    (0x00000000 : Word).extractLsb' 0 4 = 0 ∧ 0xC ≤ ((0x0000000C : Word).extractLsb' 0 4).toNat ∧
    (0x00000011 : Word).extractLsb' 4 28 ≠ 0 ∧
    ({ fresh with agenda := [.write 32 fresh.params.base 0x11, .block] } : State).agenda =
      [.write 32 fresh.params.base 0x11, .block] := by decide

theorem witness_WaitingBlockStepsOnlyOnAnAnswer :
    waiting.phase = .waitEnt 6 ∧ waiting.agenda = List.replicate 0 .block ∧
    ({ waiting with agenda := [.block, .block] } : State).agenda = List.replicate 2 .block ∧ waiting.request = some 6 ∧
    (5 : Word).toNat < (6 : Word).toNat ∧
    ({ waiting with agenda := [.answer (.ok 5)] } : State).agenda = [.answer (.ok 5)] := by decide +kernel

theorem witness_OutOfRangeAnswerStopsTheBlock :
    waiting.phase = .waitEnt 6 ∧ waiting.request = some 6 ∧ (6 : Word).toNat ≤ (6 : Word).toNat ∧
    waiting.status.busy = true ∧
    ({ waiting with agenda := [.answer (.ok 6), .block, .answer (.ok 0)] } : State).agenda =
      [.answer (.ok 6), .block, .answer (.ok 0)] ∧
    (∀ x ∈ [Turn.block, .answer (.ok 0)], x ≠ .reset) ∧
    (results (core.run 3 { waiting with agenda := [.answer (.ok 6), .block, .answer (.ok 0)] })).isSome := by decide +kernel

theorem witness_ResetAbandonsTheCommand :
    ({ waiting with agenda := [.reset, .block] } : State).agenda = .reset :: List.replicate 1 .block ∧
    ({ waiting with agenda := [.lateAnswer (.ok 0)] } : State).agenda = [.lateAnswer (.ok 0)] ∧
    ({ fresh with agenda := [.answer (.ok 0)] } : State).request = none := by decide +kernel

theorem witness_ResetInputTakesTheTableValues :
    ({ waiting with agenda := [.reset] } : State).agenda = [.reset] := by decide +kernel

theorem witness_AccessWhileBusy :
    waiting.status.busy = true ∧ 0x1FFC % 4 = 0 ∧
    ({ waiting with agenda := [.write 32 (waiting.params.base + 0x1FFC) 1] } : State).agenda =
      [.write 32 (waiting.params.base + 0x1FFC) 1] ∧
    ({ waiting with agenda := [.read 32 (waiting.params.base + 0x014)] } : State).agenda =
      [.read 32 (waiting.params.base + 0x014)] ∧
    15 < waiting.params.nmax ∧
    ({ waiting with agenda := [.read 32 (waiting.params.base + (0x100 + 4 * 15))] } : State).agenda =
      [.read 32 (waiting.params.base + (0x100 + 4 * 15))] := by decide +kernel

theorem witness_AccessesHaveNoSideEffectButAccept :
    fresh.status.busy = false ∧ Memory.wf fresh.mem ∧ ((fresh.setVec 15 7).vec 15).isSome ∧ 0x13C % 4 = 0 ∧
    0x13C = 0x100 + 4 * 15 ∧ 0x13C ≠ 0 ∧ busTarget fresh.params 0x13C = .vec 15 ∧ waiting.status.busy = true ∧
    (results (step { fresh with agenda := [.read 32 0x13C] })).isSome := by decide +kernel

theorem witness_IdleAccessesFollowTheRegisterMap :
    fresh.status.busy = false ∧ Memory.wf fresh.mem ∧ 15 < fresh.params.nmax ∧ (fresh.setVec 15 7).vec 15 = some 7 ∧
    ({ fresh with agenda := [.read 32 (fresh.params.base + 0x01C)] } : State).agenda =
      [.read 32 (fresh.params.base + 0x01C)] ∧
    ({ fresh with agenda := [.write 32 (fresh.params.base + (0x100 + 4 * 15)) 7] } : State).agenda =
      [.write 32 (fresh.params.base + (0x100 + 4 * 15)) 7] := by decide +kernel

theorem witness_ReservedOffsetsReadZeroAndIgnoreWrites :
    (0x020 % 4 = 0 ∧ 0x020 ≤ 0x020 ∧ 0x020 < 0x100) ∧ (0x0FC % 4 = 0 ∧ 0x020 ≤ 0x0FC ∧ 0x0FC < 0x100) ∧
    (0x140 % 4 = 0 ∧ 0x100 + 4 * fresh.params.nmax ≤ 0x140) ∧ fresh.status.busy = false ∧ waiting.status.busy = true ∧
    ({ fresh with agenda := [.read 32 (fresh.params.base + 0x140)] } : State).agenda =
      [.read 32 (fresh.params.base + 0x140)] := by decide +kernel

theorem witness_BadAccessIsRecordedAndChangesNothingElse :
    (16 ≠ 32 ∧ 0x006 % 4 ≠ 0) ∧
    ({ fresh with agenda := [.read 16 (fresh.params.base + 0x004)] } : State).agenda =
      [.read 16 (fresh.params.base + 0x004)] ∧
    ({ fresh with agenda := [.write 32 (fresh.params.base + 0x006) 1] } : State).agenda =
      [.write 32 (fresh.params.base + 0x006) 1] := by decide

theorem witness_ReadOfUnwrittenVecIsRecorded :
    fresh.status.busy = false ∧ 15 < fresh.params.nmax ∧ fresh.vec 15 = none ∧
    ({ fresh with agenda := [.read 32 (fresh.params.base + (0x100 + 4 * 15))] } : State).agenda =
      [.read 32 (fresh.params.base + (0x100 + 4 * 15))] := by decide +kernel

theorem witness_AccessBelowBaseStops :
    3 < ({ fresh with params := { Params.reference with base := 4 }, agenda := [.read 32 3] } : State).params.base ∧
    ({ fresh with params := { Params.reference with base := 4 }, agenda := [.read 32 3] } : State).agenda = [.read 32 3] := by
  decide +kernel

theorem witness_Fmul15WritesTheRoundedProduct : trunc16 0x10000 = 0 ∧ trunc16 0 = 0 := by decide

theorem witness_BcosCornerIntervalsAndSymmetry :
    low16 (running 0x3 0xFFFFFFC1 0 0 0 []).l0 = -63 ∧ low16 (running 0x3 63 0 0 0 []).l0 = 63 ∧
    low16 (running 0x3 64 0 0 0 []).l0 = 64 ∧ low16 (running 0x3 110 0 0 0 []).l0 = 110 ∧
    low16 (running 0x3 111 0 0 0 []).l0 = 111 ∧ low16 (running 0x3 143 0 0 0 []).l0 = 143 ∧
    low16 (running 0x3 0x8001 0 0 0 []).l0 = -low16 (running 0x3 0x7FFF 0 0 0 []).l0 ∧
    low16 (running 0x3 16384 0 0 0 []).l0 = 16384 := by decide +kernel

theorem witness_LogTangentStaysInRange :
    (1 ≤ 32767 ∧ 32767 ≤ 32767) ∧ (16384 ≤ (16384 : Int) ∧ (16384 : Int) ≤ 32767) ∧ 16384 ≤ (32767 : Int) := by decide

theorem witness_FixedPointPrimitivesArePure :
    Instr.isqrt ∈ [Instr.ilog, Instr.fmul15, Instr.bcos, Instr.blog2tan, Instr.isqrt] ∧
    (running 0x5 99 1 2 3 []).l0 = (running 0x5 99 1 0 0 [7]).l0 ∧
    (running 0x5 99 1 2 3 []).l1 = (running 0x5 99 1 0 0 [7]).l1 := by decide +kernel

theorem witness_SaturationLaw : 128 ≤ 128 ∧ 0 ≤ 128 := by decide

theorem witness_CwrsVWritesTheSaturatedCodebookSize :
    (running 0x6 8 128 0 0 []).l1.toNat ≤ fresh.params.kmax ∧ fresh.params.kmax < (running 0x6 8 129 0 0 []).l1.toNat := by
  decide +kernel

theorem witness_GetpulsesWritesThePulseCount :
    (running 0x7 239 0 0 0 []).l0.toNat ≤ 239 ∧ 239 < (running 0x7 240 0 0 0 []).l0.toNat ∧ 238 < 239 := by decide +kernel

theorem witness_Fits32DecidesBelowTwoToThe31 :
    (running 0x8 8 128 0 0 []).l1.toNat ≤ fresh.params.kmax ∧ fresh.params.kmax < (running 0x8 8 129 0 0 []).l1.toNat := by
  decide +kernel

theorem witness_FittingIndicesAreAnInitialSegment :
    1 ≤ 16 ∧ 2 ≤ 16 ∧ 10 ≤ 11 ∧ 11 ≤ 239 ∧ fits 16 (gp 11) = 1 := by decide +kernel

theorem witness_PvqDecodeRefusesInItsCheckOrder :
    (running 0xA 0 0 0 0 []).l0.toNat = 0 ∧
    (1 ≤ (running 0xA 17 1 0 0 []).l0.toNat ∧ fresh.params.nmax < (running 0xA 17 1 0 0 []).l0.toNat) ∧
    (1 ≤ (running 0xA 1 129 0 0 []).l0.toNat ∧ fresh.params.kmax < (running 0xA 1 129 0 0 []).l1.toNat) ∧
    (1 ≤ (running 0xA 16 12 0 0 []).l0.toNat ∧ 1 ≤ (running 0xA 16 12 0 0 []).l1.toNat ∧
      (running 0xA 16 12 0 0 []).l0.toNat ≤ fresh.params.nmax ∧ (running 0xA 16 12 0 0 []).l1.toNat ≤ fresh.params.kmax ∧
      2 ^ 31 ≤ codebook 16 12) := by decide +kernel

theorem witness_PvqDecodeOfZeroPulsesWritesZeros :
    Memory.wf (running 0xA 16 0 0 0 []).mem ∧ 1 ≤ (running 0xA 16 0 0 0 []).l0.toNat ∧
    (running 0xA 16 0 0 0 []).l0.toNat ≤ fresh.params.nmax ∧ (running 0xA 16 0 0 0 []).l1.toNat = 0 := by decide +kernel

/-- PVQ_DECODE 16, 11: the largest N, with V(16,11) = 1219605600. -/
theorem running_drawsFor : drawsFor (running 0xA 16 11 0 0 []) := by
  unfold drawsFor
  decide +kernel

theorem witness_OnlyPvqDecodePostsOneRequest :
    drawsFor (running 0xA 16 11 0 0 []) ∧ (running 0xA 16 11 0 0 []).answer = none ∧ Instr.spread ≠ .pvqDecode ∧
    ¬ drawsFor (running 0xA 16 12 0 0 []) ∧
    ({ running 0xA 3 1 0 0 [] with answer := some (.ok 5) } : State).request = none := by
  refine ⟨running_drawsFor, rfl, by decide, ?_, rfl⟩
  unfold drawsFor
  decide +kernel

theorem witness_PvqDecodeDeliversThePulseVector :
    Memory.wf (running 0xA 16 11 0 0 []).mem ∧ drawsFor (running 0xA 16 11 0 0 []) ∧
    ({ running 0xA 16 11 0 0 [] with answer := some (.ok 1219605599) } : State).answer = some (.ok 1219605599) ∧
    (1219605599 : Word).toNat < codebook 16 11 := by
  refine ⟨by decide +kernel, running_drawsFor, rfl, by decide +kernel⟩

/-- The steps of R166 for unrank(3, 1, 4), by hand: V(2,1) = 4, V(3,1) = 6, V(1,1) = 2, V(0,1) = 0 and V(n,0) = 1. Position
0 splits at 5 and scans no pulse; position 1 splits at 3 and scans one under the minus sign; position 2 has none left
(42_pvq_decode.md R165, the example of OK(4)). -/
theorem test_unrankSteps_of_the_example : UnrankSteps 3 1 4 [0, -1, 0] := by
  refine ⟨0, 4, 3, [-1, 0], by decide, by decide +kernel, by decide, by decide +kernel, by decide +kernel, by decide +kernel, ?_⟩
  refine ⟨1, 0, 0, [0], by decide, by decide +kernel, by decide +kernel, by decide +kernel, by decide +kernel, by decide +kernel, ?_⟩
  exact ⟨0, 0, 0, [], by decide, by decide +kernel, by decide, by decide +kernel, by decide +kernel, by decide +kernel, rfl⟩

theorem witness_PvqDecodePropagatesTheEntropyError :
    drawsFor { running 0xA 16 11 0 0 [] with answer := some (.err 5) } ∧
    ({ running 0xA 16 11 0 0 [] with answer := some (.err 5) } : State).answer = some (.err 5) := ⟨running_drawsFor, rfl⟩

theorem witness_UnrankingIsABijection :
    (1 ≤ 1 ∧ 1 < codebook 1 1) ∧ 1 ≤ 2 ∧ 7 < codebook 2 2 ∧ ([-1, -1] : List Int).length = 2 ∧ (([-1, -1] : List Int).map Int.natAbs).sum = 2 := by
  decide +kernel

theorem witness_UnrankingFitsItsWidth : 1 ≤ 16 ∧ 15 ≤ 16 ∧ 11 ≤ 11 ∧ codebook 16 11 < 2 ^ 31 ∧ 15 < 16 := by decide +kernel

theorem witness_PvqDecodeIsDeterminedByOperandsAndAnswer :
    drawsFor { running 0xA 16 11 0 0 [] with answer := some (.ok 3) } ∧
    ({ running 0xA 16 11 2 2 [9] with answer := some (.ok 3) } : State).l0 =
      ({ running 0xA 16 11 0 0 [] with answer := some (.ok 3) } : State).l0 ∧
    ({ running 0xA 16 11 2 2 [9] with answer := some (.ok 3) } : State).l1 =
      ({ running 0xA 16 11 0 0 [] with answer := some (.ok 3) } : State).l1 ∧
    Memory.wf (running 0xA 16 11 2 2 [9]).mem ∧ Memory.wf (running 0xA 16 11 0 0 []).mem :=
  ⟨running_drawsFor, rfl, rfl, by decide +kernel, by decide +kernel⟩

theorem witness_InvalidCodebookIsNeverRaised :
    (match exec .pvqDecode (running 0xA 16 12 0 0 []) with | .next t => t.phase | _ => .exec) = .idle := by decide +kernel

theorem witness_SpreadRefusesInItsCheckOrder :
    3 < (running 0xB 3 1 4 1 []).l2.toNat ∧
    ((running 0xB 17 0 0 1 []).l2.toNat ≤ 3 ∧ fresh.params.nmax < (running 0xB 17 0 0 1 []).l0.toNat) ∧
    ((running 0xB 3 1 1 0 []).l2.toNat ≤ 3 ∧ (running 0xB 3 1 1 0 []).l0.toNat ≤ fresh.params.nmax ∧
      (running 0xB 3 1 1 0 []).l2.toNat ≠ 0 ∧ (running 0xB 3 1 1 0 []).l1.toNat ≠ 0 ∧
      (running 0xB 3 1 1 0 []).l3.toNat = 0) ∧
    (running 0xB 3 1 1 2 []).l2.toNat ≤ 3 ∧ (running 0xB 3 1 1 2 []).l0.toNat ≤ fresh.params.nmax ∧
    (running 0xB 3 1 1 2 []).l2.toNat ≠ 0 ∧ (running 0xB 3 1 1 2 []).l1.toNat ≠ 0 ∧
    (running 0xB 3 1 1 2 []).l3.toNat ≠ 0 ∧ (running 0xB 3 1 1 2 []).l0.toNat % (running 0xB 3 1 1 2 []).l3.toNat ≠ 0 := by
  decide +kernel

theorem witness_SpreadWithoutRotationChangesNothing :
    (running 0xB 16 1 0 0 []).l2.toNat ≤ 3 ∧ (running 0xB 16 1 0 0 []).l2.toNat = 0 ∧ (running 0xB 16 1 0 0 []).l0.toNat ≤ fresh.params.nmax ∧
    (running 0xB 4 0 3 0 []).l2.toNat ≤ 3 ∧ (running 0xB 4 0 3 0 []).l0.toNat ≤ fresh.params.nmax ∧ (running 0xB 4 0 3 0 []).l1.toNat = 0 := by decide +kernel

/-- SPREAD 4, 1, 2, 1 over the samples of row A; two blocks, and the largest N, meet the checks too. -/
theorem witness_SpreadRotatesTheSamples :
    Memory.wf (running 0xB 4 1 2 1 [0x3F800000, 0, 0, 0]).mem ∧ 1 ≤ (running 0xB 4 1 2 1 []).l2.toNat ∧
    (running 0xB 4 1 2 1 []).l2.toNat ≤ 3 ∧ (running 0xB 4 1 2 1 []).l0.toNat ≤ fresh.params.nmax ∧
    (running 0xB 16 1 2 2 []).l0.toNat ≤ fresh.params.nmax ∧ 1 ≤ (running 0xB 4 1 2 1 []).l1.toNat ∧
    1 ≤ (running 0xB 4 1 2 1 []).l3.toNat ∧ (running 0xB 4 1 2 1 []).l0.toNat % (running 0xB 4 1 2 1 []).l3.toNat = 0 ∧
    (running 0xB 16 1 2 2 []).l0.toNat % (running 0xB 16 1 2 2 []).l3.toNat = 0 ∧
    ([0x3F800000, 0, 0, 0] : List Word).length = (running 0xB 4 1 2 1 []).l0.toNat ∧
    (List.range 4).map (running 0xB 4 1 2 1 [0x3F800000, 0, 0, 0]).vec =
      ([0x3F800000, 0, 0, 0] : List Word).map some ∧
    ((0x3F800000 : Word).extractLsb' 23 8).toNat ≠ 255 ∧ ((0 : Word).extractLsb' 23 8).toNat ≠ 255 := by decide +kernel

/-- The written-out form of R191 to R197 gives row A too (95_test_vectors.md). -/
theorem test_spreadOf_row_A :
    rotationAngle 4 1 2 = 0x3D272F06 ∧
    (List.range 4).map (spreadOf 0x3F7F7959 0x3D833740 4 1 fun x => [0x3F800000, 0, 0, 0].getD x 0) =
      [0x3F7DE827, 0x3E0268C3, 0x3C061921, 0x3989E452] := by
  decide +kernel

/-- The values of R198. -/
theorem test_roundedRoot : [8, 12, 13, 20, 21, 64].map roundedRoot = [3, 3, 4, 4, 5, 8] := by decide +kernel

/-- The last sample is an infinity. -/
theorem witness_SpreadOfNonFiniteSamplesCompletes :
    Memory.wf (running 0xB 4 1 3 4 [0, 0, 0, 0x7F800000]).mem ∧ 1 ≤ (running 0xB 4 1 3 4 []).l2.toNat ∧
    (running 0xB 4 1 3 4 []).l2.toNat ≤ 3 ∧ (running 0xB 4 1 3 4 []).l0.toNat ≤ fresh.params.nmax ∧
    1 ≤ (running 0xB 4 1 3 4 []).l1.toNat ∧ 1 ≤ (running 0xB 4 1 3 4 []).l3.toNat ∧
    (running 0xB 4 1 3 4 []).l0.toNat % (running 0xB 4 1 3 4 []).l3.toNat = 0 ∧
    (List.range 4).map (running 0xB 4 1 3 4 [0, 0, 0, 0x7F800000]).vec = [some 0, some 0, some 0, some 0x7F800000] ∧
    ((0x7F800000 : Word).extractLsb' 23 8).toNat = 255 := by decide +kernel

theorem witness_SpreadOverUnwrittenVecIsRecorded :
    Memory.wf (running 0xB 2 1 1 1 [0]).mem ∧ 1 ≤ (running 0xB 2 1 1 1 [0]).l2.toNat ∧
    (running 0xB 2 1 1 1 [0]).l2.toNat ≤ 3 ∧ (running 0xB 2 1 1 1 [0]).l0.toNat ≤ fresh.params.nmax ∧
    1 ≤ (running 0xB 2 1 1 1 [0]).l1.toNat ∧ 1 ≤ (running 0xB 2 1 1 1 [0]).l3.toNat ∧ (running 0xB 2 1 1 1 [0]).l0.toNat % (running 0xB 2 1 1 1 [0]).l3.toNat = 0 ∧
    1 < (running 0xB 2 1 1 1 [0]).l0.toNat ∧ (running 0xB 2 1 1 1 [0]).vec 1 = none := by decide +kernel

theorem witness_StrideIsTheRoundedSquareRoot :
    1 ≤ 1 ∧ 2 ^ 32 - 1 < 2 ^ 32 ∧ (1 ≤ 4 ∧ 4 * 4 - 4 < 20 ∧ 20 ≤ 4 * 4 + 4) := by decide

theorem witness_RotationGroupsDoNotInteract :
    (1 ≤ 3 ∧ (List.replicate 9 (0 : Word)).length = [1, 0, 2, 3, 0, 4, 5, 0, 6].length ∧ 0 + 9 ≤ 9) ∧
    (∀ i, i < 9 → i % 3 = 1 → (List.replicate 9 (0 : Word))[0 + i]? = [1, 0, 2, 3, 0, 4, 5, 0, 6][0 + i]?) := by decide

theorem witness_IntegerConversionIsExactUpTo2Pow24 :
    2 ^ 24 ≤ 2 ^ 24 ∧ floatVal (f32 (2 ^ 24)) = .fin false (2 ^ 23) 1 ∧ floatVal (f32 (2 ^ 24 - 1)) = .fin false (2 ^ 24 - 1) 0 := by
  decide +kernel

theorem witness_RoundingIsToNearestEven :
    2 * (((roundShift 5 1 false) * 2 ^ 1 : Nat) - (5 : Int)).natAbs = 2 ^ 1 ∧
    (1 ≤ 1 ∧ ((5 : Nat) : Rat) < 11 / 2 ∧ (11 / 2 : Rat) < ((5 : Nat) : Rat) + 1) ∧
    (2 ^ 24 ≤ 2 ^ 24 ∧ ((2 ^ 24 : Nat) : Rat) < 2 ^ 24 + 1 / 2 ∧ (2 ^ 24 + 1 / 2 : Rat) < ((2 ^ 24 : Nat) : Rat) + 1) := by
  refine ⟨by decide, ?_, ?_⟩ <;> norm_num

/-- 1 and 2 are finite, 2 is no zero divisor, 1 + 2 and 1 - 2 are not 0, 1 - 1 and 1 + (-1) are. -/
theorem witness_FloatOperationsRoundTheExactResult :
    (floatVal 0x3F800000 = .fin false (2 ^ 23) (-23) ∧ floatVal 0xBF800000 = .fin true (2 ^ 23) (-23) ∧
      floatVal 0x40000000 = .fin false (2 ^ 23) (-22)) ∧ 2 ^ 23 ≠ 0 ∧
    signedValue false (2 ^ 23) (-23) + signedValue false (2 ^ 23) (-22) ≠ 0 ∧
    signedValue false (2 ^ 23) (-23) - signedValue false (2 ^ 23) (-22) ≠ 0 ∧
    signedValue false (2 ^ 23) (-23) + signedValue true (2 ^ 23) (-23) = 0 ∧
    signedValue false (2 ^ 23) (-23) - signedValue false (2 ^ 23) (-23) = 0 := by
  refine ⟨by decide +kernel, by decide, ?_, ?_, ?_, ?_⟩ <;> norm_num [signedValue, magnitude]

/-- 1/3, rounded by the sticky bit, is 0x3EAAAAAB (IEEE 754: 0.333.. has significand AAAAAA|AAA.., which rounds up). -/
theorem test_fdiv_one_third : fdiv 0x3F800000 0x40400000 = 0x3EAAAAAB := by decide +kernel

/-- The waiting machine meets the control invariant, and it steps. -/
theorem witness_EveryStepKeepsControlConsistent :
    waiting.ControlOk ∧ (results (step { waiting with agenda := [.answer (.ok 5)] })).isSome := by
  refine ⟨⟨by decide +kernel, by decide +kernel, by decide +kernel, fun _ => by decide +kernel, fun ft h => ?_, fun ft h => ?_,
    fun ft h => ?_, fun a h => ?_⟩, by decide +kernel⟩
  · injection h with h
    subst h
    rfl
  · injection h with h
    subst h
    exact .inl rfl
  · injection h with h
    subst h
    unfold State.drawsBelow
    decide +kernel
  · cases h

/-- A machine with VEC[0] written meets the memory invariant, and it steps. -/
theorem witness_EveryStepKeepsMemoryConsistent :
    (fresh.setVec 0 7).MemoryOk ∧ (results (step { fresh.setVec 0 7 with agenda := [.write 32 0x13C 1] })).isSome := by
  have hw : Memory.wf fresh.mem := List.Pairwise.nil
  have hb : ∀ x, Memory.readByte (fresh.setVec 0 7).mem x =
      if vecOffset 0 ≤ x ∧ x < vecOffset 0 + 4 then some (byteOf 7 (x - vecOffset 0)) else none :=
    fun x => Memory.readByte_writeWord fresh.mem (vecOffset 0) x 7 hw
  refine ⟨⟨Memory.wf_writeWord _ _ _ hw, fun x hx => ?_, fun j b hlt => ?_, by decide +kernel⟩, by decide +kernel⟩
  · rw [hb] at hx
    split at hx
    · rename_i h
      have h1 : 0x100 ≤ x ∧ x < 0x104 := h
      have h2 : Params.span (fresh.setVec 0 7).params = 0x140 := rfl
      omega
    · cases hx
  · rw [hb, State.vec_setVec _ _ _ _ hw]
    by_cases hj : j = 0
    · subst hj
      rw [if_pos (by omega), if_pos rfl]
      simp
    · rw [if_neg (by unfold vecOffset; omega), if_neg hj]
      simp [State.vec, fresh, State.resetWith, Memory.readWord, Memory.readByte]

theorem witness_ErrorsLeaveNoPartialResult :
    (match exec .getpulses (running 0x7 240 0 0 0 []) with | .next t => (t.phase, t.status.err) | _ => (.idle, .ok)) =
      (.idle, .domain) := by decide +kernel

/-- A step that changes RES0 and VEC, one that changes VEC from the host, and an accept. -/
theorem witness_OnlyTheNamedEventsChangeARegister :
    vecs 1 (step { running 0xA 3 1 0 0 [] with answer := some (.ok 5), agenda := [.block] }) = [some 0xFFFFFFFF] ∧
    results (step { running 0xA 3 1 0 0 [] with answer := some (.ok 5), agenda := [.block] }) = some (5, 6, 2) ∧
    vecs 1 (step { fresh with agenda := [.write 32 0x100 9] }) = [some 9] ∧
    (match step { fresh with agenda := [.write 32 0x000 0x5] } with | .next t => t.lcmd | _ => fresh.lcmd) ≠ fresh.lcmd := by
  decide +kernel

theorem witness_ScratchIsNeverObserved : sameButScratch fresh { fresh with rowPrev := [1], rowCur := [2] } := rfl

end Sys2Proof.Tests
end

section
/-! ## Facts about decoding, the block's turn and the host's accesses that several statements need -/

namespace Sys2Proof.Machine

/-! ### LOP and the command it names -/

/-- The opcode map and its inverse (30_encoding.md R72). -/
theorem instrOfOpcode_eq_some {code : BitVec 4} {i : Instr} : instrOfOpcode code = some i ↔ code = opcodeOf i := by
  cases i <;> revert code <;> decide

/-- LOP names a command exactly when it is that command's opcode. -/
@[simp] theorem LatchedOp.instr?_eq_some {op : LatchedOp} {i : Instr} : op.instr? = some i ↔ op = .op (opcodeOf i) := by
  cases op with
  | op code => simpa [LatchedOp.instr?] using instrOfOpcode_eq_some
  | illegal => simp [LatchedOp.instr?]

/-- LOP of an accepted command word is the command's opcode (10_state.md R28). -/
theorem latchOp_of_decode {w : Word} {i : Instr} (h : decode w = .ok i) : latchOp w = .op (opcodeOf i) := by
  simp [latchOp, h]

/-- Every command's word decodes to it (30_encoding.md R73). -/
theorem decode_encode (i : Instr) : decode (encode i) = .ok i := by
  cases i <;> decide

/-! ### The block's turn -/

/-- From EXEC the command in LOP runs (10_state.md R31). -/
theorem blockTurn_exec {s : State} {i : Instr} (phase : s.phase = .exec) (lop : s.lop = .op (opcodeOf i)) :
    blockTurn s = exec i s := by
  have named : s.lop.instr? = some i := LatchedOp.instr?_eq_some.2 lop
  simp [blockTurn, phase, named]

/-- Outside EXEC the block has no step (10_state.md R32). -/
theorem blockTurn_stutters {s : State} (phase : s.phase ≠ .exec) : blockTurn s = .next s := by
  rcases blockTurn_cases s with ⟨_, h⟩ | ⟨hp, _⟩ | ⟨_, hp, _⟩
  · exact h
  · exact absurd hp phase
  · exact absurd hp phase

/-- A block turn that answers a next state: no step outside EXEC, ILLEGAL_CMD, or the ending of the latched command. -/
theorem blockTurn_ending {s t : State} (h : blockTurn s = .next t) :
    (s.phase ≠ .exec ∧ t = s) ∨
    (s.phase = .exec ∧ s.lop.instr? = none ∧ t = s.complete .illegalCmd) ∨
    (∃ i, s.phase = .exec ∧ s.lop = .op (opcodeOf i) ∧ exec i s = .next t ∧ Ending i s t) := by
  rcases blockTurn_cases s with ⟨hp, e⟩ | ⟨hp, hn, e⟩ | ⟨i, hp, hi, e⟩ <;> rw [e] at h
  · injection h with h
    exact .inl ⟨hp, h.symm⟩
  · injection h with h
    exact .inr (.inl ⟨hp, hn, h.symm⟩)
  · obtain ⟨t', ht', ending⟩ := exec_ending i s
    obtain rfl : t' = t := by rw [ht'] at h; injection h
    exact .inr (.inr ⟨i, hp, LatchedOp.instr?_eq_some.1 hi, h, ending⟩)

/-! ### Host accesses -/

/-- Only a 32-bit access at a multiple of 4 is legal (20_memory.md R53). -/
theorem accessLegal_iff {width off : Nat} : accessLegal width off = true ↔ width = 32 ∧ off % 4 = 0 := by
  simp [accessLegal]

/-- A read of VEC[j] gives its value, or records HOST(UNWRITTEN_VEC) (10_state.md R35). -/
theorem State.readVec_faults (s : State) (j : Nat) :
    (s.readVec j).faults = s.faults ∨ (s.readVec j).faults = s.recordUnwrittenVec.faults := by
  unfold State.readVec
  split
  · exact .inl rfl
  · exact .inr rfl

/-- A legal read records no host fault but UNWRITTEN_VEC (10_state.md R35). -/
theorem State.readTarget_faults (s : State) (x : BusTarget) :
    (s.readTarget x).faults = s.faults ∨ (s.readTarget x).faults = s.recordUnwrittenVec.faults := by
  cases x with
  | vec j =>
    rw [State.readTarget]
    split
    · exact .inl rfl
    · exact s.readVec_faults j
  | res0 | res1 =>
    rw [State.readTarget]
    split <;> exact .inl rfl
  | _ => exact .inl rfl

/-- A read records at most one host fault (10_state.md R35, 20_memory.md R53). -/
theorem State.hostRead_faults (s : State) (width off : Nat) :
    (s.hostRead width off).faults = s.faults ∨ (s.hostRead width off).faults = s.recordBadAccess.faults ∨
    (s.hostRead width off).faults = s.recordUnwrittenVec.faults := by
  unfold State.hostRead
  split
  · exact (s.readTarget_faults _).imp id .inr
  · exact .inr (.inl rfl)

/-- What a host write comes to: a bad access, an accept, a write of VEC[j], or new values in the operand registers and OVR
alone (20_memory.md R51, R53, R60; 10_state.md R42). -/
theorem State.hostWrite_effect (s : State) (width off : Nat) (v : Word) :
    s.hostWrite width off v = s.recordBadAccess ∨
    (width = 32 ∧ off = 0 ∧ s.status.busy = false ∧ s.hostWrite width off v = s.accept v) ∨
    (∃ j, j < s.params.nmax ∧ s.status.busy = false ∧ s.hostWrite width off v = s.setVec j v) ∨
    (∃ a0 a1 a2 a3 ovr, s.hostWrite width off v =
      { s with arg0 := a0, arg1 := a1, arg2 := a2, arg3 := a3, status := { s.status with ovr := ovr } }) := by
  rcases s.hostWrite_cases width off v with ⟨_, e⟩ | ⟨_, _, e⟩ | ⟨legal, idle, written⟩
  · exact .inl e
  · exact .inr (.inr (.inr ⟨_, _, _, _, _, e⟩))
  rcases written with ⟨rfl, e⟩ | ⟨_, e⟩ | ⟨_, e⟩ | ⟨_, e⟩ | ⟨_, e⟩ | ⟨j, hj, _, e⟩ | e
  · exact .inr (.inl ⟨(accessLegal_iff.1 legal).1, rfl, idle, e⟩)
  · exact .inr (.inr (.inr ⟨_, _, _, _, _, e⟩))
  · exact .inr (.inr (.inr ⟨_, _, _, _, _, e⟩))
  · exact .inr (.inr (.inr ⟨_, _, _, _, _, e⟩))
  · exact .inr (.inr (.inr ⟨_, _, _, _, _, e⟩))
  · exact .inr (.inr (.inl ⟨j, hj, idle, e⟩))
  · exact .inr (.inr (.inr ⟨_, _, _, _, _, e⟩))

end Sys2Proof.Machine
end

section
/-! ## Every step keeps `State.ControlOk` -/

namespace Sys2Proof.Machine

/-! ### A codebook with a dimension and a pulse has two entries -/

/-- Saturation does not matter to a lower bound below 2^32 (41_combinatorics.md R132). -/
theorem le_satAdd {m a b : Nat} (hm : m < 2 ^ 32) : m ≤ satAdd a b ↔ m ≤ a + b := by
  unfold satAdd sat32
  omega

/-- From row 1 on every saturated entry past entry 0 is at least 2. -/
theorem two_le_dpRow_entry (K n k : Nat) (hk : k < K) : 2 ≤ (dpRow satAdd K (n + 1)).getD (k + 1) 0 := by
  induction k with
  | zero =>
    have first : 1 ≤ satAdd ((dpRow satAdd K n).getD (0 + 1) 0) 1 := (le_satAdd (by decide)).2 (by omega)
    rw [dpRow_succ_entry _ _ _ _ hk, dpRow_zero_entry, dpRow_zero_entry, le_satAdd (by decide)]
    omega
  | succ k ih =>
    have left := ih (by omega)
    rw [dpRow_succ_entry _ _ _ _ hk, le_satAdd (by decide)]
    refine Nat.le_add_right_of_le ((le_satAdd (by decide)).2 ?_)
    omega

/-- vsat(N, K) is at least 2 for N and K positive (42_pvq_decode.md R171). -/
theorem two_le_vsat {N K : Nat} (hN : 1 ≤ N) (hK : 1 ≤ K) : 2 ≤ vsat N K := by
  obtain ⟨n, rfl⟩ := Nat.exists_eq_add_of_le' hN
  obtain ⟨k, rfl⟩ := Nat.exists_eq_add_of_le' hK
  exact two_le_dpRow_entry _ n k (by omega)

/-! ### PVQ_DECODE past its checks -/

/-- A size below 2^31 is its own word. -/
theorem toNat_wordOfNat_of_lt {v : Nat} (h : v < 2 ^ 31) : (wordOfNat v).toNat = v := by
  rw [wordOfNat, BitVec.toNat_ofNat, Nat.mod_eq_of_lt (by omega)]

/-- With its checks passed PVQ_DECODE goes on to the draw (42_pvq_decode.md R165). -/
theorem execPvqDecode_of_drawsBelow {s : State} {ft : Word} (h : s.drawsBelow ft) :
    execPvqDecode s = .next (pvqDraw s s.u0 s.u1 ft) := by
  obtain ⟨_, n_pos, n_max, k_pos, k_max, size, two_le, lt⟩ := h
  have bound : ft = wordOfNat (vsat s.u0 s.u1) := by rw [← size, wordOfNat, BitVec.ofNat_toNat, BitVec.setWidth_eq]
  rw [size] at two_le lt
  rcases execPvqDecode_cases s with ⟨hz, _⟩ | ⟨_, hcap, _⟩ | ⟨_, _, _, ⟨hz, _⟩ | ⟨_, hz, _⟩ | ⟨_, hl, _⟩ | ⟨_, _, _, e⟩⟩
  case inr.inr.inr.inr.inr => rw [e, bound]
  all_goals omega

/-! ### Which states meet the invariant -/

/-- What `State.ControlOk` reads of a state. -/
def State.control (s : State) :=
  (s.params, s.phase, s.status.busy, s.status.done, s.cmd, s.lcmd, s.lop, s.l0, s.l1, s.request, s.answer,
    s.faults.entropyRange)

/-- The invariant depends on those parts alone. -/
theorem State.ControlOk.congr {s t : State} (h : s.ControlOk) (same : t.control = s.control) : t.ControlOk := by
  simp only [State.control, Prod.mk.injEq] at same
  obtain ⟨params, phase, busy, done, cmd, lcmd, lop, l0, l1, request, answer, entropyRange⟩ := same
  have draws (ft : Word) : t.drawsBelow ft ↔ s.drawsBelow ft := by
    simp only [State.drawsBelow, State.u0, State.u1, params, lop, l0, l1]
  constructor <;> simp only [draws, phase, busy, done, cmd, lcmd, lop, request, answer, entropyRange]
  · exact h.busy_iff
  · exact h.not_both
  · exact h.cmd_latched
  · exact h.lop_decoded
  · exact h.request_waits
  · exact h.wait_requests
  · exact h.wait_draws
  · exact h.answer_exec

/-- In IDLE with an empty entropy port only BUSY and CMD can disagree with the rest. -/
theorem State.ControlOk.of_idle {t : State} (phase : t.phase = .idle) (busy : t.status.busy = false) (cmd : t.cmd = t.lcmd)
    (request : t.request = none) (answer : t.answer = none) : t.ControlOk where
  busy_iff := by simp [phase, busy]
  not_both := by simp [busy]
  cmd_latched := cmd
  lop_decoded := by simp [phase]
  request_waits := by simp [request]
  wait_requests := by simp [phase]
  wait_draws := by simp [phase]
  answer_exec := by simp [answer]

/-- The machine right after reset meets the invariant (10_state.md R41). -/
theorem State.controlOk_resetWith (p : Params) : (State.resetWith p).ControlOk := .of_idle rfl rfl rfl rfl rfl

/-- The reset input takes the machine there from any state (70_reset_and_hazards.md R251). -/
theorem State.controlOk_hwReset (s : State) : s.hwReset.ControlOk := .of_idle rfl rfl rfl rfl rfl

section
variable {s : State} (ok : s.ControlOk)
include ok

/-- BUSY is 1 outside IDLE (10_state.md R27). -/
theorem State.ControlOk.busy_of_not_idle (phase : s.phase ≠ .idle) : s.status.busy = true := by
  rw [← Bool.not_eq_false, ok.busy_iff]
  exact phase

/-- Outside WAIT_ENT no request is outstanding (10_state.md R31). -/
theorem State.ControlOk.request_none (phase : ∀ ft, s.phase ≠ .waitEnt ft) : s.request = none := by
  rw [Option.eq_none_iff_forall_ne_some]
  exact fun ft request => phase ft (ok.request_waits ft request)

/-- Outside EXEC no answer is held (10_state.md R38). -/
theorem State.ControlOk.answer_none (phase : s.phase ≠ .exec) : s.answer = none := by
  rw [Option.eq_none_iff_forall_ne_some]
  exact fun a answer => phase (ok.answer_exec a answer).1

/-! ### The host -/

/-- An accept keeps the invariant (10_state.md R30). -/
theorem State.ControlOk.accept (w : Word) (idle : s.status.busy = false) : (s.accept w).ControlOk where
  busy_iff := by simp
  not_both := by simp
  cmd_latched := rfl
  lop_decoded := fun _ => rfl
  request_waits := by simp [ok.request_none (by simp [ok.busy_iff.1 idle])]
  wait_requests := by simp
  wait_draws := by simp
  answer_exec := by simp [ok.answer_none (by simp [ok.busy_iff.1 idle])]

/-- A host read changes nothing the invariant reads (20_memory.md R57). -/
theorem State.ControlOk.hostRead (width off : Nat) : (s.hostRead width off).ControlOk := by
  have entropyRange : (s.hostRead width off).faults.entropyRange = s.faults.entropyRange := by
    rcases s.hostRead_faults width off with e | e | e <;> rw [e] <;> rfl
  refine ok.congr ?_
  rw [State.control, entropyRange, s.hostRead_frame width off]
  rfl

/-- A host write is an accept or changes nothing the invariant reads (20_memory.md R51, R53, R60). -/
theorem State.ControlOk.hostWrite (width off : Nat) (v : Word) : (s.hostWrite width off v).ControlOk := by
  rcases s.hostWrite_effect width off v with e | ⟨_, _, idle, e⟩ | ⟨j, _, _, e⟩ | ⟨_, _, _, _, _, e⟩ <;> rw [e]
  · exact ok.congr rfl
  · exact ok.accept v idle
  · exact ok.congr rfl
  · exact ok.congr rfl

/-! ### The collaborator -/

/-- An index out of range leaves the block stuck in WAIT_ENT with no request (42_pvq_decode.md R161; log 12). -/
theorem State.ControlOk.breakEntropy (ft : Word) (waits : s.phase = .waitEnt ft) : (s.breakEntropy ft).ControlOk where
  busy_iff := by simp [ok.busy_of_not_idle (by simp [waits])]
  not_both := ok.not_both
  cmd_latched := ok.cmd_latched
  lop_decoded := fun _ => ok.lop_decoded (by simp [waits])
  request_waits := by simp
  wait_requests := by simp
  wait_draws := fun ft' h => by
    obtain rfl : ft = ft' := by simpa using h
    exact ok.wait_draws ft waits
  answer_exec := by simp

/-- An answer that keeps the collaborator's duty is held, and the phase returns to EXEC (10_state.md R32). -/
theorem State.ControlOk.holdAnswer (ft : Word) (a : Answer) (request : s.request = some ft)
    (inRange : ∀ u, a = .ok u → u.toNat < ft.toNat) :
    ({ s with request := none, answer := some a, phase := .exec } : State).ControlOk := by
  have waits : s.phase = .waitEnt ft := ok.request_waits ft request
  exact
    { busy_iff := by simp [ok.busy_of_not_idle (by simp [waits])]
      not_both := ok.not_both
      cmd_latched := ok.cmd_latched
      lop_decoded := fun _ => ok.lop_decoded (by simp [waits])
      request_waits := by simp
      wait_requests := by simp
      wait_draws := by simp
      answer_exec := by
        rintro _ ⟨⟩
        exact ⟨rfl, ft, ok.wait_draws ft waits, inRange⟩ }

/-- An arriving answer keeps the invariant. -/
theorem State.ControlOk.receive (a : Answer) : (s.receive a).ControlOk := by
  rcases s.receive_cases a with ⟨_, e⟩ | ⟨ft, request, inRange, e⟩ | ⟨ft, u, request, _, _, e⟩ <;> rw [e]
  · exact ok
  · exact ok.holdAnswer ft a request inRange
  · exact ok.breakEntropy ft (ok.request_waits ft request)

/-! ### The block -/

/-- A completion from EXEC that leaves no answer held keeps the invariant (10_state.md R31). -/
theorem State.ControlOk.completion {t : State} (runs : s.phase = .exec) (keeps : s.Keeps t) (request : t.request = s.request)
    (answer : t.answer = none) (phase : t.phase = .idle) (busy : t.status.busy = false) : t.ControlOk := by
  obtain ⟨cmd, lcmd, _⟩ := keeps.command
  refine .of_idle phase busy ?_ ?_ answer
  · rw [cmd, lcmd, ok.cmd_latched]
  · rw [request, ok.request_none (by simp [runs])]

/-- A posted request keeps the invariant, with its bound from PVQ_DECODE's checks (42_pvq_decode.md R160, R164). -/
theorem State.ControlOk.postRequest (runs : s.phase = .exec) (answer : s.answer = none) (ft : Word)
    (draws : s.drawsBelow ft) : (s.postRequest ft).ControlOk where
  busy_iff := by simp [ok.busy_of_not_idle (by simp [runs])]
  not_both := ok.not_both
  cmd_latched := ok.cmd_latched
  lop_decoded := fun _ => ok.lop_decoded (by simp [runs])
  request_waits := by simp
  wait_requests := by simp
  wait_draws := fun ft' h => by
    obtain rfl : ft = ft' := by simpa using h
    exact draws
  answer_exec := by simp [answer]

/-- With an answer held only PVQ_DECODE runs, and it completes and uses the answer up (42_pvq_decode.md R162, R165). -/
theorem State.ControlOk.exec_held {t : State} {a : Answer} {i : Instr} (held : s.answer = some a)
    (lop : s.lop = .op (opcodeOf i)) (h : exec i s = .next t) : t.ControlOk := by
  obtain ⟨runs, ft, draws, inRange⟩ := ok.answer_exec a held
  obtain rfl : Instr.pvqDecode = i := by
    have named := LatchedOp.instr?_eq_some.2 lop
    rw [draws.1] at named
    injection named
  have drawn : exec .pvqDecode s = .next (pvqDraw s s.u0 s.u1 ft) := execPvqDecode_of_drawsBelow draws
  obtain rfl : pvqDraw s s.u0 s.u1 ft = t := by rw [drawn] at h; injection h
  rcases pvqDraw_cases s s.u0 s.u1 ft with ⟨none_held, _⟩ | ⟨e, _, ends⟩ | ⟨u, _, _, ends⟩ | ⟨u, held', out, _⟩
  · rw [none_held] at held
    cases held
  · rw [ends]
    exact ok.completion runs ((s.keeps_setRes1 e).trans ((State.keeps_takeAnswer _).trans (State.keeps_complete _ _)))
      rfl rfl rfl rfl
  · rw [ends, pvqDeliver_frame]
    exact ok.completion runs (State.keeps_of_fields s ..) rfl rfl rfl rfl
  · rw [held'] at held
    have := inRange u (by injection held with e; exact e.symm)
    omega

/-- With no answer held a command completes, or PVQ_DECODE posts its request (10_state.md R31). -/
theorem State.ControlOk.exec_unheld {t : State} {i : Instr} (runs : s.phase = .exec) (unheld : s.answer = none)
    (lop : s.lop = .op (opcodeOf i)) (h : Ending i s t) : t.ControlOk := by
  cases h with
  | completes _ c keeps request answer phase status =>
    refine ok.completion runs keeps request ?_ phase (by rw [status]; rfl)
    rcases answer with e | ⟨e, _⟩
    · rw [e, unheld]
    · exact e
  | asks ft command _ n_pos n_max k_pos k_max bound fits =>
    have two_le := two_le_vsat n_pos k_pos
    have size : ft.toNat = vsat s.u0 s.u1 := by rw [bound, toNat_wordOfNat_of_lt fits]
    have swept : (s.sweep s.u0 s.u1).ControlOk := ok.congr rfl
    refine swept.postRequest runs unheld ft ⟨by rw [command] at lop; exact lop, n_pos, n_max, k_pos, k_max, size, ?_, ?_⟩
    · omega
    · omega
  | breaks _ u _ held =>
    rw [unheld] at held
    cases held

/-- The block's turn keeps the invariant. -/
theorem State.ControlOk.blockTurn {t : State} (h : blockTurn s = .next t) : t.ControlOk := by
  rcases blockTurn_ending h with ⟨_, rfl⟩ | ⟨runs, unnamed, rfl⟩ | ⟨i, runs, lop, h, ending⟩
  · exact ok
  · refine ok.completion runs (s.keeps_complete _) rfl ?_ rfl rfl
    rw [State.complete_answer, Option.eq_none_iff_forall_ne_some]
    intro a held
    obtain ⟨_, _, ⟨lop, _⟩, _⟩ := ok.answer_exec a held
    rw [lop] at unnamed
    cases unnamed
  · cases held : s.answer with
    | none => exact ok.exec_unheld runs held lop ending
    | some a => exact ok.exec_held held lop h

end

/-- Settles O53: each agent's turn keeps the invariant, and taking the turn from the agenda is nothing it reads. -/
theorem everyStepKeepsControlConsistent : Obligations.EveryStepKeepsControlConsistent := by
  intro s t ok h
  have turn (rest : List Turn) : ({ s with agenda := rest } : State).ControlOk := ok.congr rfl
  rcases step_cases s t h with ⟨rest, _, h⟩ | ⟨width, addr, rest, _, _, rfl⟩ | ⟨width, addr, v, rest, _, _, rfl⟩ |
    ⟨a, rest, _, rfl⟩ | ⟨a, rest, _, rfl⟩ | ⟨rest, _, rfl⟩
  · exact (turn rest).blockTurn h
  · exact (turn rest).hostRead _ _
  · exact (turn rest).hostWrite _ _ _
  · exact (turn rest).receive a
  · exact turn rest
  · exact State.controlOk_hwReset _

end Sys2Proof.Machine
end

section
/-! ## Every step keeps `State.MemoryOk` -/

namespace Sys2Proof.Machine

/-! ### Which bytes hold a value -/

/-- A word holds a value when its four bytes do (10_state.md R35). -/
theorem Memory.readWord_isSome_iff (m : Memory) (x : Nat) :
    (Memory.readWord m x).isSome ↔ ∀ b, b < 4 → (Memory.readByte m (x + b)).isSome := by
  constructor
  · intro h b hb
    unfold Memory.readWord at h
    split at h
    · rename_i b0 b1 b2 b3 e0 e1 e2 e3
      match b, hb with
      | 0, _ => exact Option.isSome_iff_exists.2 ⟨b0, e0⟩
      | 1, _ => exact Option.isSome_iff_exists.2 ⟨b1, e1⟩
      | 2, _ => exact Option.isSome_iff_exists.2 ⟨b2, e2⟩
      | 3, _ => exact Option.isSome_iff_exists.2 ⟨b3, e3⟩
    · cases h
  · intro h
    obtain ⟨b0, e0⟩ : ∃ b0, Memory.readByte m x = some b0 := Option.isSome_iff_exists.1 (h 0 (by decide))
    obtain ⟨b1, e1⟩ := Option.isSome_iff_exists.1 (h 1 (by decide))
    obtain ⟨b2, e2⟩ := Option.isSome_iff_exists.1 (h 2 (by decide))
    obtain ⟨b3, e3⟩ := Option.isSome_iff_exists.1 (h 3 (by decide))
    simp [Memory.readWord, e0, e1, e2, e3]

/-- After words are written, the bytes that hold a value are theirs and those that did before. -/
theorem Memory.readByte_writeWords_isSome_iff (m : Memory) (x y : Nat) (vs : List Word) (h : Memory.wf m) :
    (Memory.readByte (Memory.writeWords m x vs) y).isSome ↔
      (x ≤ y ∧ y < x + 4 * vs.length) ∨ (Memory.readByte m y).isSome := by
  by_cases hy : x ≤ y ∧ y < x + 4 * vs.length
  · simp [hy, Memory.readByte_writeWords_isSome m x y vs h hy]
  · simp [hy, Memory.readByte_writeWords_other m x y vs h (by omega)]

/-! ### Which states meet the invariant -/

/-- The invariant depends on the sizes, the memory and the lengths of the row buffers alone. -/
theorem State.MemoryOk.congr {s t : State} (h : s.MemoryOk) (params : t.params = s.params) (mem : t.mem = s.mem)
    (rowPrev : t.rowPrev.length = s.rowPrev.length) (rowCur : t.rowCur.length = s.rowCur.length) : t.MemoryOk := by
  constructor
  · rw [mem]; exact h.canonical
  · rw [mem, params]; exact h.in_vec
  · unfold State.vec; rw [mem]; exact h.whole
  · rw [params, rowPrev, rowCur]; exact h.rows

/-- The machine right after reset meets the invariant: no VEC word holds a value (10_state.md R41). -/
theorem State.memoryOk_resetWith (p : Params) : (State.resetWith p).MemoryOk where
  canonical := State.reset_mem_wf p
  in_vec := by simp [State.resetWith, Memory.readByte]
  whole := by simp [State.vec, State.resetWith, Memory.readByte, Memory.readWord]
  rows := by simp [State.resetWith]

/-- The reset input takes the machine there from any state (70_reset_and_hazards.md R251). -/
theorem State.memoryOk_hwReset (s : State) : s.hwReset.MemoryOk :=
  (State.memoryOk_resetWith s.params).congr rfl rfl rfl rfl

section
variable {s : State} (ok : s.MemoryOk)
include ok

/-! ### The operations that write memory or the row buffers -/

/-- Writing words of VEC[0..NMAX-1] keeps the invariant (10_state.md R34). -/
theorem State.MemoryOk.writeWords (j : Nat) (vs : List Word) (fit : j + vs.length ≤ s.params.nmax) :
    ({ s with mem := Memory.writeWords s.mem (vecOffset j) vs } : State).MemoryOk where
  canonical := Memory.wf_writeWords _ _ _ ok.canonical
  in_vec := fun x hx => by
    rcases (Memory.readByte_writeWords_isSome_iff _ _ _ _ ok.canonical).1 hx with written | before
    · show 0x100 ≤ x ∧ x < 0x100 + 4 * s.params.nmax
      unfold vecOffset at written
      omega
    · exact ok.in_vec x before
  whole := fun k b hb => by
    have byte : ∀ c, c < 4 → ((Memory.readByte (Memory.writeWords s.mem (vecOffset j) vs) (vecOffset k + c)).isSome ↔
        (j ≤ k ∧ k < j + vs.length) ∨ (s.vec k).isSome) := fun c hc => by
      rw [Memory.readByte_writeWords_isSome_iff _ _ _ _ ok.canonical, ok.whole k c hc]
      refine or_congr_left ?_
      unfold vecOffset
      omega
    have word : (Memory.readWord (Memory.writeWords s.mem (vecOffset j) vs) (vecOffset k)).isSome ↔
        (j ≤ k ∧ k < j + vs.length) ∨ (s.vec k).isSome := by
      rw [Memory.readWord_isSome_iff]
      exact ⟨fun h => (byte 0 (by decide)).1 (h 0 (by decide)), fun h c hc => (byte c hc).2 h⟩
    exact (byte b hb).trans word.symm
  rows := ok.rows

/-- A write of VEC[j] keeps the invariant (20_memory.md R51). -/
theorem State.MemoryOk.setVec (j : Nat) (v : Word) (fit : j < s.params.nmax) : (s.setVec j v).MemoryOk :=
  ok.writeWords j [v] fit

/-- A write of VEC[0], VEC[1], ... keeps the invariant. -/
theorem State.MemoryOk.setVecFrom0 (vs : List Word) (fit : vs.length ≤ s.params.nmax) : (s.setVecFrom0 vs).MemoryOk :=
  ok.writeWords 0 vs (by omega)

/-- A sweep that stays in the row buffers keeps the invariant (10_state.md R36). -/
theorem State.MemoryOk.sweep (N K : Nat) (fit : K ≤ s.params.kmax) : (s.sweep N K).MemoryOk := by
  obtain ⟨prev, cur⟩ := ok.rows
  obtain ⟨prev', cur'⟩ := sweptRows_length K N (s.params.kmax + 1) s.rowPrev s.rowCur prev cur (by omega)
  exact ok.congr rfl rfl (prev'.trans prev.symm) (cur'.trans cur.symm)

/-- Free values fill the row buffers (log 10). -/
theorem State.MemoryOk.scrambleRows : s.scrambleRows.MemoryOk := by
  obtain ⟨prev, cur⟩ := ok.rows
  exact ok.congr rfl rfl (by simp [prev]) (by simp [cur])

/-- A completion writes no memory. -/
theorem State.MemoryOk.complete (c : ErrCode) : (s.complete c).MemoryOk := ok.congr rfl rfl rfl rfl

/-- A completion with RES0 writes no memory. -/
theorem State.MemoryOk.completeRes0 (v : Word) : ((s.setRes0 v).complete .ok).MemoryOk := ok.congr rfl rfl rfl rfl

/-- Reading VEC writes no memory. -/
theorem State.MemoryOk.afterVecRead (N : Nat) : (s.afterVecRead N).MemoryOk :=
  ok.congr (by simp) (by simp) (by simp) (by simp)

/-! ### The commands -/

/-- From the draw on PVQ_DECODE writes N words of VEC at most (42_pvq_decode.md R160 to R166). -/
theorem State.MemoryOk.pvqDraw (N K : Nat) (ft : Word) (hN : N ≤ s.params.nmax) (hK : K ≤ s.params.kmax) :
    (pvqDraw s N K ft).MemoryOk := by
  rcases pvqDraw_cases s N K ft with ⟨_, e⟩ | ⟨_, _, e⟩ | ⟨u, _, _, e⟩ | ⟨_, _, _, e⟩ <;> rw [e]
  · exact (ok.sweep N K hK).congr rfl rfl rfl rfl
  · exact ok.congr rfl rfl rfl rfl
  · unfold pvqDeliver
    have scratch : (s.scrambleRows.setUnrank (unrankEnd N K u.toNat)).MemoryOk := 
      ok.scrambleRows.congr rfl rfl rfl rfl
    exact (scratch.setVecFrom0 ((Machine.unrank N K u.toNat).map wordOfInt) (by simpa using hN)).congr (by simp) (by simp)
      (by simp) (by simp)
  · exact ok.congr rfl rfl rfl rfl

/-- PVQ_DECODE keeps the invariant: its checks bound N by NMAX and K by KMAX (42_pvq_decode.md R165). -/
theorem State.MemoryOk.execPvqDecode {t : State} (h : execPvqDecode s = .next t) : t.MemoryOk := by
  rcases execPvqDecode_cases s with ⟨_, e⟩ | ⟨_, _, e⟩ | ⟨_, hN, hK, ⟨_, e⟩ | ⟨_, _, e⟩ | ⟨_, _, e⟩ | ⟨_, _, _, e⟩⟩ <;>
    rw [e] at h <;> injection h with h <;> subst h
  · exact ok.complete _
  · exact ok.complete _
  · exact (ok.setVecFrom0 (List.replicate s.u0 0) (by simpa using hN)).congr rfl rfl rfl rfl
  · exact (ok.sweep _ _ hK).complete _
  · exact (ok.sweep _ _ hK).complete _
  · exact ok.pvqDraw _ _ _ hN hK

/-- SPREAD past its checks writes N words of VEC (43_spreading.md R200). -/
theorem State.MemoryOk.spreadRun (N K lvl B : Nat) (hN : N ≤ s.params.nmax) : (spreadRun s N K lvl B).MemoryOk := by
  have fit (vs : List Word) (hvs : vs.length = N) : ((s.afterVecRead N).setVecFrom0 vs).MemoryOk :=
    (ok.afterVecRead N).setVecFrom0 vs (by simpa [hvs] using hN)
  rcases spreadRun_cases s N K lvl B with ⟨_, e⟩ | ⟨_, e⟩ <;> rw [e]
  · exact (fit ((s.afterVecRead N).freeWords N) (by simp)).congr (by simp) (by simp) (by simp) (by simp)
  · exact (fit _ (by simp)).complete _

/-- SPREAD keeps the invariant: its checks bound N by NMAX (43_spreading.md R190). -/
theorem State.MemoryOk.execSpread {t : State} (h : execSpread s = .next t) : t.MemoryOk := by
  rcases execSpread_cases s with ⟨_, e⟩ | ⟨_, _, e⟩ | ⟨_, hN, ⟨_, e⟩ | ⟨_, _, _, e⟩ | ⟨_, _, _, _, e⟩ | ⟨_, _, _, _, e⟩⟩ <;>
    rw [e] at h <;> injection h with h <;> subst h
  case inr.inr.inr.inr.inr => exact ok.spreadRun _ _ _ _ hN
  all_goals exact ok.complete _

/-- CWRS_V and FITS32 sweep only past their check K <= KMAX (41_combinatorics.md R135, R140). -/
theorem State.MemoryOk.sweptRes0 {o : Host.Outcome State Fault Refusal} {t : State} (v : Word)
    (outcomes : (s.params.kmax < s.u1 ∧ o = .next (s.complete .capacity)) ∨
      (s.u1 ≤ s.params.kmax ∧ o = .next (((s.sweep s.u0 s.u1).setRes0 v).complete .ok)))
    (h : o = .next t) : t.MemoryOk := by
  rcases outcomes with ⟨_, e⟩ | ⟨hK, e⟩ <;> rw [e] at h <;> injection h with h <;> subst h
  · exact ok.complete _
  · exact (ok.sweep _ _ hK).completeRes0 v

/-- Every command keeps the invariant. -/
theorem State.MemoryOk.exec {t : State} (i : Instr) (h : exec i s = .next t) : t.MemoryOk := by
  cases i with
  | ilog | fmul15 | bcos | blog2tan | isqrt =>
    injection h with h
    subst h
    exact ok.completeRes0 _
  | cwrsV => exact ok.sweptRes0 _ (execCwrsV_cases s) h
  | fits32 => exact ok.sweptRes0 _ (execFits32_cases s) h
  | getpulses =>
    have h : execGetpulses s = .next t := h
    rcases execGetpulses_cases s with ⟨_, e⟩ | ⟨_, e⟩ <;> rw [e] at h <;> injection h with h <;> subst h
    · exact ok.complete _
    · exact ok.completeRes0 _
  | thresh =>
    injection h with h
    subst h
    exact ok.scrambleRows.congr (by simp) (by simp) (by simp) (by simp)
  | pvqDecode => exact ok.execPvqDecode h
  | spread => exact ok.execSpread h

/-! ### The turns -/

/-- The block's turn keeps the invariant. -/
theorem State.MemoryOk.blockTurn {t : State} (h : blockTurn s = .next t) : t.MemoryOk := by
  rcases blockTurn_ending h with ⟨_, rfl⟩ | ⟨_, _, rfl⟩ | ⟨i, _, _, h, _⟩
  · exact ok
  · exact ok.complete _
  · exact ok.exec i h

/-- A host read writes no memory (20_memory.md R57). -/
theorem State.MemoryOk.hostRead (width off : Nat) : (s.hostRead width off).MemoryOk := by
  rw [s.hostRead_frame width off]
  exact ok.congr rfl rfl rfl rfl

/-- A host write writes no memory but VEC[j] with j below NMAX (20_memory.md R51). -/
theorem State.MemoryOk.hostWrite (width off : Nat) (v : Word) : (s.hostWrite width off v).MemoryOk := by
  rcases s.hostWrite_effect width off v with e | ⟨_, _, _, e⟩ | ⟨j, hj, _, e⟩ | ⟨_, _, _, _, _, e⟩ <;> rw [e]
  · exact ok.congr rfl rfl rfl rfl
  · exact ok.congr rfl rfl rfl rfl
  · exact ok.setVec j v hj
  · exact ok.congr rfl rfl rfl rfl

/-- An arriving answer writes no memory (10_state.md R32). -/
theorem State.MemoryOk.receive (a : Answer) : (s.receive a).MemoryOk := by
  rcases s.receive_cases a with ⟨_, e⟩ | ⟨_, _, _, e⟩ | ⟨_, _, _, _, _, e⟩ <;> rw [e] <;>
    exact ok.congr rfl rfl rfl rfl

end

/-- Settles O54: each agent's turn keeps the invariant, and taking the turn from the agenda is nothing it reads. -/
theorem everyStepKeepsMemoryConsistent : Obligations.EveryStepKeepsMemoryConsistent := by
  intro s t ok h
  have turn (rest : List Turn) : ({ s with agenda := rest } : State).MemoryOk := ok.congr rfl rfl rfl rfl
  rcases step_cases s t h with ⟨rest, _, h⟩ | ⟨width, addr, rest, _, _, rfl⟩ | ⟨width, addr, v, rest, _, _, rfl⟩ |
    ⟨a, rest, _, rfl⟩ | ⟨a, rest, _, rfl⟩ | ⟨rest, _, rfl⟩
  · exact (turn rest).blockTurn h
  · exact (turn rest).hostRead _ _
  · exact (turn rest).hostWrite _ _ _
  · exact (turn rest).receive a
  · exact turn rest
  · exact State.memoryOk_hwReset _

end Sys2Proof.Machine
end

section
/-! ## One step of the host, the collaborator or the block: the functional statements -/

namespace Sys2Proof.Machine

/-! ### The accept and the latched command -/

/-- An idle write to offset 0 is an accept (10_state.md R30). -/
theorem State.hostWrite_cmd {s : State} (idle : s.status.busy = false) (w : Word) : s.hostWrite 32 0 w = s.accept w :=
  s.hostWrite_idle 0 w rfl idle

/-- Settles O5: the step is a write to CMD, and an idle write to CMD is `State.accept`. -/
theorem commandWriteIsAcceptedInOneStep : Obligations.CommandWriteIsAcceptedInOneStep := by
  intro s w rest idle agenda
  rw [step_write s 32 0 w rest agenda, State.hostWrite_cmd (s := { s with agenda := rest }) idle]
  rfl

/-- Settles O4: EXEC runs the command in LOP, and an accepted command word leaves its own opcode there. -/
theorem stepRunsTheLatchedCommand : Obligations.StepRunsTheLatchedCommand := by
  constructor
  · intro s i rest phase lop decoded
    have names : s.lop = .op (opcodeOf i) := lop.trans (latchOp_of_decode decoded)
    constructor <;> intro agenda
    · rw [step_block s rest agenda]
      exact blockTurn_exec phase names
    · rw [step_nil s agenda]
      exact blockTurn_exec phase names
  · intro s i
    rw [State.withFetchWord_toNat, step_placeCommand]
    exact blockTurn_exec rfl (latchOp_of_decode (decode_encode i))

/-! ### Waiting for an answer -/

/-- Outside EXEC any number of block turns only empties the agenda (10_state.md R32). -/
theorem core_run_blockTurns {s : State} (phase : s.phase ≠ .exec) (n : Nat) (agenda : s.agenda = List.replicate n .block) :
    core.run n s = .next { s with agenda := [] } := by
  induction n generalizing s with
  | zero => simp [Host.Core.run, ← show s.agenda = [] from agenda]
  | succ n ih =>
    have stutters : step s = .next { s with agenda := List.replicate n .block } := by
      rw [step_block s _ agenda]
      exact blockTurn_stutters phase
    rw [core_run_next n _ _ stutters]
    exact ih phase rfl

/-- An answer in range to the outstanding request is held (10_state.md R32). -/
theorem State.receive_inRange {s : State} {ft : Word} {a : Answer} (request : s.request = some ft)
    (inRange : ∀ u, a = .ok u → u.toNat < ft.toNat) :
    s.receive a = { s with request := none, answer := some a, phase := .exec } := by
  rcases s.receive_cases a with ⟨none_left, _⟩ | ⟨_, _, _, e⟩ | ⟨ft', u, request', isOk, out, _⟩
  · rw [none_left] at request
    cases request
  · exact e
  · obtain rfl : ft' = ft := by simpa [request'] using request
    exact absurd (inRange u isOk) (by omega)

/-- Settles O7: block turns stutter outside EXEC, by induction on their number; an answer in range is held. -/
theorem waitingBlockStepsOnlyOnAnAnswer : Obligations.WaitingBlockStepsOnlyOnAnAnswer := by
  constructor
  · intro s ft n phase agenda
    exact core_run_blockTurns (by simp [phase]) n agenda
  · intro s ft a rest _ request inRange agenda
    rw [step_answer s a rest agenda, State.receive_inRange (s := { s with agenda := rest }) request inRange]

/-! ### VEC words without a value -/

/-- An idle read of a VEC word without a value (10_state.md R35; log 6). -/
theorem State.hostRead_unwritten {s : State} {j : Nat} (idle : s.status.busy = false) (hj : j < s.params.nmax)
    (unwritten : s.vec j = none) : s.hostRead 32 (0x100 + 4 * j) = s.recordUnwrittenVec.returnsFree := by
  rw [s.hostRead_legal _ (by omega), busTarget_vec _ _ hj]
  simp [State.readTarget, State.readVec, idle, unwritten]

/-- Settles O17: the step is the read of VEC[j], which records the fault and returns a free value. -/
theorem readOfUnwrittenVecIsRecorded : Obligations.ReadOfUnwrittenVecIsRecorded := by
  intro s j rest idle hj unwritten agenda
  refine ⟨Config.freeWord s.draws 0, ?_⟩
  rw [step_read s 32 _ rest agenda, State.hostRead_unwritten (s := { s with agenda := rest }) idle hj unwritten]
  rfl

/-- Some word of VEC[0..N-1] holds no value. -/
theorem State.vecMissing_iff (s : State) (N : Nat) : s.vecMissing N = true ↔ ∃ j, j < N ∧ s.vec j = none := by
  simp [State.vecMissing]

/-- What writing N words of VEC from VEC[0] on leaves outside them. -/
theorem State.bytesOutsideVecKept_setVecFrom0 (s : State) (vs : List Word) (h : Memory.wf s.mem) :
    Claims.bytesOutsideVecKept s (s.setVecFrom0 vs) vs.length := by
  intro x hx
  refine Memory.readByte_writeWords_other _ _ _ _ h ?_
  unfold vecOffset at hx ⊢
  omega

/-- SPREAD over a word without a value: the fault is recorded, N words are written, it completes (log 16). -/
theorem spreadRun_missing (s : State) (N K lvl B : Nat) (missing : s.vecMissing N = true) :
    ∃ (vs : List Word) (d : Nat), vs.length = N ∧
      spreadRun s N K lvl B =
        { s with
          mem := (s.setVecFrom0 vs).mem, draws := d, faults := { s.faults with unwrittenVec := true }
          status := Claims.completedStatus s .ok, phase := .idle } := by
  have read : s.afterVecRead N = s.recordUnwrittenVec.drawn := by simp [State.afterVecRead, missing]
  rcases spreadRun_cases s N K lvl B with ⟨_, e⟩ | ⟨_, e⟩ <;>
    simp only [read, State.recordUnwrittenVec, State.drawn, State.setVecFrom0, State.complete] at e
  · exact ⟨_, _, State.freeWords_length _ N, e⟩
  · exact ⟨_, _, (spreadSamples_length ..).trans (s.vecWords_length N), e⟩

/-- SPREAD past its checks (43_spreading.md R190). -/
theorem execSpread_runs {s : State} (level_pos : 1 ≤ s.u2) (level_max : s.u2 ≤ 3) (n_max : s.u0 ≤ s.params.nmax)
    (k_pos : 1 ≤ s.u1) (b_pos : 1 ≤ s.u3) (divides : s.u0 % s.u3 = 0) :
    execSpread s = .next (spreadRun s s.u0 s.u1 s.u2 s.u3) := by
  rcases execSpread_cases s with _ | _ | ⟨_, _, _ | _ | _ | ⟨_, _, _, _, e⟩⟩
  case inr.inr.inr.inr.inr => exact e
  all_goals omega

/-- Settles O48: past the checks SPREAD is `spreadRun`, whose N words lie in VEC[0..N-1]. -/
theorem spreadOverUnwrittenVecIsRecorded : Obligations.SpreadOverUnwrittenVecIsRecorded := by
  intro s canonical level_pos level_max n_max k_pos b_pos divides unwritten
  obtain ⟨vs, d, length, e⟩ := spreadRun_missing s s.u0 s.u1 s.u2 s.u3 ((s.vecMissing_iff _).2 unwritten)
  have runs : exec .spread s = .next (spreadRun s s.u0 s.u1 s.u2 s.u3) :=
    execSpread_runs level_pos level_max n_max k_pos b_pos divides
  rw [e] at runs
  refine ⟨_, runs, rfl, ?_⟩
  have outside := s.bytesOutsideVecKept_setVecFrom0 vs canonical
  rw [length] at outside
  exact outside

/-! ### STATUS -/

/-- Bits 0 to 2 of the STATUS word (10_state.md R25). -/
theorem Status.word_flags (t : Status) :
    t.word.getLsbD 0 = t.busy ∧ t.word.getLsbD 1 = t.done ∧ t.word.getLsbD 2 = t.ovr := by
  refine ⟨?_, ?_, ?_⟩ <;> simp only [Status.word, BitVec.getLsbD_append] <;> simp

/-- The field from bit 3 on is what stands above OVR, DONE and BUSY in the STATUS word. -/
theorem Status.word_field (t : Status) (start len : Nat) (h : 3 ≤ start) :
    t.word.extractLsb' start len = ((0 : BitVec 20) ++ t.err.number ++ (0 : BitVec 5)).extractLsb' (start - 3) len := by
  rw [Status.word, BitVec.extractLsb'_append_eq_of_le (by omega), BitVec.extractLsb'_append_eq_of_le (by omega),
    BitVec.extractLsb'_append_eq_of_le (by omega)]
  rfl

/-- The fields of the STATUS word from bit 3 on (10_state.md R25). -/
theorem Status.word_fields (t : Status) :
    t.word.extractLsb' 3 5 = 0 ∧ t.word.extractLsb' 8 4 = t.err.number ∧ t.word.extractLsb' 12 20 = 0 := by
  refine ⟨?_, ?_, ?_⟩ <;> rw [t.word_field _ _ (by decide)]
  · exact BitVec.extractLsb'_append_eq_right
  · rw [BitVec.extractLsb'_append_eq_of_le (by decide)]
    exact BitVec.extractLsb'_append_eq_right
  · rw [BitVec.extractLsb'_append_eq_of_le (by decide), BitVec.extractLsb'_append_eq_of_le (by decide)]
    exact BitVec.extractLsb'_eq_self

/-- Settles O11: each field is read off the concatenation of R25, and the codes are the list of R220. -/
theorem statusWordLayout : Obligations.StatusWordLayout := by
  refine ⟨fun t => ?_, fun e => by cases e <;> decide, rfl, rfl, rfl, rfl, rfl, rfl, rfl, rfl, rfl, rfl, rfl⟩
  obtain ⟨busy, done, ovr⟩ := t.word_flags
  exact ⟨busy, done, ovr, t.word_fields⟩

/-! ### The machine right after reset -/

/-- STATUS after reset reads as 0 (10_state.md R41). -/
theorem Status.word_reset : Status.reset.word = 0 := by decide

/-- Settles O55: the two invariants of the reset state, and the table's values, which its definition writes out. -/
theorem resetStateIsIdleAndConsistent : Obligations.ResetStateIsIdleAndConsistent := by
  refine ⟨fun p => ⟨_, rfl, State.controlOk_resetWith p, State.memoryOk_resetWith p, rfl, ?_⟩, rfl⟩
  exact ⟨rfl, rfl, rfl, rfl, rfl, rfl, rfl, Status.word_reset, rfl, rfl, rfl, rfl, rfl, rfl, rfl, fun _ => rfl, rfl, rfl, rfl⟩

end Sys2Proof.Machine
end

section
/-! ## Nothing observable depends on the scratch -/

namespace Sys2Proof.Machine

open Sys2Proof.Claims

/-- The state with other row buffers and other unranking registers. -/
def State.withScratch (s : State) (prev cur : List Word) (u : UnrankRegs) : State :=
  { s with rowPrev := prev, rowCur := cur, unrank := u }

/-- States that agree but for the scratch are these. -/
theorem sameButScratch_iff (s s' : State) : sameButScratch s s' ↔ ∃ prev cur u, s' = s.withScratch prev cur u := by
  constructor
  · intro h
    exact ⟨_, _, _, h⟩
  · rintro ⟨prev, cur, u, rfl⟩
    rfl

/-- A choice that both sides make alike, for either relation. -/
theorem related_ite {α : Type} {R : α → α → Prop} {c : Prop} [Decidable c] {a b a' b' : α} (yes : R a a') (no : R b b') :
    R (if c then a else b) (if c then a' else b') := by
  split
  · exact yes
  · exact no

section
variable (s : State) (prev cur : List Word) (u : UnrankRegs)

/-! ### What the scratch is no part of -/

@[simp] theorem State.withScratch_params : (s.withScratch prev cur u).params = s.params := rfl
@[simp] theorem State.withScratch_status : (s.withScratch prev cur u).status = s.status := rfl
@[simp] theorem State.withScratch_phase : (s.withScratch prev cur u).phase = s.phase := rfl
@[simp] theorem State.withScratch_lop : (s.withScratch prev cur u).lop = s.lop := rfl
@[simp] theorem State.withScratch_request : (s.withScratch prev cur u).request = s.request := rfl
@[simp] theorem State.withScratch_answer : (s.withScratch prev cur u).answer = s.answer := rfl
@[simp] theorem State.withScratch_agenda : (s.withScratch prev cur u).agenda = s.agenda := rfl
@[simp] theorem State.withScratch_vec (j : Nat) : (s.withScratch prev cur u).vec j = s.vec j := rfl
@[simp] theorem State.withScratch_vecMissing (N : Nat) : (s.withScratch prev cur u).vecMissing N = s.vecMissing N := rfl
@[simp] theorem State.withScratch_vecWords (N : Nat) : (s.withScratch prev cur u).vecWords N = s.vecWords N := rfl

/-! ### The commands -/

/-- From the draw on the commands write the scratch and never read it (42_pvq_decode.md R160 to R166). -/
theorem pvqDraw_withScratch (N K : Nat) (ft : Word) :
    sameButScratch (pvqDraw s N K ft) (pvqDraw (s.withScratch prev cur u) N K ft) := by
  unfold pvqDraw
  rw [State.withScratch_answer]
  split
  · rfl
  · rfl
  · split <;> rfl

/-- Reading VEC reads no scratch. -/
theorem State.afterVecRead_withScratch (N : Nat) :
    (s.withScratch prev cur u).afterVecRead N = (s.afterVecRead N).withScratch prev cur u := by
  unfold State.afterVecRead
  rw [State.withScratch_vecMissing]
  split <;> rfl

/-- SPREAD past its checks reads and writes no scratch (43_spreading.md R190). -/
theorem spreadRun_withScratch (N K lvl B : Nat) :
    sameButScratch (spreadRun s N K lvl B) (spreadRun (s.withScratch prev cur u) N K lvl B) := by
  unfold spreadRun
  rw [State.afterVecRead_withScratch, State.withScratch_vecWords]
  dsimp only
  split <;> rfl

/-- PVQ_DECODE writes the scratch and never reads it (10_state.md R36, R37). -/
theorem execPvqDecode_withScratch :
    sameOutcomeButScratch (execPvqDecode s) (execPvqDecode (s.withScratch prev cur u)) := by
  unfold execPvqDecode
  refine related_ite rfl (related_ite rfl (related_ite rfl
    (related_ite rfl (related_ite rfl ?_))))
  exact pvqDraw_withScratch s prev cur u _ _ _

/-- SPREAD reads and writes no scratch. -/
theorem execSpread_withScratch : sameOutcomeButScratch (execSpread s) (execSpread (s.withScratch prev cur u)) := by
  unfold execSpread
  refine related_ite rfl (related_ite rfl (related_ite rfl
    (related_ite rfl (related_ite rfl ?_))))
  exact spreadRun_withScratch s prev cur u _ _ _ _

/-- No command reads the scratch (10_state.md R36, R37; 41_combinatorics.md R130). -/
theorem exec_withScratch (i : Instr) : sameOutcomeButScratch (exec i s) (exec i (s.withScratch prev cur u)) := by
  cases i with
  | ilog | fmul15 | bcos | blog2tan | isqrt | thresh => exact rfl
  | cwrsV | getpulses | fits32 => exact related_ite rfl rfl
  | pvqDecode => exact execPvqDecode_withScratch s prev cur u
  | spread => exact execSpread_withScratch s prev cur u

/-! ### The turns -/

/-- The block's turn reads no scratch. -/
theorem blockTurn_withScratch : sameOutcomeButScratch (blockTurn s) (blockTurn (s.withScratch prev cur u)) := by
  unfold blockTurn
  rw [State.withScratch_phase, State.withScratch_lop]
  split
  · split
    · exact exec_withScratch s prev cur u _
    · rfl
  · rfl
  · rfl

/-- A read of VEC[j] sees no scratch (10_state.md R35). -/
theorem State.readVec_withScratch (j : Nat) : sameButScratch (s.readVec j) ((s.withScratch prev cur u).readVec j) := by
  unfold State.readVec
  rw [State.withScratch_vec]
  split <;> rfl

/-- A legal read sees no scratch (20_memory.md R51, R60). -/
theorem State.readTarget_withScratch (x : BusTarget) :
    sameButScratch (s.readTarget x) ((s.withScratch prev cur u).readTarget x) := by
  cases x with
  | vec j => exact related_ite (R := sameButScratch) rfl (s.readVec_withScratch prev cur u j)
  | res0 | res1 => exact related_ite (R := sameButScratch) rfl rfl
  | _ => rfl

/-- A host read sees no scratch (10_state.md R36, R37). -/
theorem State.hostRead_withScratch (width off : Nat) :
    sameButScratch (s.hostRead width off) ((s.withScratch prev cur u).hostRead width off) := by
  unfold State.hostRead
  rw [State.withScratch_params]
  split
  · exact s.readTarget_withScratch prev cur u _
  · rfl

/-- A host write sees no scratch. -/
theorem State.hostWrite_withScratch (width off : Nat) (v : Word) :
    sameButScratch (s.hostWrite width off v) ((s.withScratch prev cur u).hostWrite width off v) := by
  unfold State.hostWrite
  rw [State.withScratch_params, State.withScratch_status]
  split
  · split
    · rfl
    · cases busTarget s.params off <;> rfl
  · rfl

/-- An arriving answer is received whatever the scratch holds. -/
theorem State.receive_withScratch (a : Answer) :
    sameButScratch (s.receive a) ((s.withScratch prev cur u).receive a) := by
  unfold State.receive
  rw [State.withScratch_request]
  split
  · rfl
  · split
    · split <;> rfl
    · rfl

/-- No agent's turn reads the scratch. -/
theorem takeTurn_withScratch (x : Turn) :
    sameOutcomeButScratch (takeTurn s x) (takeTurn (s.withScratch prev cur u) x) := by
  cases x with
  | block => exact blockTurn_withScratch s prev cur u
  | read width addr =>
    unfold takeTurn
    rw [State.withScratch_params]
    dsimp only
    split
    · exact s.hostRead_withScratch prev cur u width _
    · rfl
  | write width addr v =>
    unfold takeTurn
    rw [State.withScratch_params]
    dsimp only
    split
    · exact s.hostWrite_withScratch prev cur u width _ v
    · rfl
  | answer a => exact s.receive_withScratch prev cur u a
  | lateAnswer a => rfl
  | reset => rfl

end

/-- Settles O58: the two states take the same turn, and no turn reads the scratch. -/
theorem scratchIsNeverObserved : Obligations.ScratchIsNeverObserved := by
  intro s s' same
  obtain ⟨prev, cur, u, rfl⟩ := (sameButScratch_iff s s').1 same
  unfold step nextTurn
  rw [State.withScratch_agenda]
  split
  · exact blockTurn_withScratch s prev cur u
  · next x rest _ => exact takeTurn_withScratch { s with agenda := rest } prev cur u x

end Sys2Proof.Machine
end

section
/-! ## Which events change a register -/

namespace Sys2Proof.Machine

/-! ### What a step can change, told by the event -/

/-- CMD and the latches. -/
def State.latched (s : State) := (s.cmd, s.lcmd, s.lop, s.l0, s.l1, s.l2, s.l3)

/-- The operand registers. -/
def State.args (s : State) := (s.arg0, s.arg1, s.arg2, s.arg3)

/-- The result registers. -/
def State.results (s : State) := (s.res0, s.res1)

/-- What no event changes: the parameters; and no recorded fault is cleared (10_state.md R39). -/
structure State.KeepsRecord (s t : State) : Prop where
  params : t.params = s.params
  badAccess : s.faults.badAccess = true → t.faults.badAccess = true
  unwrittenVec : s.faults.unwrittenVec = true → t.faults.unwrittenVec = true
  entropyRange : s.faults.entropyRange = true → t.faults.entropyRange = true

/-- What a block turn from `s` to `t` may write of the registers and of memory. -/
inductive State.BlockEvent (s t : State) : Prop
  /-- No command completes. -/
  | runs (args : t.args = s.args) (latched : t.latched = s.latched) (results : t.results = s.results)
      (mem : t.mem = s.mem)
  /-- A command completes; only PVQ_DECODE and SPREAD write memory. -/
  | completes (exec : s.phase = .exec) (idle : t.phase = .idle) (done : t.status.done = true) (args : t.args = s.args)
      (latched : t.latched = s.latched) (mem : t.mem = s.mem ∨ s.lop = .op 0xA ∨ s.lop = .op 0xB)

/-- What a step from `s` to `t` may write of the registers and of memory, by whose turn it is. -/
inductive State.Event (s t : State) : Prop
  | block (event : s.BlockEvent t)
  /-- An accept (10_state.md R30). -/
  | accepts (w : Word) (turn : s.agenda.head? = some (.write 32 s.params.base w)) (idle : s.status.busy = false)
      (phase : t.phase = .exec) (latched : t.latched = (w, w, latchOp w, s.arg0, s.arg1, s.arg2, s.arg3))
      (results : t.results = s.results) (mem : t.mem = s.mem)
  /-- An idle host write of VEC[j] (20_memory.md R51). -/
  | writes (width addr : Nat) (v : Word) (turn : s.agenda.head? = some (.write width addr v))
      (idle : s.status.busy = false) (latched : t.latched = s.latched) (results : t.results = s.results)
  /-- Another turn of the host or the collaborator. -/
  | other (x : Turn) (turn : s.agenda.head? = some x) (notBlock : x ≠ .block) (latched : t.latched = s.latched)
      (results : t.results = s.results) (mem : t.mem = s.mem)
  /-- The reset input. -/
  | resets (turn : s.agenda.head? = some .reset)

/-! ### The block's turn -/

/-- A command keeps the record. -/
theorem State.Keeps.record {s t : State} (h : s.Keeps t) : s.KeepsRecord t :=
  ⟨h.params, fun b => h.badAccess.trans b, h.unwrittenVec, h.entropyRange⟩

/-- A command writes no operand register. -/
theorem State.Keeps.args_eq {s t : State} (h : s.Keeps t) : t.args = s.args := by
  obtain ⟨e0, e1, e2, e3⟩ := h.args
  simp only [State.args, e0, e1, e2, e3]

/-- A command writes neither CMD nor a latch. -/
theorem State.Keeps.latched_eq {s t : State} (h : s.Keeps t) : t.latched = s.latched := by
  obtain ⟨cmd, lcmd, lop⟩ := h.command
  obtain ⟨e0, e1, e2, e3⟩ := h.latches
  simp only [State.latched, cmd, lcmd, lop, e0, e1, e2, e3]

/-- A command's step is an event of the block. -/
theorem Ending.event {s t : State} {i : Instr} (h : Ending i s t) (runs : s.phase = .exec)
    (lop : s.lop = .op (opcodeOf i)) : s.BlockEvent t := by
  cases h with
  | completes _ c keeps request answer phase status vec =>
    refine .completes runs phase (by rw [status]; rfl) keeps.args_eq keeps.latched_eq ?_
    rcases vec with e | ⟨_, rfl | rfl⟩
    · exact .inl e
    · exact .inr (.inl lop)
    · exact .inr (.inr lop)
  | asks => exact .runs rfl rfl rfl rfl
  | breaks => exact .runs rfl rfl rfl rfl

/-- The block's turn keeps the record and is an event of the block. -/
theorem blockTurn_event {s t : State} (h : blockTurn s = .next t) : s.KeepsRecord t ∧ s.BlockEvent t := by
  rcases blockTurn_ending h with ⟨_, rfl⟩ | ⟨runs, _, rfl⟩ | ⟨i, runs, lop, _, ending⟩
  · exact ⟨⟨rfl, id, id, id⟩, .runs rfl rfl rfl rfl⟩
  · exact ⟨(s.keeps_complete _).record, .completes runs rfl rfl rfl rfl (.inl rfl)⟩
  · exact ⟨ending.keeps.record, ending.event runs lop⟩

/-! ### The turns of the other agents -/

/-- A host read keeps the record. -/
theorem State.keepsRecord_hostRead (s : State) (width off : Nat) : s.KeepsRecord (s.hostRead width off) := by
  have params : (s.hostRead width off).params = s.params := by rw [s.hostRead_frame width off]
  rcases s.hostRead_faults width off with e | e | e <;> constructor <;> simp [params, e]

/-- A host write keeps the record. -/
theorem State.keepsRecord_hostWrite (s : State) (width off : Nat) (v : Word) : s.KeepsRecord (s.hostWrite width off v) := by
  rcases s.hostWrite_effect width off v with e | ⟨_, _, _, e⟩ | ⟨_, _, _, e⟩ | ⟨_, _, _, _, _, e⟩ <;> rw [e]
  · exact ⟨rfl, fun _ => rfl, id, id⟩
  · exact ⟨rfl, id, id, id⟩
  · exact ⟨rfl, id, id, id⟩
  · exact ⟨rfl, id, id, id⟩

/-- An arriving answer keeps the record. -/
theorem State.keepsRecord_receive (s : State) (a : Answer) : s.KeepsRecord (s.receive a) := by
  rcases s.receive_cases a with ⟨_, e⟩ | ⟨_, _, _, e⟩ | ⟨_, _, _, _, _, e⟩ <;> rw [e]
  · exact ⟨rfl, id, id, id⟩
  · exact ⟨rfl, id, id, id⟩
  · exact ⟨rfl, id, id, fun _ => rfl⟩

/-- A step on a host write is an accept, a write of VEC, or changes none of the registers an event is told by. -/
theorem State.event_hostWrite (s : State) (width addr : Nat) (v : Word) (rest : List Turn)
    (agenda : s.agenda = .write width addr v :: rest) (base : s.params.base ≤ addr) :
    s.Event (({ s with agenda := rest } : State).hostWrite width (addr - s.params.base) v) := by
  have turn : s.agenda.head? = some (.write width addr v) := by rw [agenda]; rfl
  rcases State.hostWrite_effect { s with agenda := rest } width (addr - s.params.base) v with
    e | ⟨rfl, off, idle, e⟩ | ⟨_, _, idle, e⟩ | ⟨_, _, _, _, _, e⟩ <;> rw [e]
  · exact .other _ turn (by simp) rfl rfl rfl
  · obtain rfl : addr = s.params.base := by omega
    exact .accepts v turn idle rfl rfl rfl rfl
  · exact .writes width addr v turn idle rfl rfl
  · exact .other _ turn (by simp) rfl rfl rfl

/-- A step on a host read changes no register and no memory (20_memory.md R57). -/
theorem State.event_hostRead (s : State) (width off : Nat) (x : Turn) (rest : List Turn) (agenda : s.agenda = x :: rest)
    (notBlock : x ≠ .block) : s.Event (({ s with agenda := rest } : State).hostRead width off) := by
  have turn : s.agenda.head? = some x := by rw [agenda]; rfl
  rw [State.hostRead_frame]
  exact .other x turn notBlock rfl rfl rfl

/-- A step on an answer changes no register and no memory (10_state.md R32). -/
theorem State.event_receive (s : State) (a : Answer) (rest : List Turn) (agenda : s.agenda = .answer a :: rest) :
    s.Event (({ s with agenda := rest } : State).receive a) := by
  have turn : s.agenda.head? = some (.answer a) := by rw [agenda]; rfl
  rcases State.receive_cases { s with agenda := rest } a with ⟨_, e⟩ | ⟨_, _, _, e⟩ | ⟨_, _, _, _, _, e⟩ <;> rw [e] <;>
    exact .other _ turn (by simp) rfl rfl rfl

/-! ### One step -/

/-- Every step clears no fault, changes no parameter, and is one of the events. -/
theorem step_event {s t : State} (h : step s = .next t) : s.KeepsRecord t ∧ s.Event t := by
  have record (rest : List Turn) (t : State) (kept : ({ s with agenda := rest } : State).KeepsRecord t) :
      s.KeepsRecord t := ⟨kept.params, kept.badAccess, kept.unwrittenVec, kept.entropyRange⟩
  rcases step_cases s t h with ⟨rest, _, h⟩ | ⟨width, addr, rest, agenda, _, rfl⟩ |
    ⟨width, addr, v, rest, agenda, base, rfl⟩ | ⟨a, rest, agenda, rfl⟩ | ⟨a, rest, agenda, rfl⟩ | ⟨rest, agenda, rfl⟩
  · obtain ⟨kept, event⟩ := blockTurn_event h
    refine ⟨record rest t kept, .block ?_⟩
    cases event with
    | runs args latched results mem => exact .runs args latched results mem
    | completes exec idle done args latched mem => exact .completes exec idle done args latched mem
  · exact ⟨record rest _ (State.keepsRecord_hostRead _ _ _), s.event_hostRead _ _ _ rest agenda (by simp)⟩
  · exact ⟨record rest _ (State.keepsRecord_hostWrite _ _ _ _), s.event_hostWrite width addr v rest agenda base⟩
  · exact ⟨record rest _ (State.keepsRecord_receive _ _), s.event_receive a rest agenda⟩
  · exact ⟨record rest _ ⟨rfl, id, id, id⟩, .other (.lateAnswer a) (by rw [agenda]; rfl) (by simp) rfl rfl rfl⟩
  · exact ⟨record rest _ ⟨rfl, id, id, id⟩, .resets (by rw [agenda]; rfl)⟩

section
variable {s t : State} (event : s.Event t)
include event

/-- A block turn writes no operand register, CMD or latch. -/
theorem State.Event.block_keeps (turn : s.agenda = [] ∨ s.agenda.head? = some .block) :
    t.args = s.args ∧ t.latched = s.latched := by
  have onlyBlock (x : Turn) (head : s.agenda.head? = some x) : x = .block := by
    rcases turn with e | e
    · rw [e] at head
      cases head
    · exact Option.some.inj (head.symm.trans e)
  cases event with
  | block event =>
    cases event with
    | runs args latched => exact ⟨args, latched⟩
    | completes _ _ _ args latched => exact ⟨args, latched⟩
  | accepts w turn => cases onlyBlock _ turn
  | writes width addr v turn => cases onlyBlock _ turn
  | other x turn notBlock => exact absurd (onlyBlock x turn) notBlock
  | resets turn => cases onlyBlock _ turn

/-- CMD and the latches change at an accept or a reset (10_state.md R23, R28, R30, R33). -/
theorem State.Event.latched_changed (changed : t.latched ≠ s.latched) :
    (∃ w, s.agenda.head? = some (.write 32 s.params.base w) ∧ s.status.busy = false ∧ t.phase = .exec ∧
      t.latched = (w, w, latchOp w, s.arg0, s.arg1, s.arg2, s.arg3)) ∨ s.agenda.head? = some .reset := by
  cases event with
  | block event =>
    cases event with
    | runs _ latched => exact absurd latched changed
    | completes _ _ _ _ latched => exact absurd latched changed
  | accepts w turn idle phase latched => exact .inl ⟨w, turn, idle, phase, latched⟩
  | writes _ _ _ _ _ latched => exact absurd latched changed
  | other _ _ _ latched => exact absurd latched changed
  | resets turn => exact .inr turn

/-- RES0 and RES1 change at a completion or a reset (10_state.md R22). -/
theorem State.Event.results_changed (changed : t.results ≠ s.results) :
    (s.phase = .exec ∧ t.phase = .idle ∧ t.status.done = true) ∨ s.agenda.head? = some .reset := by
  cases event with
  | block event =>
    cases event with
    | runs _ _ results => exact absurd results changed
    | completes exec idle done => exact .inl ⟨exec, idle, done⟩
  | accepts _ _ _ _ _ results => exact absurd results changed
  | writes _ _ _ _ _ _ results => exact absurd results changed
  | other _ _ _ _ results => exact absurd results changed
  | resets turn => exact .inr turn

/-- Memory changes at a completion of PVQ_DECODE or SPREAD, a reset or an idle host write (10_state.md R34). -/
theorem State.Event.mem_changed (changed : t.mem ≠ s.mem) :
    (s.phase = .exec ∧ t.phase = .idle ∧ t.status.done = true ∧ (s.lop = .op 0xA ∨ s.lop = .op 0xB)) ∨
    s.agenda.head? = some .reset ∨
    ∃ width addr v, s.agenda.head? = some (.write width addr v) ∧ s.status.busy = false := by
  cases event with
  | block event =>
    cases event with
    | runs _ _ _ mem => exact absurd mem changed
    | completes exec idle done _ _ mem => exact .inl ⟨exec, idle, done, mem.resolve_left changed⟩
  | accepts _ _ _ _ _ _ mem => exact absurd mem changed
  | writes width addr v turn idle => exact .inr (.inr ⟨width, addr, v, turn, idle⟩)
  | other _ _ _ _ _ mem => exact absurd mem changed
  | resets turn => exact .inr (.inl turn)

end

/-- Settles O57: the event of the step tells what it may have written. -/
theorem onlyTheNamedEventsChangeARegister : Obligations.OnlyTheNamedEventsChangeARegister := by
  intro s t h
  obtain ⟨⟨params, badAccess, unwrittenVec, entropyRange⟩, event⟩ := step_event h
  refine ⟨params, badAccess, unwrittenVec, entropyRange, fun turn => ?_, fun changed => ?_, fun changed => ?_,
    event.mem_changed⟩
  · obtain ⟨args, latched⟩ := event.block_keeps turn
    simp only [State.args, State.latched, Prod.mk.injEq] at args latched
    obtain ⟨arg0, arg1, arg2, arg3⟩ := args
    exact ⟨arg0, arg1, arg2, arg3, latched.1⟩
  · have latched : t.latched ≠ s.latched := by
      simpa only [State.latched, ne_eq, Prod.mk.injEq, not_and_or] using changed
    simpa only [State.latched, Prod.mk.injEq] using event.latched_changed latched
  · refine event.results_changed ?_
    simpa only [State.results, ne_eq, Prod.mk.injEq, not_and_or] using changed

end Sys2Proof.Machine
end

section
/-! ## The host's accesses to the register space (20_memory.md) -/

namespace Sys2Proof.Machine

/-! ### Steps on a host turn -/

/-- A step on a host read goes where the read goes once the turn is taken. -/
theorem step_read_to {s t : State} {width off : Nat} {rest : List Turn}
    (agenda : s.agenda = .read width (s.params.base + off) :: rest)
    (access : ({ s with agenda := rest } : State).hostRead width off = t) : step s = .next t :=
  (step_read s width off rest agenda).trans (congrArg _ access)

/-- A step on a host write goes where the write goes once the turn is taken. -/
theorem step_write_to {s t : State} {width off : Nat} {v : Word} {rest : List Turn}
    (agenda : s.agenda = .write width (s.params.base + off) v :: rest)
    (access : ({ s with agenda := rest } : State).hostWrite width off v = t) : step s = .next t :=
  (step_write s width off v rest agenda).trans (congrArg _ access)

/-- An address below BASE has no offset (20_memory.md R50). -/
theorem Params.offset?_below {p : Params} {addr : Nat} (below : addr < p.base) : Params.offset? p addr = none :=
  if_neg (Nat.not_le.2 below)

/-- A read below BASE stops (log 17). -/
theorem step_read_below {s : State} {width addr : Nat} {rest : List Turn} (below : addr < s.params.base)
    (agenda : s.agenda = .read width addr :: rest) : step s = .fault .outsideBlock := by
  unfold step nextTurn
  rw [agenda]
  simp only [takeTurn, Params.offset?_below below]

/-- A write below BASE stops (log 17). -/
theorem step_write_below {s : State} {width addr : Nat} {v : Word} {rest : List Turn} (below : addr < s.params.base)
    (agenda : s.agenda = .write width addr v :: rest) : step s = .fault .outsideBlock := by
  unfold step nextTurn
  rw [agenda]
  simp only [takeTurn, Params.offset?_below below]

/-- Settles O18: an address below BASE has no offset, and `takeTurn` stops there. -/
theorem accessBelowBaseStops : Obligations.AccessBelowBaseStops :=
  fun _ _ _ _ _ below => ⟨step_read_below below, step_write_below below⟩

/-! ### Bad accesses -/

/-- Another width, or an offset that is no multiple of 4 (20_memory.md R53). -/
theorem accessLegal_eq_false {width off : Nat} (bad : width ≠ 32 ∨ off % 4 ≠ 0) : accessLegal width off = false := by
  rw [← Bool.not_eq_true, accessLegal_iff]
  exact not_and_or.2 bad

/-- A bad read records the fault and returns a free value (20_memory.md R53). -/
theorem State.hostRead_bad (s : State) {width off : Nat} (bad : width ≠ 32 ∨ off % 4 ≠ 0) :
    s.hostRead width off = s.recordBadAccess.returnsFree := by
  simp [State.hostRead, accessLegal_eq_false bad]

/-- A bad write records the fault and does nothing else (20_memory.md R53; log 18). -/
theorem State.hostWrite_bad (s : State) {width off : Nat} (v : Word) (bad : width ≠ 32 ∨ off % 4 ≠ 0) :
    s.hostWrite width off v = s.recordBadAccess := by
  simp [State.hostWrite, accessLegal_eq_false bad]

/-- Settles O16: a bad access is no legal one, whatever BUSY is. -/
theorem badAccessIsRecordedAndChangesNothingElse : Obligations.BadAccessIsRecordedAndChangesNothingElse :=
  fun _ _ _ _ bad =>
    ⟨fun agenda => ⟨_, step_read_to agenda (State.hostRead_bad _ bad)⟩,
      fun v agenda => step_write_to agenda (State.hostWrite_bad _ v bad)⟩

/-! ### Reserved offsets -/

section
variable (s : State) {off : Nat} (aligned : off % 4 = 0)
  (reserved : (0x020 ≤ off ∧ off < 0x100) ∨ 0x100 + 4 * s.params.nmax ≤ off)
include aligned reserved

/-- A reserved offset reads 0 (20_memory.md R52; log 18). -/
theorem State.hostRead_reserved : s.hostRead 32 off = s.returns 0 := by
  rw [s.hostRead_legal off aligned, busTarget_reserved s.params off reserved]
  rfl

/-- An idle write to a reserved offset is ignored (20_memory.md R52). -/
theorem State.hostWrite_reserved (v : Word) (idle : s.status.busy = false) : s.hostWrite 32 off v = s := by
  rw [s.hostWrite_idle off v aligned idle, busTarget_reserved s.params off reserved]
  rfl

end

/-- Settles O15: `busTarget` finds nothing at these offsets, and the rule for writes while BUSY asks for no target. -/
theorem reservedOffsetsReadZeroAndIgnoreWrites : Obligations.ReservedOffsetsReadZeroAndIgnoreWrites :=
  fun s _ rest aligned reserved =>
    ⟨fun agenda => step_read_to agenda (State.hostRead_reserved _ aligned reserved),
      fun v agenda =>
        ⟨fun idle => step_write_to agenda (State.hostWrite_reserved { s with agenda := rest } aligned reserved v idle),
          fun busy => step_write_to agenda (State.hostWrite_busy _ _ v aligned busy)⟩⟩

/-! ### Legal reads -/

/-- The registers that read alike while idle and while BUSY, each with its offset (20_memory.md R51, R60). -/
def State.steadyRegisters (s : State) : List (Nat × Word) :=
  [(0x000, s.cmd), (0x004, s.status.word), (0x008, s.arg0), (0x00C, s.arg1), (0x010, s.arg2), (0x014, s.arg3)]

/-- The result registers with their offsets (20_memory.md R51). -/
def State.resultRegisters (s : State) : List (Nat × Word) := [(0x018, s.res0), (0x01C, s.res1)]

/-- CMD, STATUS and the operand registers read at their offsets, idle or BUSY (20_memory.md R51, R60). -/
theorem State.hostRead_steady (s : State) : ∀ r ∈ s.steadyRegisters, s.hostRead 32 r.1 = s.returns r.2 := by
  simp only [State.steadyRegisters, List.forall_mem_cons]
  exact ⟨rfl, rfl, rfl, rfl, rfl, rfl, nofun⟩

/-- While idle the result registers read at their offsets (20_memory.md R51). -/
theorem State.hostRead_result {s : State} (idle : s.status.busy = false) :
    ∀ r ∈ s.resultRegisters, s.hostRead 32 r.1 = s.returns r.2 := by
  simp [State.resultRegisters, s.hostRead_legal, busTarget, State.readTarget, idle]

/-- While idle a VEC word that holds a value reads as that value (10_state.md R34). -/
theorem State.hostRead_vec {s : State} {j : Nat} {v : Word} (idle : s.status.busy = false) (hj : j < s.params.nmax)
    (holds : s.vec j = some v) : s.hostRead 32 (0x100 + 4 * j) = s.returns v := by
  rw [s.hostRead_legal _ (by omega), busTarget_vec _ _ hj]
  simp [State.readTarget, State.readVec, idle, holds]

/-- While BUSY the result registers and the VEC words read as free values and fault nothing (20_memory.md R60). -/
theorem State.hostRead_hidden {s : State} {off : Nat} (busy : s.status.busy = true)
    (hidden : off = 0x018 ∨ off = 0x01C ∨ ∃ j, j < s.params.nmax ∧ off = 0x100 + 4 * j) :
    s.hostRead 32 off = s.returnsFree := by
  rcases hidden with rfl | rfl | ⟨j, hj, rfl⟩
  · simp [s.hostRead_legal, busTarget, State.readTarget, busy]
  · simp [s.hostRead_legal, busTarget, State.readTarget, busy]
  · rw [s.hostRead_legal _ (by omega), busTarget_vec _ _ hj]
    simp [State.readTarget, busy]

/-- Settles O12: a write while BUSY asks for no target; a read has a register's value or a free one. -/
theorem accessWhileBusy : Obligations.AccessWhileBusy :=
  fun s rest busy =>
    ⟨fun _ v aligned agenda => step_write_to agenda (State.hostWrite_busy _ _ v aligned busy),
      fun off v listed agenda => step_read_to agenda (State.hostRead_steady { s with agenda := rest } (off, v) listed),
      fun _ hidden agenda => ⟨_, step_read_to agenda (State.hostRead_hidden busy hidden)⟩⟩

/-! ### Legal writes -/

/-- While idle STATUS and the result registers ignore a write (20_memory.md R51). -/
theorem State.hostWrite_readOnly {s : State} (v : Word) (idle : s.status.busy = false) :
    ∀ off ∈ [0x004, 0x018, 0x01C], s.hostWrite 32 off v = s := by
  simp only [List.forall_mem_cons]
  exact ⟨s.hostWrite_idle 0x004 v rfl idle, s.hostWrite_idle 0x018 v rfl idle, s.hostWrite_idle 0x01C v rfl idle, nofun⟩

/-- An idle write to VEC[j] (20_memory.md R51). -/
theorem State.hostWrite_vec {s : State} {j : Nat} (v : Word) (idle : s.status.busy = false) (hj : j < s.params.nmax) :
    s.hostWrite 32 (0x100 + 4 * j) v = s.setVec j v := by
  rw [s.hostWrite_idle _ v (by omega) idle, busTarget_vec _ _ hj]
  rfl

/-- A write of VEC[j] leaves every byte outside its four alone (20_memory.md R56). -/
theorem State.readByte_setVec_other {s : State} {j x : Nat} (v : Word) (canonical : Memory.wf s.mem)
    (outside : x < vecOffset j ∨ vecOffset j + 4 ≤ x) :
    Memory.readByte (s.setVec j v).mem x = Memory.readByte s.mem x := by
  rw [State.setVec_mem, Memory.readByte_writeWord _ _ _ _ canonical, if_neg (by omega)]

/-- Settles O14: each register's read and write, and `State.setVec` for VEC[j]. -/
theorem idleAccessesFollowTheRegisterMap : Obligations.IdleAccessesFollowTheRegisterMap := by
  intro s rest idle canonical
  refine ⟨fun off v listed agenda => step_read_to agenda ?_,
    fun j v hj holds agenda => step_read_to agenda (State.hostRead_vec idle hj holds),
    fun off v listed agenda =>
      step_write_to agenda (State.hostWrite_readOnly (s := { s with agenda := rest }) v idle off listed),
    fun v agenda => step_write_to agenda (State.hostWrite_idle _ 0x008 v rfl idle),
    fun v agenda => step_write_to agenda (State.hostWrite_idle _ 0x00C v rfl idle),
    fun v agenda => step_write_to agenda (State.hostWrite_idle _ 0x010 v rfl idle),
    fun v agenda => step_write_to agenda (State.hostWrite_idle _ 0x014 v rfl idle),
    fun j v hj agenda => ⟨_, step_write_to agenda (State.hostWrite_vec v idle hj), rfl,
      (State.vec_setVec _ j j v canonical).trans (if_pos rfl),
      fun k other => (State.vec_setVec _ j k v canonical).trans (if_neg other),
      fun x outside => State.readByte_setVec_other v canonical outside⟩⟩
  have listed : (off, v) ∈ s.steadyRegisters ++ s.resultRegisters := listed
  rcases List.mem_append.1 listed with steady | result
  · exact State.hostRead_steady { s with agenda := rest } (off, v) steady
  · exact State.hostRead_result (s := { s with agenda := rest }) idle (off, v) result

/-! ### An access again -/

/-- An idle read of a readable word returns a value that does not depend on what the bus returned before. -/
theorem State.readTarget_steady {s : State} (x : BusTarget) (idle : s.status.busy = false)
    (readable : ∀ j, x = .vec j → (s.vec j).isSome) :
    ∃ v, ∀ r, ({ s with rdata := r } : State).readTarget x = s.returns v := by
  cases x with
  | status => exact ⟨s.status.word, fun _ => rfl⟩
  | res0 => exact ⟨s.res0, fun _ => by simp [State.readTarget, State.returns, idle]⟩
  | res1 => exact ⟨s.res1, fun _ => by simp [State.readTarget, State.returns, idle]⟩
  | vec j =>
    obtain ⟨v, holds⟩ := Option.isSome_iff_exists.1 (readable j rfl)
    have held (r : Option Word) : ({ s with rdata := r } : State).vec j = some v := holds
    exact ⟨v, fun r => by simp [State.readTarget, State.readVec, State.returns, idle, held r]⟩
  | _ => exact ⟨_, fun _ => rfl⟩

/-- Reading a readable word again while idle changes nothing more (20_memory.md R57). -/
theorem State.hostRead_hostRead {s : State} {off : Nat} (aligned : off % 4 = 0) (idle : s.status.busy = false)
    (readable : ∀ j, j < s.params.nmax → off = 0x100 + 4 * j → (s.vec j).isSome) :
    (s.hostRead 32 off).hostRead 32 off = s.hostRead 32 off := by
  have place := busTarget_offset s.params off aligned
  obtain ⟨v, reads⟩ := State.readTarget_steady (busTarget s.params off) idle fun j target => by
    rw [target] at place
    exact readable j place.1 place.2
  have once : s.hostRead 32 off = s.returns v := (s.hostRead_legal off aligned).trans (reads s.rdata)
  rw [once]
  exact (State.hostRead_legal _ off aligned).trans (reads (some v))

/-- Only offset 0 is CMD's (20_memory.md R51). -/
theorem busTarget_ne_cmd {p : Params} {off : Nat} (aligned : off % 4 = 0) (elsewhere : off ≠ 0) :
    busTarget p off ≠ .cmd := by
  intro target
  have place := busTarget_offset p off aligned
  rw [target] at place
  exact elsewhere place

/-- A write to any word but CMD leaves the parameters and STATUS alone. -/
theorem State.writeTarget_keeps (s : State) (v : Word) {x : BusTarget} (notCmd : x ≠ .cmd) :
    (s.writeTarget v x).params = s.params ∧ (s.writeTarget v x).status = s.status := by
  cases x with
  | cmd => exact absurd rfl notCmd
  | _ => exact ⟨rfl, rfl⟩

/-- Writing any word but CMD twice is writing it once. -/
theorem State.writeTarget_writeTarget (s : State) (v : Word) {x : BusTarget} (canonical : Memory.wf s.mem)
    (notCmd : x ≠ .cmd) : (s.writeTarget v x).writeTarget v x = s.writeTarget v x := by
  cases x with
  | cmd => exact absurd rfl notCmd
  | vec j =>
    simp only [State.writeTarget, State.setVec, Memory.writeWord_writeWord _ _ _ canonical]
  | _ => rfl

/-- A legal write again, at any offset but CMD's, changes nothing more (20_memory.md R57, R60). -/
theorem State.hostWrite_hostWrite {s : State} {off : Nat} (v : Word) (canonical : Memory.wf s.mem) (aligned : off % 4 = 0)
    (elsewhere : off ≠ 0) : (s.hostWrite 32 off v).hostWrite 32 off v = s.hostWrite 32 off v := by
  cases busy : s.status.busy with
  | true =>
    rw [s.hostWrite_busy off v aligned busy]
    exact State.hostWrite_busy _ off v aligned busy
  | false =>
    have notCmd := busTarget_ne_cmd (p := s.params) aligned elsewhere
    obtain ⟨params, status⟩ := s.writeTarget_keeps v notCmd
    rw [s.hostWrite_idle off v aligned busy, State.hostWrite_idle _ off v aligned (by rw [status, busy]), params]
    exact s.writeTarget_writeTarget v canonical notCmd

/-- An idle legal write changes the word at its own offset alone (20_memory.md R57). -/
theorem State.hostWrite_writesItsOwnWord {s : State} {off : Nat} (v : Word) (canonical : Memory.wf s.mem)
    (aligned : off % 4 = 0) (idle : s.status.busy = false) :
    Claims.writesItsOwnWord s (s.hostWrite 32 off v) off v := by
  have place := busTarget_offset s.params off aligned
  rw [s.hostWrite_idle off v aligned idle]
  unfold Claims.writesItsOwnWord
  cases target : busTarget s.params off <;> rw [target] at place
  case vec j =>
    obtain ⟨hj, here⟩ := place
    refine ⟨hj, here, rfl, ?_, fun x outside => s.readByte_setVec_other v canonical (by omega)⟩
    exact (s.vec_setVec j j v canonical).trans (if_pos rfl)
  case cmd | arg0 | arg1 | arg2 | arg3 => exact ⟨place, rfl⟩
  case status | res0 | res1 | reserved => rfl

/-- A step on a host read changes nothing of the block (20_memory.md R57). -/
theorem step_read_frame {s t : State} {width addr : Nat} {rest : List Turn} (agenda : s.agenda = .read width addr :: rest)
    (h : step s = .next t) : t = { s with agenda := rest, rdata := t.rdata, faults := t.faults, draws := t.draws } := by
  by_cases below : addr < s.params.base
  · rw [step_read_below below agenda] at h
    cases h
  · obtain ⟨off, rfl⟩ := Nat.exists_eq_add_of_le (Nat.not_lt.1 below)
    rw [step_read s width off rest agenda] at h
    injection h with h
    rw [← h]
    exact State.hostRead_frame _ width off

/-- Settles O13: a read changes nothing of the block, and of the targets of a write CMD alone starts anything. -/
theorem accessesHaveNoSideEffectButAccept : Obligations.AccessesHaveNoSideEffectButAccept :=
  ⟨fun _ w idle => State.hostWrite_cmd idle w, fun _ _ _ _ _ agenda h => step_read_frame agenda h,
    fun _ _ aligned idle readable => State.hostRead_hostRead aligned idle readable,
    fun _ _ v canonical aligned elsewhere => State.hostWrite_hostWrite v canonical aligned elsewhere,
    fun s off v aligned busy => s.hostWrite_busy off v aligned busy,
    fun _ _ v canonical aligned idle => State.hostWrite_writesItsOwnWord v canonical aligned idle⟩

end Sys2Proof.Machine
end

section
/-! ## Decode and encode are inverse, on words and on lists of bytes -/

namespace Sys2Proof.Machine

/-! ### Command words -/

/-- A word is a command's word exactly when its fields are RSV = 0 and the command's opcode (30_encoding.md R70, R72). -/
theorem eq_encode_iff {w : Word} {i : Instr} : w = encode i ↔ (cmdFields w).rsv = 0 ∧ (cmdFields w).op = opcodeOf i := by
  constructor
  · rintro rfl
    exact ⟨BitVec.extractLsb'_append_eq_left, BitVec.extractLsb'_append_eq_right⟩
  · rintro ⟨rsv, op⟩
    have fields : (cmdFields w).rsv ++ (cmdFields w).op = w :=
      (BitVec.extractLsb'_append_extractLsb'_eq_extractLsb' rfl).trans BitVec.extractLsb'_eq_self
    rw [← fields, rsv, op]
    rfl

/-- A word decodes to a command exactly when it is that command's word (30_encoding.md R73). -/
theorem decode_eq_ok_iff {w : Word} {i : Instr} : decode w = .ok i ↔ w = encode i := by
  constructor
  · intro h
    unfold decode at h
    split at h
    case isTrue => cases h
    case isFalse reserved_clear =>
      split at h <;> cases h
      case h_1 named => exact eq_encode_iff.2 ⟨not_not.1 reserved_clear, instrOfOpcode_eq_some.1 named⟩
  · rintro rfl
    exact decode_encode i

/-- LOP latches ILLEGAL exactly of the words that are no command's (30_encoding.md R73). -/
theorem latchOp_eq_illegal_iff {w : Word} : latchOp w = .illegal ↔ ∀ i, w ≠ encode i := by
  simp only [ne_eq, ← decode_eq_ok_iff, latchOp]
  cases decode w <;> simp

/-- The opcodes that name no command (30_encoding.md R72). -/
theorem instrOfOpcode_eq_none {code : BitVec 4} : instrOfOpcode code = none ↔ code = 0 ∨ 0xC ≤ code.toNat := by
  revert code
  decide

/-- The words that are no command's: a reserved opcode or a reserved bit set (30_encoding.md R74). -/
theorem forall_ne_encode_iff {w : Word} :
    (∀ i, w ≠ encode i) ↔ w.extractLsb' 0 4 = 0 ∨ 0xC ≤ (w.extractLsb' 0 4).toNat ∨ w.extractLsb' 4 28 ≠ 0 := by
  have unnamed : (∀ i, (cmdFields w).op ≠ opcodeOf i) ↔ (cmdFields w).op = 0 ∨ 0xC ≤ (cmdFields w).op.toNat := by
    rw [← instrOfOpcode_eq_none, Option.eq_none_iff_forall_ne_some]
    exact forall_congr' fun i => not_congr instrOfOpcode_eq_some.symm
  calc (∀ i, w ≠ encode i)
      ↔ (cmdFields w).rsv ≠ 0 ∨ ∀ i, (cmdFields w).op ≠ opcodeOf i := by
        simp only [ne_eq, eq_encode_iff, not_and_or, forall_or_left]
    _ ↔ ((cmdFields w).op = 0 ∨ 0xC ≤ (cmdFields w).op.toNat) ∨ (cmdFields w).rsv ≠ 0 := by rw [unnamed, or_comm]
    _ ↔ _ := or_assoc

/-- Settles O2: a word is its two fields, so `decode` accepts the eleven command words alone. -/
theorem decodeMatchesExactlyTheTableWords : Obligations.DecodeMatchesExactlyTheTableWords :=
  fun _ => ⟨fun _ => decode_eq_ok_iff, latchOp_eq_illegal_iff, latchOp_eq_illegal_iff.trans forall_ne_encode_iff⟩

/-! ### Command words as bytes -/

/-- A word is made of four bytes exactly when they are its bytes (20_memory.md R54). -/
theorem wordOfBytes_eq_iff {b0 b1 b2 b3 : Byte} {w : Word} :
    wordOfBytes b0 b1 b2 b3 = w ↔ [b0, b1, b2, b3] = bytesOfWord w := by
  constructor
  · rintro rfl
    obtain ⟨h0, h1, h2, h3⟩ := byteOf_wordOfBytes b0 b1 b2 b3
    simp only [bytesOfWord, h0, h1, h2, h3]
  · intro h
    simp only [bytesOfWord, List.cons.injEq] at h
    obtain ⟨rfl, rfl, rfl, rfl, _⟩ := h
    exact wordOfBytes_byteOf w

/-- A command word has four bytes (30_encoding.md R70). -/
@[simp] theorem encodeBytes_length (i : Instr) : (encodeBytes i).length = 4 := rfl

/-- Four bytes and more decode to the command whose word the first four make, and the rest is left. -/
theorem decodeBytes_cons {b0 b1 b2 b3 : Byte} {tail rest : List Byte} {i : Instr} :
    decodeBytes (b0 :: b1 :: b2 :: b3 :: tail) = .ok (i, rest) ↔
      decode (wordOfBytes b0 b1 b2 b3) = .ok i ∧ tail = rest := by
  rw [decodeBytes]
  cases decode (wordOfBytes b0 b1 b2 b3) <;> simp

/-- Fewer than four bytes are no command. -/
theorem decodeBytes_short {bytes : List Byte} (short : bytes.length < 4) : decodeBytes bytes = .error .truncated := by
  match bytes, short with
  | [], _ | [_], _ | [_, _], _ | [_, _, _], _ => rfl

/-- Settles O3: fewer than four bytes are no command's; of four and more the first four make a word, which decodes to a
command exactly when it is that command's word. -/
theorem decodeAndEncodeAgreeOnEveryByteList : Obligations.DecodeAndEncodeAgreeOnEveryByteList := by
  intro bytes rest i
  match bytes with
  | b0 :: b1 :: b2 :: b3 :: tail =>
    calc decodeBytes (b0 :: b1 :: b2 :: b3 :: tail) = .ok (i, rest)
        ↔ [b0, b1, b2, b3] = encodeBytes i ∧ tail = rest := by
          rw [decodeBytes_cons, decode_eq_ok_iff, wordOfBytes_eq_iff, encodeBytes]
      _ ↔ [b0, b1, b2, b3] ++ tail = encodeBytes i ++ rest :=
        ⟨fun ⟨first, last⟩ => congrArg₂ _ first last, fun h => List.append_inj h rfl⟩
  | [] | [_] | [_, _] | [_, _, _] =>
    rw [decodeBytes_short (by simp)]
    exact iff_of_false nofun fun h => absurd (congrArg List.length h) (by simp; omega)

/-! ### The opcode map -/

/-- Settles O1: the words are `encode` evaluated, so they decode by the laws above; the reserved opcodes are evaluated. -/
theorem commandWordsAreTheOpcodeMap : Obligations.CommandWordsAreTheOpcodeMap := by
  refine ⟨rfl, rfl, rfl, rfl, rfl, rfl, rfl, rfl, rfl, rfl, rfl,
    decode_encode .ilog, decode_encode .fmul15, decode_encode .bcos, decode_encode .blog2tan, decode_encode .isqrt,
    decode_encode .cwrsV, decode_encode .getpulses, decode_encode .fits32, decode_encode .thresh,
    decode_encode .pvqDecode, decode_encode .spread, by decide, by decide, by decide, by decide, by decide,
    ?_, ?_, ?_, ?_⟩ <;>
    exact (decodeAndEncodeAgreeOnEveryByteList _ _ _).2 rfl

/-! ### Illegal command words -/

/-- From EXEC with ILLEGAL in LOP the command completes with ILLEGAL_CMD (30_encoding.md R74). -/
theorem blockTurn_illegal {s : State} (phase : s.phase = .exec) (lop : s.lop = .illegal) :
    blockTurn s = .next (s.complete .illegalCmd) := by
  simp [blockTurn, phase, lop, LatchedOp.instr?]

/-- Settles O6: the write is an accept, which latches ILLEGAL, and the block's turn completes with the code. -/
theorem illegalWordCompletesWithIllegalCmd : Obligations.IllegalWordCompletesWithIllegalCmd := by
  intro s w idle reserved agenda
  have illegal : latchOp w = .illegal := latchOp_eq_illegal_iff.2 (forall_ne_encode_iff.2 reserved)
  have accepted : step s = .next (({ s with agenda := [.block] } : State).accept w) :=
    step_write_to (off := 0) agenda (State.hostWrite_cmd (s := { s with agenda := [.block] }) idle w)
  have completed : step (({ s with agenda := [.block] } : State).accept w) =
      .next ((({ s with agenda := [] } : State).accept w).complete .illegalCmd) :=
    (step_block _ [] rfl).trans (blockTurn_illegal rfl illegal)
  rw [core_run_next 1 _ _ accepted, core_run_next 0 _ _ completed, ← illegal]
  rfl

end Sys2Proof.Machine
end

section
/-! ## The fixed-point primitives -/

namespace Sys2Proof.Machine

open Sys2Proof.Claims

/-! ### Truncation to 16 bits and the Q15 product -/

/-- The signed reading of a 16-bit pattern is a balanced remainder (00_scope.md R17). -/
theorem wrap16_eq_trunc16 (v : Int) : wrap16 v = trunc16 v := BitVec.toInt_ofInt v

/-- The low half of a word read as signed, from the word's own signed value (30_encoding.md R71). -/
theorem sext16_eq_low16 (w : Word) : sext16 w = low16 w := by
  unfold sext16 low16 trunc16
  rw [← BitVec.setWidth_eq_extractLsb' (by decide), BitVec.toInt_setWidth, BitVec.toInt_eq_toNat_bmod,
    Int.bmod_bmod_of_dvd (by decide)]

/-- The range of a 16-bit signed value. -/
theorem trunc16_bounds (v : Int) : -32768 ≤ trunc16 v ∧ trunc16 v ≤ 32767 :=
  ⟨Int.le_bmod (by decide), Int.bmod_le (by decide)⟩

/-- A value in that range is not wrapped. -/
theorem trunc16_eq_self {v : Int} (low : -32768 ≤ v) (high : v ≤ 32767) : trunc16 v = v :=
  Int.bmod_eq_of_le low (Int.lt_add_one_of_le high)

/-- A low half is truncated already. -/
@[simp] theorem trunc16_low16 (w : Word) : trunc16 (low16 w) = low16 w := Int.bmod_bmod

/-- Only bits 15:0 of an operand count (40_fixed_point.md R104). -/
@[simp] theorem trunc16_add_65536 (v : Int) : trunc16 (v + 65536) = trunc16 v := Int.add_bmod_right v 65536

/-- The floor shift by 15 is floor division (40_fixed_point.md R103). -/
theorem fmul16_eq_q15mul (a b : Int) : fmul16 a b = q15mul a b := by
  rw [fmul16, wrap16_eq_trunc16, wrap16_eq_trunc16, Int.shiftRight_eq_div_pow]
  rfl

/-- The product is commutative (40_fixed_point.md R104). -/
theorem q15mul_comm (a b : Int) : q15mul a b = q15mul b a := by
  rw [q15mul, Int.mul_comm, q15mul]

/-- The largest product is 2^30, of -32768 with itself (40_fixed_point.md R104). -/
theorem q15mul_bounds (a b : Int) : -32768 ≤ q15mul a b ∧ q15mul a b ≤ 32768 := by
  have magnitude (v : Int) : |trunc16 v| ≤ 32768 := abs_le.2 (by have := trunc16_bounds v; omega)
  have product : |trunc16 a * trunc16 b| ≤ 32768 * 32768 := by
    rw [abs_mul]
    exact mul_le_mul (magnitude a) (magnitude b) (abs_nonneg _) (by decide)
  obtain ⟨low, high⟩ := abs_le.1 product
  unfold q15mul
  omega

/-- An operand whose bits 15:0 are 0 gives 0 (40_fixed_point.md R104). -/
theorem q15mul_of_trunc16_eq_zero {a : Int} (zero : trunc16 a = 0) (b : Int) : q15mul a b = 0 := by
  rw [q15mul, zero, Int.zero_mul]
  rfl

/-! ### The model's functions are those of the rules -/

/-- The number of significant bits (40_fixed_point.md R101). -/
theorem ilog_eq_bitLength (v : Nat) : ilog v = bitLength v := by
  rw [ilog, Nat.log2_eq_log_two, bitLength]

/-- The cosine polynomial, with floor shifts as floor divisions (40_fixed_point.md R105). -/
theorem bcos_eq_cosinePolynomial (x : Int) : bcos x = cosinePolynomial x := by
  simp only [bcos, fmul16_eq_q15mul, wrap16_eq_trunc16, Int.shiftRight_eq_div_pow]
  rfl

/-- The correction term (40_fixed_point.md R112). -/
theorem l2tCorr_eq_correction (z : Int) : l2tCorr z = correction z := by
  rw [l2tCorr, fmul16_eq_q15mul, fmul16_eq_q15mul, correction]

/-- The left shift is a multiplication (40_fixed_point.md R111). -/
theorem l2tNormalize_eq_normalized (v : Nat) : l2tNormalize v = normalized v := by
  rw [l2tNormalize, ilog_eq_bitLength, Nat.shiftLeft_eq, Nat.cast_mul, Nat.cast_pow]
  rfl

/-- The log-tangent of positive inputs (40_fixed_point.md R113). -/
theorem log2tanPos_eq_logTangent (s c : Nat) : log2tanPos s c = logTangent s c := by
  simp only [log2tanPos, ilog_eq_bitLength, l2tCorr_eq_correction, l2tNormalize_eq_normalized, logTangent]

/-- The cases of R114 exclude each other, so the rule's order and the model's give the same word. -/
theorem log2tanWord_eq (s c : Int) :
    log2tanWord s c =
      if s ≤ 0 ∧ 0 < c then Config.l2tNeg
      else if c ≤ 0 ∧ 0 < s then Config.l2tPos
      else if s ≤ 0 ∧ c ≤ 0 then Config.l2tBoth
      else wordOfInt (logTangent s.toNat c.toNat) := by
  rw [log2tanWord, log2tanPos_eq_logTangent]
  by_cases sine : s ≤ 0 <;> by_cases cosine : c ≤ 0 <;> simp only [← not_le, sine, cosine] <;> rfl

/-- The search finds the root that lies between the digits found and the digits still open (40_fixed_point.md R116). -/
theorem isqrtFrom_eq_sqrt {v : Nat} (b r : Nat) (low : r * r ≤ v) (high : v < (r + 2 ^ b) * (r + 2 ^ b)) :
    isqrtFrom v b r = Nat.sqrt v := by
  induction b generalizing r with
  | zero => exact Nat.eq_sqrt.2 ⟨low, high⟩
  | succ b ih =>
    have digits : r + 2 ^ (b + 1) = r + 2 ^ b + 2 ^ b := by omega
    rw [isqrtFrom]
    split
    case isTrue fits => exact ih _ fits (digits ▸ high)
    case isFalse exceeds => exact ih _ low (Nat.lt_of_not_le exceeds)

/-- The floor square root of every 32-bit value (40_fixed_point.md R116). -/
theorem isqrt_eq_sqrt {v : Nat} (fits : v < 2 ^ 32) : isqrt v = Nat.sqrt v :=
  isqrtFrom_eq_sqrt 16 0 (Nat.zero_le v) fits

/-! ### The results from every state -/

/-- A completion that writes a word to RES0 and nothing else, field by field (10_state.md R31). -/
theorem exec_writes_res0 {i : Instr} {s : State} {v w : Word} (runs : exec i s = .next ((s.setRes0 v).complete .ok))
    (value : v = w) : exec i s = .next { s with res0 := w, status := completedStatus s .ok, phase := .idle } :=
  value ▸ runs

/-- Settles O19: the model's count of bits is that of the rule. -/
theorem ilogWritesTheBitLength : Obligations.IlogWritesTheBitLength :=
  ⟨decode_encode .ilog, fun s => exec_writes_res0 rfl (congrArg wordOfNat (ilog_eq_bitLength s.u0))⟩

/-- Settles O20: the product is one of balanced remainders, which bound it and do not see a multiple of 2^16. -/
theorem fmul15WritesTheRoundedProduct : Obligations.Fmul15WritesTheRoundedProduct := by
  refine ⟨decode_encode .fmul15, fun s => ?_, fun a b => ⟨fmul16_eq_q15mul a b, ?_⟩⟩
  · have product : fmul16 s.h0 s.h1 = (low16 s.l0 * low16 s.l1 + 16384) / 32768 := by
      rw [State.h0, State.h1, fmul16_eq_q15mul, sext16_eq_low16, sext16_eq_low16, q15mul, trunc16_low16, trunc16_low16]
    exact exec_writes_res0 rfl (congrArg wordOfInt product)
  · have period : q15mul (a + 65536) b = q15mul a b := by rw [q15mul, trunc16_add_65536, q15mul]
    obtain ⟨low, high⟩ := q15mul_bounds a b
    simp only [fmul16_eq_q15mul]
    exact ⟨low, high, q15mul_comm a b, fun zero => q15mul_of_trunc16_eq_zero zero b, period⟩

/-- Settles O21: the model's polynomial is that of the rule, evaluated at 0 and at 16384. -/
theorem bcosWritesTheWrappedCubic : Obligations.BcosWritesTheWrappedCubic := by
  refine ⟨decode_encode .bcos, fun s => exec_writes_res0 rfl ?_, by decide, by decide⟩
  rw [bcos_eq_cosinePolynomial, State.h0, sext16_eq_low16]
  rfl

/-- Settles O23: the log-tangent by the cases of the rule. -/
theorem blog2tanWritesLogTangentOrSaturates : Obligations.Blog2tanWritesLogTangentOrSaturates := by
  refine ⟨decode_encode .blog2tan, fun s => exec_writes_res0 rfl ?_⟩
  rw [log2tanWord_eq, State.h0, State.h1, sext16_eq_low16, sext16_eq_low16]
  rfl

/-- Settles O25: the search ends at `Nat.sqrt`, which the two inequalities of the rule bound. -/
theorem isqrtWritesTheFloorSquareRoot : Obligations.IsqrtWritesTheFloorSquareRoot :=
  ⟨decode_encode .isqrt, fun s => ⟨_, Nat.sqrt_le s.u0, Nat.lt_succ_sqrt s.u0,
    exec_writes_res0 rfl (congrArg wordOfNat (isqrt_eq_sqrt s.l0.isLt))⟩⟩

/-- A command that completes with a word of L0 and L1 in RES0 does so alike in any two states with these operands. -/
theorem exec_pure_of_result {i : Instr} (result : Word → Word → Word)
    (runs : ∀ s, exec i s = .next ((s.setRes0 (result s.l0 s.l1)).complete .ok)) {s s' : State} (l0 : s'.l0 = s.l0)
    (l1 : s'.l1 = s.l1) :
    ∃ v : Word,
      exec i s = .next { s with res0 := v, status := completedStatus s .ok, phase := .idle } ∧
      exec i s' = .next { s' with res0 := v, status := completedStatus s' .ok, phase := .idle } :=
  ⟨result s.l0 s.l1, exec_writes_res0 (runs s) rfl, exec_writes_res0 (runs s') (congrArg₂ result l0 l1)⟩

/-- Settles O26: each of the five completes with a word of L0 and L1. -/
theorem fixedPointPrimitivesArePure : Obligations.FixedPointPrimitivesArePure := by
  intro i primitive s s' l0 l1
  simp only [List.mem_cons, List.not_mem_nil, or_false] at primitive
  rcases primitive with rfl | rfl | rfl | rfl | rfl
  · exact exec_pure_of_result (fun a _ => wordOfNat (ilog (zext32 a))) (fun _ => rfl) l0 l1
  · exact exec_pure_of_result (fun a b => wordOfInt (fmul16 (sext16 a) (sext16 b))) (fun _ => rfl) l0 l1
  · exact exec_pure_of_result (fun a _ => wordOfInt (bcos (sext16 a))) (fun _ => rfl) l0 l1
  · exact exec_pure_of_result (fun a b => log2tanWord (sext16 a) (sext16 b)) (fun _ => rfl) l0 l1
  · exact exec_pure_of_result (fun a _ => wordOfNat (isqrt (zext32 a))) (fun _ => rfl) l0 l1

/-! ### The corners of the cosine -/

/-- The polynomial of R105 in the squared angle, once that is rounded and wrapped. -/
def cosineCubic (x2 : Int) : Int :=
  trunc16 (1 + trunc16 ((32767 - x2) + q15mul x2 (-7651 + q15mul x2 (8277 + q15mul (-626) x2))))

/-- The angle enters the cosine by its rounded square alone (40_fixed_point.md R105). -/
theorem cosinePolynomial_eq_cosineCubic (x : Int) :
    cosinePolynomial x = cosineCubic (trunc16 ((4096 + x * x) / 8192)) := rfl

/-- Opposite angles have the same cosine (40_fixed_point.md R107). -/
theorem cosinePolynomial_neg (x : Int) : cosinePolynomial (-x) = cosinePolynomial x := by
  rw [cosinePolynomial_eq_cosineCubic, Int.neg_mul_neg, cosinePolynomial_eq_cosineCubic]

/-- Angles whose squares round to the same multiple of 2^13 have the same cosine (40_fixed_point.md R107). -/
theorem cosinePolynomial_of_square {x t : Int} (low : 8192 * t ≤ 4096 + x * x) (high : 4096 + x * x < 8192 * (t + 1)) :
    cosinePolynomial x = cosineCubic (trunc16 t) := by
  have rounded : (4096 + x * x) / 8192 = t := by omega
  rw [cosinePolynomial_eq_cosineCubic, rounded]

/-- BCOS writes the pattern of the polynomial's value (40_fixed_point.md R106). -/
theorem exec_bcos_res0 {s : State} {v : Int} (value : cosinePolynomial (low16 s.l0) = v) :
    ∃ t, exec .bcos s = .next t ∧ t.res0 = BitVec.ofInt 32 v := by
  obtain ⟨-, runs, -⟩ := bcosWritesTheWrappedCubic
  exact ⟨_, runs s, congrArg (BitVec.ofInt 32) value⟩

/-- The listed values of R107. -/
theorem cosinePolynomial_listed :
    ∀ p ∈ [((4096 : Int), (30274 : Int)), (8192, 23171), (12288, 12540), (16383, 3), (16384, 16554)],
      cosinePolynomial p.1 = p.2 := by decide

/-- Settles O22: on the three intervals the square rounds to 0, 1 and 2, where the cubic is evaluated. -/
theorem bcosCornerIntervalsAndSymmetry : Obligations.BcosCornerIntervalsAndSymmetry := by
  refine ⟨fun s low high => ?_, fun s low high => ?_, fun s low high => ?_, fun s s' opposite => ?_,
    fun s x v listed angle => ?_⟩
  · exact exec_bcos_res0 (cosinePolynomial_of_square (t := 0) (by nlinarith) (by nlinarith))
  · exact exec_bcos_res0 (cosinePolynomial_of_square (t := 1) (by nlinarith) (by nlinarith))
  · exact exec_bcos_res0 (cosinePolynomial_of_square (t := 2) (by nlinarith) (by nlinarith))
  · obtain ⟨t, run, res⟩ := exec_bcos_res0 (s := s) rfl
    obtain ⟨t', run', res'⟩ := exec_bcos_res0 (s := s') (opposite ▸ cosinePolynomial_neg _)
    exact ⟨t, t', run, run', res'.trans res.symm⟩
  · exact exec_bcos_res0 (angle ▸ cosinePolynomial_listed (x, v) listed)

/-! ### Ranges of the log-tangent -/

section
variable {v : Nat} (pos : 1 ≤ v)
include pos

/-- The bit length of a positive value (40_fixed_point.md R101). -/
theorem bitLength_of_pos : bitLength v = Nat.log 2 v + 1 := if_neg (Nat.ne_of_gt pos)

/-- The top bit of a positive value stands at its bit length less 1 (40_fixed_point.md R101). -/
theorem pow_bitLength_bounds : 2 ^ (bitLength v - 1) ≤ v ∧ v < 2 ^ bitLength v := by
  rw [bitLength_of_pos pos]
  exact ⟨Nat.pow_log_le_self 2 (Nat.ne_of_gt pos), Nat.lt_pow_succ_log_self (by decide) v⟩

variable (fits : v ≤ 32767)
include fits

/-- A positive 15-bit magnitude has 1 to 15 significant bits, so its normalizing shift is by 0 to 14 (40_fixed_point.md
R111). -/
theorem bitLength_bounds : 1 ≤ bitLength v ∧ bitLength v ≤ 15 := by
  have top_bit : Nat.log 2 v < 15 := Nat.log_lt_of_lt_pow (Nat.ne_of_gt pos) (Nat.lt_succ_of_le fits)
  rw [bitLength_of_pos pos]
  omega

/-- The top bit of a normalized magnitude is bit 14 (40_fixed_point.md R111). -/
theorem normalized_bounds : 16384 ≤ normalized v ∧ normalized v ≤ 32767 := by
  obtain ⟨low, high⟩ := pow_bitLength_bounds pos
  obtain ⟨nonempty, short⟩ := bitLength_bounds pos fits
  unfold normalized
  generalize bitLength v = n at *
  have shifted_low : 2 ^ 14 ≤ v * 2 ^ (15 - n) := calc
    2 ^ 14 = 2 ^ (n - 1) * 2 ^ (15 - n) := by rw [← Nat.pow_add]; congr 1; omega
    _ ≤ v * 2 ^ (15 - n) := Nat.mul_le_mul_right _ low
  have shifted_high : v * 2 ^ (15 - n) < 2 ^ 15 := calc
    v * 2 ^ (15 - n) < 2 ^ n * 2 ^ (15 - n) := Nat.mul_lt_mul_of_pos_right high (by positivity)
    _ = 2 ^ 15 := by rw [← Nat.pow_add]; congr 1; omega
  norm_cast
  omega

end

section
variable {z : Int} (low : 16384 ≤ z) (high : z ≤ 32767)
include low high

/-- The inner product of the correction term is that of `z` itself, which is not wrapped (40_fixed_point.md R112). -/
theorem correction_inner_eq : q15mul z (-2597) = (z * -2597 + 16384) / 32768 := by
  rw [q15mul, trunc16_eq_self (by omega) high]
  rfl

/-- The inner sum (40_fixed_point.md R112). -/
theorem correction_inner_bounds : 5335 ≤ q15mul z (-2597) + 7932 ∧ q15mul z (-2597) + 7932 ≤ 6634 := by
  rw [correction_inner_eq low high]
  omega

/-- The correction term lies on a parabola up to rounding, which rises from 3317 to 5335 (40_fixed_point.md R112). -/
theorem correction_bounds : 3317 ≤ correction z ∧ correction z ≤ 5335 := by
  obtain ⟨inner_low, inner_high⟩ := correction_inner_bounds low high
  have inner := correction_inner_eq low high
  rw [correction, q15mul, trunc16_eq_self (by omega) high, trunc16_eq_self (by omega) (by omega)]
  generalize q15mul z (-2597) = m at *
  have m_low : z * -2597 + 16384 - 32767 ≤ 32768 * m := by omega
  have m_high : 32768 * m ≤ z * -2597 + 16384 := by omega
  have product_low : 3317 * 32768 ≤ z * (m + 7932) + 16384 := by nlinarith
  have product_high : z * (m + 7932) + 16384 < 5336 * 32768 := by nlinarith
  omega

end

/-- Exchanging the inputs negates the log-tangent (40_fixed_point.md R113). -/
theorem logTangent_swap (s c : Nat) : logTangent c s = -logTangent s c := by
  unfold logTangent
  ring

/-- The bit lengths differ by 14 at most and the corrections by 2018 (40_fixed_point.md R113). -/
theorem logTangent_bounds {s c : Nat} (s_pos : 1 ≤ s) (s_fits : s ≤ 32767) (c_pos : 1 ≤ c) (c_fits : c ≤ 32767) :
    -30690 ≤ logTangent s c ∧ logTangent s c ≤ 30690 := by
  have corrected {v : Nat} (pos : 1 ≤ v) (fits : v ≤ 32767) :=
    correction_bounds (normalized_bounds pos fits).1 (normalized_bounds pos fits).2
  have s_correction := corrected s_pos s_fits
  have c_correction := corrected c_pos c_fits
  have s_length := bitLength_bounds s_pos s_fits
  have c_length := bitLength_bounds c_pos c_fits
  unfold logTangent
  omega

/-- Settles O24: the ranges of the rules' own formulas. -/
theorem logTangentStaysInRange : Obligations.LogTangentStaysInRange := by
  refine ⟨fun v pos fits => ?_, fun z low high => ?_, fun s c s_pos s_fits c_pos c_fits => ?_⟩
  · obtain ⟨length_low, length_high⟩ := bitLength_bounds pos fits
    rw [l2tNormalize_eq_normalized]
    exact ⟨length_low, length_high, rfl, normalized_bounds pos fits⟩
  · obtain ⟨inner_low, inner_high⟩ := correction_inner_bounds low high
    rw [l2tCorr_eq_correction, fmul16_eq_q15mul]
    exact ⟨rfl, inner_low, inner_high, correction_bounds low high⟩
  · obtain ⟨result_low, result_high⟩ := logTangent_bounds s_pos s_fits c_pos c_fits
    rw [log2tanPos_eq_logTangent, log2tanPos_eq_logTangent]
    exact ⟨rfl, result_low, result_high, logTangent_swap s c⟩

end Sys2Proof.Machine
end

section
/-! ## The combinatorics engine -/

namespace Sys2Proof.Machine

open Sys2Proof.Claims

/-! ### The equations of the codebook size -/

/-- Entry k + 1 of row n + 1 from the last entries of rows that are just long enough (41_combinatorics.md R131, R132). -/
theorem dpRow_last_entry (add : Nat → Nat → Nat) (n k : Nat) :
    (dpRow add (k + 1) (n + 1)).getD (k + 1) 0 =
      add (add ((dpRow add (k + 1) n).getD (k + 1) 0) ((dpRow add k (n + 1)).getD k 0)) ((dpRow add k n).getD k 0) := by
  rw [dpRow_succ_entry add _ n k k.lt_succ_self, dpRow_entry_prefix add _ _ k k.le_succ,
    dpRow_entry_prefix add _ _ k k.le_succ]

/-- V(N,0) = 1 (41_combinatorics.md R131). -/
@[simp] theorem codebook_zero_pulses (N : Nat) : codebook N 0 = 1 := dpRow_zero_entry _ 0 N

/-- V(0,K) = 0 for K positive (41_combinatorics.md R131). -/
@[simp] theorem codebook_no_positions (k : Nat) : codebook 0 (k + 1) = 0 := dpRow_first _ _ k

/-- The recurrence of V (41_combinatorics.md R131). -/
theorem codebook_succ_succ (n k : Nat) :
    codebook (n + 1) (k + 1) = codebook n (k + 1) + codebook (n + 1) k + codebook n k := dpRow_last_entry _ n k

/-- V(N,1) = 2N (41_combinatorics.md R131). -/
theorem codebook_one_pulse (N : Nat) : codebook N 1 = 2 * N := by
  induction N with
  | zero => exact codebook_no_positions 0
  | succ n ih =>
    rw [codebook_succ_succ, ih, codebook_zero_pulses, codebook_zero_pulses]
    omega

/-- Settles O27: the equations of V read off the rows. -/
theorem codebookBoundaryAndRecurrence : Obligations.CodebookBoundaryAndRecurrence := by
  refine ⟨codebook_zero_pulses, fun K => ?_, codebook_one_pulse, codebook_succ_succ⟩
  cases K with
  | zero => exact codebook_zero_pulses 0
  | succ k => exact codebook_no_positions k

/-! ### The codebook size counts the pulse vectors -/

/-- The vectors of n integers whose absolute values sum to k (41_combinatorics.md R131). -/
def pulseVectors (n k : Nat) : Set (Fin n → Int) := { x | ∑ j, (x j).natAbs = k }

/-- The next integer away from 0, upwards from 0 itself. -/
def awayFromZero (z : Int) : Int := if 0 ≤ z then z + 1 else z - 1

/-- The vector with one more pulse at its first position. -/
def growFirst {n : Nat} (x : Fin (n + 1) → Int) : Fin (n + 1) → Int := Fin.cons (awayFromZero (x 0)) (Fin.tail x)

/-- A pulse more makes the magnitude one larger. -/
theorem natAbs_awayFromZero (z : Int) : (awayFromZero z).natAbs = z.natAbs + 1 := by
  unfold awayFromZero
  split <;> omega

/-- Only 0 and -1 have no neighbour nearer to 0 that grows into them. -/
theorem exists_awayFromZero_iff {z : Int} : (∃ y, awayFromZero y = z) ↔ z ≠ 0 ∧ z ≠ -1 := by
  constructor
  · rintro ⟨y, rfl⟩
    unfold awayFromZero
    split <;> omega
  · intro h
    refine ⟨if 0 < z then z - 1 else z + 1, ?_⟩
    unfold awayFromZero
    split <;> split <;> omega

/-- Different integers grow into different ones. -/
theorem awayFromZero_injective : Function.Injective awayFromZero := by
  intro a b h
  unfold awayFromZero at h
  split at h <;> split at h <;> omega

/-- The pulses of a vector are those of its first entry and those of the rest. -/
@[simp] theorem cons_mem_pulseVectors {n k : Nat} {z : Int} {y : Fin n → Int} :
    (Fin.cons z y : Fin (n + 1) → Int) ∈ pulseVectors (n + 1) k ↔ z.natAbs + ∑ j, (y j).natAbs = k := by
  simp [pulseVectors, Fin.sum_univ_succ]

@[simp] theorem growFirst_cons {n : Nat} (z : Int) (y : Fin n → Int) :
    growFirst (Fin.cons z y : Fin (n + 1) → Int) = Fin.cons (awayFromZero z) y := rfl

theorem growFirst_injective {n : Nat} : Function.Injective (growFirst (n := n)) := by
  intro x x' h
  obtain ⟨first, rest⟩ := Fin.cons_injective2 h
  rw [← Fin.cons_self_tail x, ← Fin.cons_self_tail x', awayFromZero_injective first, rest]

/-- Every vector without pulses is 0. -/
theorem pulseVectors_zero_pulses (n : Nat) : pulseVectors n 0 = {0} := by
  ext x
  simp [pulseVectors, funext_iff]

/-- No vector without positions has a pulse. -/
theorem pulseVectors_no_positions (k : Nat) : pulseVectors 0 (k + 1) = ∅ := by
  ext x
  simp [pulseVectors]

@[simp] theorem cons_mem_image_cons {n k : Nat} {a z : Int} {y : Fin n → Int} :
    (Fin.cons z y : Fin (n + 1) → Int) ∈ Fin.cons a '' pulseVectors n k ↔ z = a ∧ ∑ j, (y j).natAbs = k := by
  simp [pulseVectors, Fin.cons_inj, eq_comm, and_comm]

/-- A grown vector is one whose first entry is grown. -/
@[simp] theorem cons_mem_image_growFirst {n k : Nat} {z : Int} {y : Fin n → Int} :
    (Fin.cons z y : Fin (n + 1) → Int) ∈ growFirst '' pulseVectors (n + 1) k ↔
      (z ≠ 0 ∧ z ≠ -1) ∧ z.natAbs + ∑ j, (y j).natAbs = k + 1 := by
  rw [← exists_awayFromZero_iff]
  constructor
  · rintro ⟨x, hx, grown⟩
    induction x using Fin.consCases with
    | _ u w =>
      rw [growFirst_cons] at grown
      obtain ⟨rfl, rfl⟩ := Fin.cons_injective2 grown
      rw [cons_mem_pulseVectors] at hx
      exact ⟨⟨u, rfl⟩, by rw [natAbs_awayFromZero]; omega⟩
  · rintro ⟨⟨u, rfl⟩, pulses⟩
    rw [natAbs_awayFromZero] at pulses
    exact ⟨Fin.cons u y, cons_mem_pulseVectors.2 (by omega), growFirst_cons u y⟩

/-- The recurrence of R131 on the vectors themselves: the first entry is 0, or grown from another, or -1. -/
theorem pulseVectors_succ_succ (n k : Nat) :
    pulseVectors (n + 1) (k + 1) =
      Fin.cons 0 '' pulseVectors n (k + 1) ∪ growFirst '' pulseVectors (n + 1) k ∪ Fin.cons (-1) '' pulseVectors n k := by
  ext x
  induction x using Fin.consCases with
  | _ z y =>
    simp only [Set.mem_union, cons_mem_image_cons, cons_mem_image_growFirst, cons_mem_pulseVectors]
    omega

/-- The three kinds exclude each other. -/
theorem pulseVectors_kinds_disjoint (n k : Nat) :
    Disjoint (Fin.cons 0 '' pulseVectors n (k + 1)) (growFirst '' pulseVectors (n + 1) k) ∧
    Disjoint (Fin.cons 0 '' pulseVectors n (k + 1) ∪ growFirst '' pulseVectors (n + 1) k)
      (Fin.cons (-1) '' pulseVectors n k) := by
  constructor <;> refine Set.disjoint_left.2 fun x => ?_ <;> induction x using Fin.consCases with
  | _ z y =>
    simp only [Set.mem_union, cons_mem_image_cons, cons_mem_image_growFirst]
    omega

/-- Counting the three kinds gives the recurrence of V. -/
theorem encard_pulseVectors : ∀ n k, (pulseVectors n k).encard = codebook n k
  | n, 0 => by rw [pulseVectors_zero_pulses, codebook_zero_pulses, Set.encard_singleton, Nat.cast_one]
  | 0, k + 1 => by rw [pulseVectors_no_positions, codebook_no_positions, Set.encard_empty, Nat.cast_zero]
  | n + 1, k + 1 => by
    obtain ⟨zero_grown, zero_grown_minusOne⟩ := pulseVectors_kinds_disjoint n k
    have encard_image_cons (z : Int) (m : Nat) :
        (Fin.cons z '' pulseVectors n m : Set (Fin (n + 1) → Int)).encard = codebook n m := by
      rw [(Fin.cons_right_injective (α := fun _ => Int) z).encard_image, encard_pulseVectors n m]
    rw [pulseVectors_succ_succ, Set.encard_union_eq zero_grown_minusOne, Set.encard_union_eq zero_grown,
      encard_image_cons, encard_image_cons, growFirst_injective.encard_image, encard_pulseVectors (n + 1) k,
      codebook_succ_succ, Nat.cast_add, Nat.cast_add]

/-- Settles O28: both sides obey the recurrence. -/
theorem codebookCountsThePulseVectors : Obligations.CodebookCountsThePulseVectors := fun N K => by
  have count : (pulseVectors N K).ncard = codebook N K := by rw [Set.ncard, encard_pulseVectors, ENat.toNat_natCast]
  exact count

/-! ### Saturation -/

/-- Cutting the terms first does not change the cut sum (41_combinatorics.md R133). -/
theorem satAdd_sat32 (a b : Nat) : satAdd (sat32 a) (sat32 b) = sat32 (a + b) := by
  unfold satAdd sat32
  omega

/-- The saturated size is the exact one, cut (41_combinatorics.md R133). -/
theorem vsat_eq_sat32 : ∀ n k, vsat n k = sat32 (codebook n k)
  | n, 0 => by rw [vsat, dpRow_zero_entry, codebook_zero_pulses]; rfl
  | 0, k + 1 => by rw [vsat, dpRow_first, codebook_no_positions]; rfl
  | n + 1, k + 1 => calc
    vsat (n + 1) (k + 1) = satAdd (satAdd (vsat n (k + 1)) (vsat (n + 1) k)) (vsat n k) := dpRow_last_entry _ n k
    _ = sat32 (codebook n (k + 1) + codebook (n + 1) k + codebook n k) := by
      rw [vsat_eq_sat32 n (k + 1), vsat_eq_sat32 (n + 1) k, vsat_eq_sat32 n k, satAdd_sat32, satAdd_sat32]
    _ = sat32 (codebook (n + 1) (k + 1)) := by rw [codebook_succ_succ]

/-- Below 2^31 the saturated size is exact (41_combinatorics.md R134). -/
theorem vsat_of_lt {N K : Nat} (small : codebook N K < 2 ^ 31) : vsat N K = codebook N K := by
  rw [vsat_eq_sat32, sat32]
  omega

/-- A size fits exactly when the exact one is below 2^31 (41_combinatorics.md R139). -/
theorem fits_eq (N K : Nat) : fits N K = if codebook N K < 2 ^ 31 then 1 else 0 := by
  have same : vsat N K < 2 ^ 31 ↔ codebook N K < 2 ^ 31 := by
    rw [vsat_eq_sat32, sat32]
    omega
  simp only [fits, same]

@[simp] theorem fits_eq_one_iff {N K : Nat} : fits N K = 1 ↔ codebook N K < 2 ^ 31 := by
  rw [fits_eq]
  split
  case isTrue small => exact iff_of_true rfl small
  case isFalse large => exact iff_of_false Nat.zero_ne_one large

/-- Settles O29: an entry of a row is the saturated size it is computed for; a sum of three cut terms is the cut sum. -/
theorem saturationLaw : Obligations.SaturationLaw := by
  refine ⟨vsat_eq_sat32, fun N K k hk => ?_, fun a b c => ?_⟩
  · rw [dpRow_entry_prefix satAdd K N k hk]
    exact vsat_eq_sat32 N k
  · unfold satAdd sat32
    omega

/-! ### The size grows with the pulses -/

/-- With a position there is a pulse vector (41_combinatorics.md R143). -/
theorem codebook_pos (n k : Nat) : 0 < codebook (n + 1) k := by
  induction k with
  | zero => simp
  | succ k ih =>
    rw [codebook_succ_succ]
    omega

/-- With a position the size does not fall (41_combinatorics.md R143). -/
theorem codebook_monotone (n : Nat) : Monotone (codebook (n + 1)) :=
  monotone_nat_of_le_succ fun k => by
    rw [codebook_succ_succ]
    omega

/-- With two positions it rises (41_combinatorics.md R143). -/
theorem codebook_strictMono (n : Nat) : StrictMono (codebook (n + 1 + 1)) :=
  strictMono_nat_of_lt_succ fun k => by
    have shorter_pos := codebook_pos n k
    rw [codebook_succ_succ (n + 1)]
    omega

/-- One position takes all pulses, with either sign (41_combinatorics.md R143). -/
theorem codebook_one_position (k : Nat) : codebook 1 (k + 1) = 2 := by
  induction k with
  | zero => exact codebook_one_pulse 1
  | succ k ih => rw [codebook_succ_succ, codebook_no_positions, codebook_no_positions, ih]

/-! ### The pseudo-index map -/

/-- Past 8 the pseudo-indices come in octaves of 8 (41_combinatorics.md R137). -/
theorem gp_octave (q : Nat) {r : Nat} (hr : r < 8) : gp (8 * (q + 1) + r) = (8 + r) * 2 ^ q := by
  have remainder : (8 * (q + 1) + r) % 8 = r := by omega
  have quotient : (8 * (q + 1) + r) / 8 - 1 = q := by omega
  rw [gp, if_neg (by omega), remainder, quotient, Nat.shiftLeft_eq]

/-- GP rises at each step: by 1 up to 8, by 2^q within octave q, and from 15 * 2^q to 16 * 2^q at its end
(41_combinatorics.md R137). -/
theorem gp_strictMono : StrictMono gp := strictMono_nat_of_lt_succ fun i => by
  by_cases direct : i < 7
  · rw [gp, gp, if_pos (by omega), if_pos (by omega)]
    exact i.lt_succ_self
  by_cases border : i = 7
  · subst border
    decide
  obtain ⟨q, r, hr, rfl⟩ : ∃ q r, r < 8 ∧ i = 8 * (q + 1) + r := ⟨i / 8 - 1, i % 8, by omega, by omega⟩
  have pow_pos : 0 < 2 ^ q := by positivity
  by_cases last : r = 7
  · have next_octave : 8 * (q + 1) + r + 1 = 8 * (q + 1 + 1) + 0 := by omega
    rw [next_octave, gp_octave q hr, gp_octave (q + 1) (by decide), pow_succ, last]
    omega
  · rw [Nat.add_assoc, gp_octave q hr, gp_octave q (by omega)]
    exact Nat.mul_lt_mul_of_pos_right (by omega) pow_pos

/-- Settles O34: the size rises with the pulses and GP with the pseudo-index. -/
theorem fittingIndicesAreAnInitialSegment : Obligations.FittingIndicesAreAnInitialSegment := by
  refine ⟨fun N K hN => ?_, fun N K hN => ?_, fun K hK => ?_, fun N i j hN hij _ fit => ?_⟩
  · obtain ⟨n, rfl⟩ := Nat.exists_eq_add_of_le' hN
    exact codebook_monotone n K.le_succ
  · obtain ⟨n, rfl⟩ := Nat.exists_eq_add_of_le' hN
    exact codebook_strictMono n K.lt_succ_self
  · obtain ⟨k, rfl⟩ := Nat.exists_eq_add_of_le' hK
    exact codebook_one_position k
  · obtain ⟨n, rfl⟩ := Nat.exists_eq_add_of_le' hN
    rw [fits_eq_one_iff] at fit ⊢
    exact Nat.lt_of_le_of_lt (codebook_monotone n (gp_strictMono.monotone hij)) fit

/-! ### The commands -/

/-- A completion after a sweep that writes a word to RES0 and nothing else but the rows, field by field (10_state.md R31,
R36). -/
theorem exec_sweeps_res0 {i : Instr} {s : State} {N K : Nat} {v w : Word}
    (runs : exec i s = .next (((s.sweep N K).setRes0 v).complete .ok)) (value : v = w) :
    ∃ t, exec i s = .next t ∧
      t = { s with
        res0 := w, rowPrev := t.rowPrev, rowCur := t.rowCur, status := completedStatus s .ok, phase := .idle } :=
  ⟨_, runs, value ▸ rfl⟩

/-- Settles O30: the two outcomes of CWRS_V, with the saturation law. -/
theorem cwrsVWritesTheSaturatedCodebookSize : Obligations.CwrsVWritesTheSaturatedCodebookSize := by
  refine ⟨decode_encode .cwrsV, fun s fits_rows => ?_, fun s too_large => ?_⟩
  · obtain ⟨-, runs⟩ := (execCwrsV_cases s).resolve_left fun fails => Nat.not_lt.2 fits_rows fails.1
    exact exec_sweeps_res0 runs (congrArg wordOfNat (vsat_eq_sat32 s.u0 s.u1))
  · exact ((execCwrsV_cases s).resolve_right fun runs => Nat.not_le.2 too_large runs.1).2

/-- Settles O31: the two outcomes of GETPULSES, the shift being a multiplication; GP rises up to GP(239). -/
theorem getpulsesWritesThePulseCount : Obligations.GetpulsesWritesThePulseCount := by
  refine ⟨decode_encode .getpulses, fun s in_domain => ?_, fun s outside => ?_, fun i j hij hj => ⟨gp_strictMono hij, ?_⟩⟩
  · obtain ⟨-, runs⟩ := (execGetpulses_cases s).resolve_left fun fails => Nat.not_lt.2 in_domain fails.1
    refine exec_writes_res0 runs ?_
    rw [gp, Nat.shiftLeft_eq]
    rfl
  · exact ((execGetpulses_cases s).resolve_right fun runs => Nat.not_le.2 outside runs.1).2
  · exact Nat.lt_of_le_of_lt (gp_strictMono.monotone hj) (by decide)

/-- Settles O32: the two outcomes of FITS32, with the saturation law below 2^31. -/
theorem fits32DecidesBelowTwoToThe31 : Obligations.Fits32DecidesBelowTwoToThe31 := by
  refine ⟨decode_encode .fits32, fun s fits_rows => ?_, fun s too_large => ?_⟩
  · obtain ⟨-, runs⟩ := (execFits32_cases s).resolve_left fun fails => Nat.not_lt.2 fits_rows fails.1
    refine exec_sweeps_res0 runs ?_
    rw [fits_eq, apply_ite wordOfNat]
    rfl
  · exact ((execFits32_cases s).resolve_right fun runs => Nat.not_le.2 too_large runs.1).2

/-! ### The threshold -/

/-- The downward search is `Nat.findGreatest` (41_combinatorics.md R141). -/
theorem istar_eq_findGreatest (N bound : Nat) : istar N bound = Nat.findGreatest (fun i => fits N (gp i) = 1) bound := by
  induction bound with
  | zero => rfl
  | succ i ih => rw [istar, ih, Nat.findGreatest_succ]

/-- A value below 2^n has at most n significant bits (40_fixed_point.md R101). -/
theorem bitLength_le_of_lt_pow {v n : Nat} (h : v < 2 ^ n) : bitLength v ≤ n := by
  unfold bitLength
  split
  · exact n.zero_le
  · exact Nat.log_lt_of_lt_pow ‹_› h

section
variable (N bound : Nat)

/-- The search stays within its bound (41_combinatorics.md R141). -/
theorem istar_le : istar N bound ≤ bound := istar_eq_findGreatest N bound ▸ Nat.findGreatest_le bound

/-- Index 0 fits, so the index found does (41_combinatorics.md R141). -/
theorem codebook_istar_lt : codebook N (gp (istar N bound)) < 2 ^ 31 := by
  have zero_fits : fits N (gp 0) = 1 := fits_eq_one_iff.2 (by simp [gp])
  rw [← fits_eq_one_iff, istar_eq_findGreatest]
  exact Nat.findGreatest_spec (P := fun i => fits N (gp i) = 1) bound.zero_le zero_fits

/-- No greater index within the bound fits (41_combinatorics.md R141). -/
theorem le_istar {j : Nat} (within : j ≤ bound) (small : codebook N (gp j) < 2 ^ 31) : j ≤ istar N bound := by
  rw [istar_eq_findGreatest]
  exact Nat.le_findGreatest within (fits_eq_one_iff.2 small)

/-- The size the threshold is taken of is below 2^31, so it is the exact one (41_combinatorics.md R141). -/
theorem threshold_eq : threshold N bound = 8 * bitLength (codebook N (gp (istar N bound))) + 12 := by
  rw [threshold, ilog_eq_bitLength, vsat_of_lt (codebook_istar_lt N bound)]

/-- The threshold is at most 8 * 31 + 12 (41_combinatorics.md R142). -/
theorem threshold_le : threshold N bound ≤ 260 := by
  have length := bitLength_le_of_lt_pow (codebook_istar_lt N bound)
  rw [threshold_eq]
  omega

end

/-- Settles O33: the search finds the greatest fitting pseudo-index. -/
theorem threshWritesTheEstimateAndItsIndex : Obligations.ThreshWritesTheEstimateAndItsIndex := by
  refine ⟨decode_encode .thresh, fun s => ⟨istar s.u0 s.params.pseudoMax, _, rfl, istar_le _ _, codebook_istar_lt _ _,
    fun j => le_istar _ _, ?_, ?_⟩⟩
  · rw [threshold_eq]
    rfl
  · exact Nat.le_trans (Nat.mod_le _ _) (threshold_le s.u0 s.params.pseudoMax)

end Sys2Proof.Machine
end

section
/-! ## Unranking (42_pvq_decode.md R166 to R168) -/

namespace Sys2Proof.Machine

open Sys2Proof.Claims

/-! ### The sizes below a pulse count -/

/-- How many vectors of m integers have fewer than k pulses: the sum of V(m,r) over r below k. -/
def sizeBelow (m k : Nat) : Nat := ∑ r ∈ Finset.range k, codebook m r

@[simp] theorem sizeBelow_zero (m : Nat) : sizeBelow m 0 = 0 := rfl

theorem sizeBelow_succ (m k : Nat) : sizeBelow m (k + 1) = sizeBelow m k + codebook m k := Finset.sum_range_succ _ k

theorem sizeBelow_monotone (m : Nat) : Monotone (sizeBelow m) :=
  monotone_nat_of_le_succ fun k => sizeBelow_succ m k ▸ Nat.le_add_right _ _

/-- A vector with one position more has a first entry that is not negative, which leaves any number of pulses up to k, or
one that is negative, which leaves fewer (42_pvq_decode.md R168). -/
theorem codebook_succ_eq (m k : Nat) : codebook (m + 1) k = sizeBelow m (k + 1) + sizeBelow m k := by
  induction k with
  | zero => simp [sizeBelow_succ]
  | succ k ih =>
    rw [codebook_succ_succ, ih, sizeBelow_succ m (k + 1), sizeBelow_succ m k]
    omega

/-- The sum that unranking halves is even (42_pvq_decode.md R168). -/
theorem codebook_add_codebook_succ (m k : Nat) : codebook m k + codebook (m + 1) k = 2 * sizeBelow m (k + 1) := by
  rw [codebook_succ_eq, sizeBelow_succ]
  omega

/-- Its half counts the vectors whose first entry is not negative. -/
theorem signSplit_eq (m k : Nat) : signSplit m k = sizeBelow m (k + 1) := by
  rw [signSplit, codebook_add_codebook_succ, Nat.mul_div_cancel_left _ (by decide)]

/-- A subtraction of the scan takes the sizes below one pulse less (42_pvq_decode.md R166). -/
theorem sizeBelow_succ_sub (m k : Nat) : sizeBelow m (k + 1) - codebook m k = sizeBelow m k := by
  rw [sizeBelow_succ, Nat.add_sub_cancel]

/-- What is left of the half after `taken` turns of the scan. -/
theorem scanSize_eq (m k : Nat) {taken : Nat} (h : taken ≤ k) : scanSize m k taken = sizeBelow m (k - taken) := by
  unfold scanSize
  rw [signSplit_eq]
  induction taken with
  | zero =>
    rw [Finset.sum_range_one, Nat.sub_zero, sizeBelow_succ]
    omega
  | succ taken ih =>
    have before := ih (by omega)
    have step : sizeBelow m (k - taken) = sizeBelow m (k - (taken + 1)) + codebook m (k - (taken + 1)) := by
      rw [← sizeBelow_succ]
      congr 1
      omega
    rw [Finset.sum_range_succ]
    omega

/-! ### One position -/

/-- The index after the sign is taken (42_pvq_decode.md R166). -/
def signIndex (m k i : Nat) : Nat := if i < sizeBelow m (k + 1) then i else i - sizeBelow m (k + 1)

/-- The pulses that the scan leaves: the largest count below which there are no more than i vectors. -/
def scanEnd (m i k : Nat) : Nat := Nat.findGreatest (fun r => sizeBelow m r ≤ i) k

/-- The pulses left after a position. -/
def pulsesLeft (m k i : Nat) : Nat := scanEnd m (signIndex m k i) k

/-- The index left after a position. -/
def indexLeft (m k i : Nat) : Nat := signIndex m k i - sizeBelow m (pulsesLeft m k i)

/-- The entry of a position. -/
def firstEntry (m k i : Nat) : Int :=
  if i < sizeBelow m (k + 1) then ((k - pulsesLeft m k i : Nat) : Int) else -((k - pulsesLeft m k i : Nat) : Int)

theorem scanEnd_le (m i k : Nat) : scanEnd m i k ≤ k := Nat.findGreatest_le k

theorem sizeBelow_scanEnd_le (m i k : Nat) : sizeBelow m (scanEnd m i k) ≤ i :=
  Nat.findGreatest_spec (P := fun r => sizeBelow m r ≤ i) k.zero_le i.zero_le

/-- The scan ends at the count whose vectors hold the index. -/
theorem scanEnd_eq {m i k r : Nat} (within : r ≤ k) (low : sizeBelow m r ≤ i) (high : i < sizeBelow m (r + 1)) :
    scanEnd m i k = r :=
  Nat.findGreatest_eq_iff.2 ⟨within, fun _ => low, fun _ above _ =>
    Nat.not_le.2 (Nat.lt_of_lt_of_le high (sizeBelow_monotone m above))⟩

theorem lt_sizeBelow_of_scanEnd_lt {m i k r : Nat} (above : scanEnd m i k < r) (within : r ≤ k) : i < sizeBelow m r :=
  Nat.lt_of_not_le (Nat.findGreatest_is_greatest (P := fun r => sizeBelow m r ≤ i) above within)

/-- The model's scan, begun at the size below k, ends at the size below the pulses it leaves. -/
theorem unrankScan_eq (m i k : Nat) :
    unrankScan m i k (sizeBelow m k) = (scanEnd m i k, sizeBelow m (scanEnd m i k)) := by
  induction k with
  | zero => rfl
  | succ k ih =>
    rw [unrankScan]
    split
    case isTrue goes_on =>
      have same : scanEnd m i (k + 1) = scanEnd m i k := Nat.findGreatest_of_not (Nat.not_le.2 goes_on)
      rw [sizeBelow_succ_sub, ih, same]
    case isFalse stops =>
      have same : scanEnd m i (k + 1) = k + 1 := Nat.findGreatest_eq (Nat.not_lt.1 stops)
      rw [same]

/-- The entry, the index and the pulses that a position of the model gives. -/
theorem unrankPosition_eq (m : Nat) (w : UnrankWork) :
    (unrankPosition m w).1 = firstEntry m w.k w.i ∧ (unrankPosition m w).2.k = pulsesLeft m w.k w.i ∧
    (unrankPosition m w).2.i = indexLeft m w.k w.i := by
  have half : (codebook m w.k + codebook (m + 1) w.k) / 2 = sizeBelow m (w.k + 1) := signSplit_eq m w.k
  have left (i : Nat) : ((w.k - scanEnd m i w.k : Nat) : Int) = w.k - scanEnd m i w.k := Nat.cast_sub (scanEnd_le _ _ _)
  by_cases plus : w.i < sizeBelow m (w.k + 1)
  · have index : signIndex m w.k w.i = w.i := if_pos plus
    simp [unrankPosition, firstEntry, indexLeft, pulsesLeft, half, plus, index, left, sizeBelow_succ_sub, unrankScan_eq]
  · have index : signIndex m w.k w.i = w.i - sizeBelow m (w.k + 1) := if_neg plus
    simp [unrankPosition, firstEntry, indexLeft, pulsesLeft, half, plus, index, left, sizeBelow_succ_sub, unrankScan_eq]

/-- The entries depend on the index and the pulses alone. -/
theorem unrankFrom_eq_unrank (m j : Nat) (w : UnrankWork) : (unrankFrom m j w).1 = unrank m w.k w.i := by
  unfold unrank
  induction m generalizing j w with
  | zero => rfl
  | succ m ih =>
    obtain ⟨entry, pulses, index⟩ := unrankPosition_eq m { w with j := j }
    obtain ⟨entry', pulses', index'⟩ := unrankPosition_eq m { unrankStart w.k w.i with j := 0 }
    rw [unrankFrom, unrankFrom, ih, ih (0 + 1), entry, pulses, index, entry', pulses', index']
    rfl

/-- A vector is its first entry and the vector of the index and the pulses left (42_pvq_decode.md R166). -/
theorem unrank_succ (m k i : Nat) :
    unrank (m + 1) k i = firstEntry m k i :: unrank m (pulsesLeft m k i) (indexLeft m k i) := by
  obtain ⟨entry, pulses, index⟩ := unrankPosition_eq m { unrankStart k i with j := 0 }
  rw [unrank, unrankFrom, unrankFrom_eq_unrank, entry, pulses, index]
  rfl

section
variable {m k i : Nat} (inRange : i < codebook (m + 1) k)
include inRange

/-- A negative entry takes a pulse at least. -/
theorem pulsesLeft_lt_of_minus (minus : ¬ i < sizeBelow m (k + 1)) : pulsesLeft m k i < k := by
  have index : signIndex m k i < sizeBelow m k := by
    rw [codebook_succ_eq] at inRange
    rw [signIndex, if_neg minus]
    omega
  by_contra stays
  have all : pulsesLeft m k i = k := Nat.le_antisymm (scanEnd_le _ _ _) (Nat.not_lt.1 stays)
  have reached : sizeBelow m (pulsesLeft m k i) ≤ signIndex m k i := sizeBelow_scanEnd_le _ _ _
  rw [all] at reached
  omega

/-- The scan stops as soon as it can. -/
theorem signIndex_lt_sizeBelow : signIndex m k i < sizeBelow m (pulsesLeft m k i + 1) := by
  by_cases taken : pulsesLeft m k i < k
  · exact lt_sizeBelow_of_scanEnd_lt (Nat.lt_succ_self _) taken
  · have plus : i < sizeBelow m (k + 1) := not_not.1 (mt (pulsesLeft_lt_of_minus inRange) taken)
    have all : pulsesLeft m k i = k := Nat.le_antisymm (scanEnd_le _ _ _) (Nat.not_lt.1 taken)
    rw [all, signIndex, if_pos plus]
    exact plus

/-- The index left is one of a vector of the positions and the pulses left. -/
theorem indexLeft_lt : indexLeft m k i < codebook m (pulsesLeft m k i) := by
  have above := signIndex_lt_sizeBelow inRange
  have reached : sizeBelow m (pulsesLeft m k i) ≤ signIndex m k i := sizeBelow_scanEnd_le _ _ _
  rw [sizeBelow_succ] at above
  unfold indexLeft
  omega

theorem firstEntry_neg_iff : firstEntry m k i < 0 ↔ ¬ i < sizeBelow m (k + 1) := by
  unfold firstEntry
  split
  case isTrue plus => exact iff_of_false (by omega) (not_not.2 plus)
  case isFalse minus =>
    have taken := pulsesLeft_lt_of_minus inRange minus
    exact iff_of_true (by omega) minus

end

theorem firstEntry_natAbs (m k i : Nat) : (firstEntry m k i).natAbs = k - pulsesLeft m k i := by
  unfold firstEntry
  split <;> simp

/-- Unranking an index of a vector takes the steps of R166, written as a relation. -/
theorem unrankSteps_unrank {n k i : Nat} (inRange : i < codebook n k) : UnrankSteps n k i (unrank n k i) := by
  induction n generalizing k i with
  | zero => rfl
  | succ m ih =>
    have left : pulsesLeft m k i ≤ k := scanEnd_le _ _ _
    have reached : sizeBelow m (pulsesLeft m k i) ≤ signIndex m k i := sizeBelow_scanEnd_le _ _ _
    have scanned : scanSize m k (k - pulsesLeft m k i) = sizeBelow m (pulsesLeft m k i) := by
      rw [scanSize_eq m k (Nat.sub_le _ _), Nat.sub_sub_self left]
    refine ⟨k - pulsesLeft m k i, signIndex m k i, indexLeft m k i, unrank m (pulsesLeft m k i) (indexLeft m k i),
      Nat.sub_le _ _, ?_, ?_, ?_, ?_, ?_, ?_⟩
    · rw [signSplit_eq, signIndex]
    · intro q hq
      rw [scanSize_eq m k (by omega), Nat.cast_lt]
      exact lt_sizeBelow_of_scanEnd_lt (by unfold pulsesLeft at hq; omega) (Nat.sub_le _ _)
    · rw [scanned]
      exact Nat.cast_le.2 reached
    · rw [scanned, indexLeft, Nat.cast_sub reached]
    · rw [unrank_succ, signSplit_eq, firstEntry]
    · rw [Nat.sub_sub_self left]
      exact ih (indexLeft_lt inRange)

/-! ### The index of a vector -/

/-- The pulses of a vector. -/
def pulses (X : List Int) : Nat := (X.map Int.natAbs).sum

@[simp] theorem pulses_cons (x : Int) (X : List Int) : pulses (x :: X) = x.natAbs + pulses X := rfl

/-- The index that unranks to a vector: the vectors before it are those whose first entry has the other sign, if it is
negative; then those of its sign that leave fewer pulses; then those before it with the same first entry. -/
def indexOf : List Int → Nat
  | [] => 0
  | x :: X =>
    (if x < 0 then sizeBelow X.length (pulses (x :: X) + 1) else 0) + sizeBelow X.length (pulses X) + indexOf X

/-- An index unranks to a vector with all the pulses (42_pvq_decode.md R168). -/
theorem pulses_unrank {n k i : Nat} (inRange : i < codebook n k) : pulses (unrank n k i) = k := by
  induction n generalizing k i with
  | zero =>
    cases k with
    | zero => rfl
    | succ k => simp at inRange
  | succ m ih =>
    have left : pulsesLeft m k i ≤ k := scanEnd_le _ _ _
    rw [unrank_succ, pulses_cons, firstEntry_natAbs, ih (indexLeft_lt inRange), Nat.sub_add_cancel left]

/-- It is the index of that vector. -/
theorem indexOf_unrank {n k i : Nat} (inRange : i < codebook n k) : indexOf (unrank n k i) = i := by
  induction n generalizing k i with
  | zero =>
    cases k with
    | zero =>
      rw [codebook_zero_pulses] at inRange
      exact (Nat.lt_one_iff.1 inRange).symm
    | succ k => simp at inRange
  | succ m ih =>
    have reached : sizeBelow m (pulsesLeft m k i) ≤ signIndex m k i := sizeBelow_scanEnd_le _ _ _
    have all : pulses (firstEntry m k i :: unrank m (pulsesLeft m k i) (indexLeft m k i)) = k := by
      rw [← unrank_succ, pulses_unrank inRange]
    rw [unrank_succ, indexOf, all, pulses_unrank (indexLeft_lt inRange), ih (indexLeft_lt inRange), unrank_entries,
      indexLeft]
    have sign : (if firstEntry m k i < 0 then sizeBelow m (k + 1) else 0) + signIndex m k i = i := by
      simp only [signIndex, firstEntry_neg_iff inRange]
      by_cases plus : i < sizeBelow m (k + 1)
      · simp [plus]
      · simp [plus, Nat.add_sub_cancel' (Nat.not_lt.1 plus)]
    omega

/-- An index among the vectors of r pulses, after all those of fewer. -/
theorem sizeBelow_add_lt {m r i : Nat} (inRange : i < codebook m r) : sizeBelow m r + i < sizeBelow m (r + 1) :=
  sizeBelow_succ m r ▸ Nat.add_lt_add_left inRange _

/-- A vector's index is below the codebook size. -/
theorem indexOf_lt (X : List Int) : indexOf X < codebook X.length (pulses X) := by
  induction X with
  | nil => exact Nat.one_pos
  | cons x X ih =>
    have rest := sizeBelow_add_lt ih
    rw [List.length_cons, codebook_succ_eq, indexOf]
    split
    case isTrue minus =>
      have fewer : sizeBelow X.length (pulses X + 1) ≤ sizeBelow X.length (pulses (x :: X)) :=
        sizeBelow_monotone _ (by rw [pulses_cons]; omega)
      omega
    case isFalse =>
      have fewer : sizeBelow X.length (pulses X + 1) ≤ sizeBelow X.length (pulses (x :: X) + 1) :=
        sizeBelow_monotone _ (by rw [pulses_cons]; omega)
      omega

/-- What unranking takes the sign from at the index of a vector. -/
theorem indexOf_cons_lt_iff (x : Int) (X : List Int) :
    indexOf (x :: X) < sizeBelow X.length (pulses (x :: X) + 1) ↔ 0 ≤ x := by
  have rest := sizeBelow_add_lt (indexOf_lt X)
  have fewer : sizeBelow X.length (pulses X + 1) ≤ sizeBelow X.length (pulses (x :: X) + 1) :=
    sizeBelow_monotone _ (by rw [pulses_cons]; omega)
  rw [indexOf]
  split <;> omega

/-- The index of a vector after the sign of its first entry is taken. -/
theorem signIndex_indexOf (x : Int) (X : List Int) :
    signIndex X.length (pulses (x :: X)) (indexOf (x :: X)) = sizeBelow X.length (pulses X) + indexOf X := by
  rw [signIndex]
  simp only [indexOf_cons_lt_iff]
  rw [indexOf]
  split <;> split <;> omega

/-- A vector's index unranks to it. -/
theorem unrank_indexOf (X : List Int) : unrank X.length (pulses X) (indexOf X) = X := by
  induction X with
  | nil => rfl
  | cons x X ih =>
    have left : pulsesLeft X.length (pulses (x :: X)) (indexOf (x :: X)) = pulses X := by
      rw [pulsesLeft, signIndex_indexOf]
      exact scanEnd_eq (Nat.le_add_left _ _) (Nat.le_add_right _ _) (sizeBelow_add_lt (indexOf_lt X))
    have entry : firstEntry X.length (pulses (x :: X)) (indexOf (x :: X)) = x := by
      rw [firstEntry, left, pulses_cons, Nat.add_sub_cancel, ← pulses_cons]
      simp only [indexOf_cons_lt_iff]
      split <;> omega
    rw [List.length_cons, unrank_succ, entry, left, indexLeft, signIndex_indexOf, left, Nat.add_sub_cancel_left, ih]

/-- Settles O40: `indexOf` is the inverse. -/
theorem unrankingIsABijection : Obligations.UnrankingIsABijection := by
  intro N K _ _
  refine ⟨fun u inRange => ⟨unrank_entries N K u, pulses_unrank inRange⟩, ?_⟩
  rintro X rfl rfl
  refine ⟨indexOf X, ⟨indexOf_lt X, unrank_indexOf X⟩, fun u ⟨inRange, unranks⟩ => ?_⟩
  rw [← unranks, indexOf_unrank inRange]

/-! ### The width of the arithmetic -/

/-- The size does not fall with the positions (42_pvq_decode.md R167). -/
theorem codebook_monotone_positions (k : Nat) : Monotone (codebook · k) :=
  monotone_nat_of_le_succ fun n => by
    rw [codebook_succ_eq, sizeBelow_succ]
    omega

/-- Every size that unranking reads is at most V(N,K) (42_pvq_decode.md R167). -/
theorem codebook_le {N K n k : Nat} (hN : 1 ≤ N) (hn : n ≤ N) (hk : k ≤ K) : codebook n k ≤ codebook N K := by
  obtain ⟨N, rfl⟩ := Nat.exists_eq_add_of_le' hN
  exact (codebook_monotone_positions k hn).trans (codebook_monotone N hk)

/-- Settles O41: the size grows with positions and pulses; a sum is twice the size of which a term is a part. -/
theorem unrankingFitsItsWidth : Obligations.UnrankingFitsItsWidth := by
  refine ⟨fun N K n k hN hn hk small => ⟨codebook_le hN hn hk, fun below => ?_⟩, fun m k hm => ?_⟩
  · have shorter := codebook_le hN hn hk
    have longer := codebook_le hN (show n + 1 ≤ N from below) hk
    omega
  · obtain ⟨m, rfl⟩ := Nat.exists_eq_add_of_le' hm
    rw [Nat.add_sub_cancel, codebook_add_codebook_succ, Nat.mul_div_cancel_left _ (by decide), sizeBelow_succ]
    exact ⟨Nat.dvd_mul_right _ _, Nat.le_add_left _ _⟩

end Sys2Proof.Machine
end

section
/-! ## PVQ_DECODE (42_pvq_decode.md R160 to R171) -/

namespace Sys2Proof.Machine

open Sys2Proof.Claims

/-! ### The checks -/

/-- The saturated size is below 2^31 exactly when the exact one is (41_combinatorics.md R134). -/
theorem vsat_lt_iff {N K : Nat} : vsat N K < 2 ^ 31 ↔ codebook N K < 2 ^ 31 := by
  rw [vsat_eq_sat32, sat32]
  omega

section
variable {s : State}

/-- N above NMAX or K above KMAX (42_pvq_decode.md R165). -/
theorem execPvqDecode_capacity (n_pos : 1 ≤ s.u0) (exceeds : s.params.nmax < s.u0 ∨ s.params.kmax < s.u1) :
    execPvqDecode s = .next (s.complete .capacity) := by
  rcases execPvqDecode_cases s with _ | ⟨_, _, e⟩ | _
  case inr.inl => exact e
  all_goals omega

/-- K = 0 (42_pvq_decode.md R165). -/
theorem execPvqDecode_zeroPulses (n_pos : 1 ≤ s.u0) (n_max : s.u0 ≤ s.params.nmax) (zero : s.u1 = 0) :
    execPvqDecode s = .next (pvqZeroPulses s s.u0) := by
  rcases execPvqDecode_cases s with _ | _ | ⟨_, _, _, ⟨_, e⟩ | _ | _ | _⟩
  case inr.inr.inl => exact e
  all_goals omega

/-- A codebook of 2^31 or more (42_pvq_decode.md R165, R167). -/
theorem execPvqDecode_tooLarge (n_pos : 1 ≤ s.u0) (n_max : s.u0 ≤ s.params.nmax) (k_pos : 1 ≤ s.u1)
    (k_max : s.u1 ≤ s.params.kmax) (large : 2 ^ 31 ≤ codebook s.u0 s.u1) :
    execPvqDecode s = .next ((s.sweep s.u0 s.u1).complete .codebookTooLarge) := by
  have size : ¬ vsat s.u0 s.u1 < 2 ^ 31 := mt vsat_lt_iff.1 (Nat.not_lt.2 large)
  rcases execPvqDecode_cases s with _ | _ | ⟨_, _, _, _ | _ | ⟨_, _, e⟩ | _⟩
  case inr.inr.inr.inr.inl => exact e
  all_goals omega

/-- PVQ_DECODE draws below the exact codebook size, or completes without touching the entropy port, and never with
INVALID_CODEBOOK (42_pvq_decode.md R164, R165, R171). -/
theorem execPvqDecode_draws_or_completes (s : State) :
    (drawsFor s ∧ execPvqDecode s = .next (pvqDraw s s.u0 s.u1 (wordOfNat (codebook s.u0 s.u1)))) ∨
    (¬ drawsFor s ∧ ∃ t c, execPvqDecode s = .next t ∧ t.request = s.request ∧ t.phase = .idle ∧
      t.status = s.status.complete c ∧ c ≠ .invalidCodebook) := by
  have checks : drawsFor s ↔
    1 ≤ s.u0 ∧ s.u0 ≤ s.params.nmax ∧ 1 ≤ s.u1 ∧ s.u1 ≤ s.params.kmax ∧ vsat s.u0 s.u1 < 2 ^ 31 := by
    rw [vsat_lt_iff]
    exact Iff.rfl
  rw [checks]
  rcases execPvqDecode_cases s with
    ⟨_, e⟩ | ⟨_, _, e⟩ | ⟨n_pos, n_max, k_max, ⟨_, e⟩ | ⟨k_pos, empty, _⟩ | ⟨_, _, e⟩ | ⟨k_pos, _, small, e⟩⟩
  · exact .inr ⟨by omega, _, _, e, rfl, rfl, rfl, by decide⟩
  · exact .inr ⟨by omega, _, _, e, rfl, rfl, rfl, by decide⟩
  · exact .inr ⟨by omega, _, _, e, rfl, rfl, rfl, by decide⟩
  · have two_le := two_le_vsat n_pos k_pos
    omega
  · exact .inr ⟨by omega, _, _, e, rfl, rfl, rfl, by decide⟩
  · rw [vsat_of_lt (vsat_lt_iff.1 small)] at e
    exact .inl ⟨⟨n_pos, n_max, k_pos, k_max, small⟩, e⟩

/-- With its checks passed PVQ_DECODE draws. -/
theorem execPvqDecode_of_drawsFor (draws : drawsFor s) :
    execPvqDecode s = .next (pvqDraw s s.u0 s.u1 (wordOfNat (codebook s.u0 s.u1))) :=
  ((execPvqDecode_draws_or_completes s).resolve_right fun completes => completes.1 draws).2

/-- The bound of the draw is the size itself, not cut to 32 bits. -/
theorem toNat_bound_of_drawsFor (draws : drawsFor s) :
    (wordOfNat (codebook s.u0 s.u1)).toNat = codebook s.u0 s.u1 := by
  obtain ⟨_, _, _, _, small⟩ := draws
  exact toNat_wordOfNat_of_lt small

/-- The bound of the draw is at least 2 and below 2^31 (42_pvq_decode.md R160). -/
theorem codebook_bounds_of_drawsFor (draws : drawsFor s) :
    2 ≤ codebook s.u0 s.u1 ∧ codebook s.u0 s.u1 < 2 ^ 31 := by
  obtain ⟨n_pos, _, k_pos, _, small⟩ := draws
  have two_le := two_le_vsat n_pos k_pos
  rw [vsat_of_lt small] at two_le
  exact ⟨two_le, small⟩

end

/-- Settles O35: each premise leaves one outcome. -/
theorem pvqDecodeRefusesInItsCheckOrder : Obligations.PvqDecodeRefusesInItsCheckOrder :=
  ⟨fun _ zero => if_pos zero, fun _ n_pos exceeds => execPvqDecode_capacity n_pos exceeds,
    fun _ n_pos n_max k_pos k_max large => ⟨_, execPvqDecode_tooLarge n_pos n_max k_pos k_max large, rfl⟩⟩

/-- Settles O43: the size of a codebook with a position and a pulse is at least 2, so the check never fails. -/
theorem invalidCodebookIsNeverRaised : Obligations.InvalidCodebookIsNeverRaised := by
  refine ⟨fun N K => two_le_vsat, fun s => ?_⟩
  rcases execPvqDecode_draws_or_completes s with ⟨_, e⟩ | ⟨_, t, c, e, _, _, status, code⟩
  · refine ⟨_, e, fun idle => ?_⟩
    rcases pvqDraw_cases s s.u0 s.u1 (wordOfNat (codebook s.u0 s.u1)) with
      ⟨_, ends⟩ | ⟨_, _, ends⟩ | ⟨_, _, _, ends⟩ | ⟨_, _, _, ends⟩ <;> rw [ends] at idle ⊢
    · cases idle
    · exact nofun
    · exact nofun
    · cases idle
  · exact ⟨t, e, fun _ => by rwa [status]⟩

/-! ### The request -/

/-- With no answer held the draw posts the request (42_pvq_decode.md R160). -/
theorem pvqDraw_unheld {s : State} (unheld : s.answer = none) (N K : Nat) (ft : Word) :
    pvqDraw s N K ft = (s.sweep N K).postRequest ft := by
  rw [pvqDraw, unheld]

/-- With an answer held no command leaves a request where none was (42_pvq_decode.md R164). -/
theorem Ending.request_none {i : Instr} {s t : State} (h : Ending i s t) {a : Answer} (held : s.answer = some a)
    (none_left : s.request = none) : t.request = none := by
  cases h with
  | completes _ _ _ request => exact request.trans none_left
  | asks _ _ unheld => rw [unheld] at held; cases held
  | breaks => rfl

/-- A command other than PVQ_DECODE completes and leaves the entropy port alone (42_pvq_decode.md R164). -/
theorem Ending.completes_of_ne {i : Instr} {s t : State} (h : Ending i s t) (other : i ≠ .pvqDecode) :
    t.request = s.request ∧ t.answer = s.answer ∧ t.phase = .idle := by
  cases h with
  | completes _ _ _ request answer phase => exact ⟨request, answer.resolve_right fun used => other used.2, phase⟩
  | asks _ command => exact absurd command other
  | breaks _ _ command => exact absurd command other

/-- Settles O37: PVQ_DECODE posts where it draws; how every command's step ends is known. -/
theorem onlyPvqDecodePostsOneRequest : Obligations.OnlyPvqDecodePostsOneRequest := by
  refine ⟨fun s draws unheld => ?_, fun i s other => ?_, fun s fails => ?_, fun s a held none_left => ?_⟩
  · have posts := execPvqDecode_of_drawsFor draws
    have bound := toNat_bound_of_drawsFor draws
    obtain ⟨two_le, small⟩ := codebook_bounds_of_drawsFor draws
    rw [pvqDraw_unheld unheld] at posts
    exact ⟨_, _, posts, bound, two_le.trans_eq bound.symm, bound.trans_lt small, rfl⟩
  · obtain ⟨t, runs, ending⟩ := exec_ending i s
    exact ⟨t, runs, ending.completes_of_ne other⟩
  · rcases execPvqDecode_draws_or_completes s with ⟨draws, _⟩ | ⟨_, t, _, runs, request, phase, _⟩
    · exact absurd draws fails
    · exact ⟨t, runs, request, phase⟩
  · obtain ⟨t, runs, ending⟩ := exec_ending .pvqDecode s
    exact ⟨t, runs, ending.request_none held none_left⟩

/-! ### The completion -/

/-- Settles O39: the draw with ERR(e) held is `pvqEntropyError`. -/
theorem pvqDecodePropagatesTheEntropyError : Obligations.PvqDecodePropagatesTheEntropyError := by
  intro s e draws held
  have runs := execPvqDecode_of_drawsFor draws
  rw [pvqDraw, held] at runs
  exact ⟨_, runs, rfl⟩

/-- What a list of words written from VEC[0] on leaves: its words there, and everything else (10_state.md R34). -/
theorem State.vec_of_written {s t : State} {vs : List Word} {N : Nat} (canonical : Memory.wf s.mem)
    (length : vs.length = N) (mem : t.mem = (s.setVecFrom0 vs).mem) :
    (∀ j, j < N → t.vec j = some (vs.getD j 0)) ∧ (∀ j, N ≤ j → t.vec j = s.vec j) ∧ bytesOutsideVecKept s t N := by
  subst length
  have same (j : Nat) : t.vec j = (s.setVecFrom0 vs).vec j := congrArg (Memory.readWord · (vecOffset j)) mem
  refine ⟨fun j hj => ?_, fun j hj => ?_, ?_⟩
  · rw [same, s.vec_setVecFrom0 vs j canonical, if_pos hj, List.getD_eq_getElem _ _ hj, List.getElem?_eq_getElem hj]
  · rw [same, s.vec_setVecFrom0 vs j canonical, if_neg (Nat.not_lt.2 hj)]
  · unfold bytesOutsideVecKept
    rw [mem]
    exact s.bytesOutsideVecKept_setVecFrom0 vs canonical

/-- Settles O36: N zeros are written from VEC[0] on. -/
theorem pvqDecodeOfZeroPulsesWritesZeros : Obligations.PvqDecodeOfZeroPulsesWritesZeros := by
  intro s canonical n_pos n_max zero
  obtain ⟨inside, beyond, outside⟩ := State.vec_of_written (t := pvqZeroPulses s s.u0) canonical
    (List.length_replicate (n := s.u0) (a := (0 : Word))) rfl
  refine ⟨_, execPvqDecode_zeroPulses n_pos n_max zero, rfl, fun j hj => ?_, beyond, outside⟩
  rw [inside j hj]
  exact congrArg some (List.getD_replicate _ hj)

/-- With an index in range held the draw delivers (42_pvq_decode.md R165). -/
theorem pvqDraw_inRange {s : State} {u ft : Word} (held : s.answer = some (.ok u)) (inRange : u.toNat < ft.toNat)
    (N K : Nat) : pvqDraw s N K ft = pvqDeliver s N K u ft := by
  simp [pvqDraw, held, inRange]

/-- What a delivery leaves in VEC (42_pvq_decode.md R165, R170). -/
theorem pvqDeliver_vec {s : State} (canonical : Memory.wf s.mem) (N K : Nat) (u ft : Word) :
    (∀ j, j < N → (pvqDeliver s N K u ft).vec j = some (wordOfInt ((unrank N K u.toNat).getD j 0))) ∧
    (∀ j, N ≤ j → (pvqDeliver s N K u ft).vec j = s.vec j) ∧ bytesOutsideVecKept s (pvqDeliver s N K u ft) N := by
  obtain ⟨inside, rest⟩ := State.vec_of_written (t := pvqDeliver s N K u ft) canonical
    ((List.length_map wordOfInt).trans (unrank_entries N K u.toNat)) rfl
  refine ⟨fun j hj => ?_, rest⟩
  rw [inside j hj]
  exact congrArg some (List.getD_map _ 0 wordOfInt)

/-- Settles O38: the delivery, with the steps of unranking. -/
theorem pvqDecodeDeliversThePulseVector : Obligations.PvqDecodeDeliversThePulseVector := by
  refine ⟨decode_encode .pvqDecode, fun s u canonical draws held inRange => ?_⟩
  have delivers := execPvqDecode_of_drawsFor draws
  rw [pvqDraw_inRange held (inRange.trans_eq (toNat_bound_of_drawsFor draws).symm)] at delivers
  refine ⟨_, delivers, ?_, unrank_entries _ _ _, unrankSteps_unrank inRange, ?_⟩
  · exact pvqDeliver_frame s _ _ u _
  · exact pvqDeliver_vec canonical _ _ _ _

/-- Settles O42: an index in range is delivered in both states; one out of range completes neither. -/
theorem pvqDecodeIsDeterminedByOperandsAndAnswer : Obligations.PvqDecodeIsDeterminedByOperandsAndAnswer := by
  rintro s s' params l0 l1 answer ⟨u, held⟩ canonical canonical' draws
  have held' : s'.answer = some (.ok u) := answer.trans held
  have draws' : drawsFor s' := by rwa [drawsFor, params, l0, l1]
  have runs := execPvqDecode_of_drawsFor draws
  have runs' := execPvqDecode_of_drawsFor draws'
  have u0 : s'.u0 = s.u0 := congrArg zext32 l0
  have u1 : s'.u1 = s.u1 := congrArg zext32 l1
  rw [u0, u1] at runs'
  refine ⟨_, _, runs, runs', fun idle => ?_⟩
  rcases pvqDraw_cases s s.u0 s.u1 (wordOfNat (codebook s.u0 s.u1)) with
    ⟨unheld, _⟩ | ⟨_, error, _⟩ | ⟨v, index, inRange, e⟩ | ⟨_, _, _, e⟩
  · rw [unheld] at held
    cases held
  · rw [error] at held
    cases held
  · obtain rfl : v = u := by simpa [index] using held
    rw [pvqDraw_inRange held inRange, pvqDraw_inRange held' inRange]
    refine ⟨rfl, rfl, rfl, rfl, fun j hj => ?_⟩
    exact ((pvqDeliver_vec canonical' s.u0 _ _ _).1 j hj).trans ((pvqDeliver_vec canonical s.u0 _ _ _).1 j hj).symm
  · rw [e] at idle
    cases idle

end Sys2Proof.Machine
end

section
/-! ## The block stopped by an index out of range (42_pvq_decode.md R161) -/

namespace Sys2Proof.Machine

/-- Outside EXEC with no request outstanding, block turns and answers only empty the agenda (10_state.md R32;
70_reset_and_hazards.md R252). -/
theorem core_run_stutters {s : State} (phase : s.phase ≠ .exec) (request : s.request = none) (turns : List Turn)
    (agenda : s.agenda = turns) (quiet : ∀ x ∈ turns, x = .block ∨ ∃ a, x = .answer a) :
    core.run turns.length s = .next { s with agenda := [] } := by
  induction turns generalizing s with
  | nil =>
    change Host.Outcome.next s = .next { s with agenda := [] }
    rw [← agenda]
  | cons x turns ih =>
    obtain ⟨head, tail⟩ := List.forall_mem_cons.1 quiet
    have stutters : step s = .next { s with agenda := turns } := by
      rcases head with rfl | ⟨a, rfl⟩
      · rw [step_block s turns agenda]
        exact blockTurn_stutters phase
      · rw [step_answer s a turns agenda, State.receive, request]
    rw [List.length_cons, core_run_next _ _ _ stutters]
    exact ih phase request rfl tail

/-- The block stopped by an index out of range: it waits, BUSY, for an answer to no request, the fault is recorded, and no
reset is to come (42_pvq_decode.md R161; log 12). -/
structure State.Stopped (ft : Word) (s : State) : Prop where
  phase : s.phase = .waitEnt ft
  request : s.request = none
  busy : s.status.busy = true
  fault : s.faults.entropyRange = true
  noReset : .reset ∉ s.agenda

section
variable {ft : Word} {s : State}

/-- Taking a turn from the agenda. -/
theorem State.Stopped.turn (h : s.Stopped ft) (rest : List Turn) (left : rest ⊆ s.agenda) :
    ({ s with agenda := rest } : State).Stopped ft :=
  ⟨h.phase, h.request, h.busy, h.fault, fun reset => h.noReset (left reset)⟩

/-- A host read changes no register and clears no fault (20_memory.md R57). -/
theorem State.Stopped.hostRead (h : s.Stopped ft) (width off : Nat) : (s.hostRead width off).Stopped ft := by
  have fault := (s.keepsRecord_hostRead width off).entropyRange h.fault
  rw [s.hostRead_frame] at fault ⊢
  exact ⟨h.phase, h.request, h.busy, fault, h.noReset⟩

/-- A host write while BUSY is an overrun or a bad access (20_memory.md R53, R60). -/
theorem State.Stopped.hostWrite (h : s.Stopped ft) (width off : Nat) (v : Word) :
    (s.hostWrite width off v).Stopped ft := by
  obtain ⟨phase, request, busy, fault, noReset⟩ := h
  rcases s.hostWrite_cases width off v with ⟨_, e⟩ | ⟨_, _, e⟩ | ⟨_, idle, _⟩
  · rw [e]
    exact ⟨phase, request, busy, fault, noReset⟩
  · rw [e]
    exact ⟨phase, request, busy, fault, noReset⟩
  · rw [busy] at idle
    cases idle

/-- An answer finds no request (70_reset_and_hazards.md R252). -/
theorem State.Stopped.receive (h : s.Stopped ft) (a : Answer) : (s.receive a).Stopped ft := by
  rw [State.receive, h.request]
  exact h

/-- The block has no step (10_state.md R32). -/
theorem State.Stopped.blockTurn {t : State} (h : s.Stopped ft) (taken : blockTurn s = .next t) : t.Stopped ft := by
  rw [blockTurn_stutters (by simp [h.phase])] at taken
  injection taken with e
  exact e ▸ h

/-- No turn but a reset moves a stopped block. -/
theorem State.Stopped.step {t : State} (h : s.Stopped ft) (taken : step s = .next t) : t.Stopped ft := by
  have turn {x : Turn} {rest : List Turn} (agenda : s.agenda = x :: rest) :
      ({ s with agenda := rest } : State).Stopped ft := h.turn rest (agenda ▸ List.subset_cons_self x rest)
  rcases step_cases s t taken with ⟨rest, agenda | ⟨_, rfl⟩, e⟩ | ⟨width, addr, rest, agenda, _, rfl⟩ |
    ⟨width, addr, v, rest, agenda, _, rfl⟩ | ⟨a, rest, agenda, rfl⟩ | ⟨a, rest, agenda, rfl⟩ | ⟨rest, agenda, _⟩
  · exact (turn agenda).blockTurn e
  · exact (h.turn [] (List.nil_subset _)).blockTurn e
  · exact (turn agenda).hostRead _ _
  · exact (turn agenda).hostWrite _ _ _
  · exact (turn agenda).receive a
  · exact turn agenda
  · exact absurd (agenda ▸ List.mem_cons_self) h.noReset

/-- Nor does any number of them. -/
theorem State.Stopped.run {t : State} (n : Nat) (h : s.Stopped ft) (runs : core.run n s = .next t) : t.Stopped ft := by
  induction n generalizing s with
  | zero =>
    injection runs with e
    exact e ▸ h
  | succ n ih =>
    obtain ⟨s', taken, runs⟩ := (core_run_next_iff n s t).1 runs
    exact ih (h.step taken) runs

end

/-- An answer out of range to the outstanding request stops the block (42_pvq_decode.md R161). -/
theorem State.receive_outOfRange {s : State} {ft u : Word} (request : s.request = some ft) (out : ft.toNat ≤ u.toNat) :
    s.receive (.ok u) = s.breakEntropy ft := by
  simp [State.receive, request, Nat.not_lt.2 out]

/-- Settles O8: the answer stops the block, block turns and answers stutter, and no turn but a reset moves it. -/
theorem outOfRangeAnswerStopsTheBlock : Obligations.OutOfRangeAnswerStopsTheBlock := by
  intro s ft u turns waits request out agenda
  have stops : step s = .next (({ s with agenda := turns } : State).breakEntropy ft) := by
    rw [step_answer s _ turns agenda, State.receive_outOfRange (s := { s with agenda := turns }) request out]
  refine ⟨⟨_, stops, by rw [State.breakEntropy, ← waits]; rfl⟩, fun quiet t taken => ?_, fun busy noReset n t runs => ?_⟩
  · obtain rfl : _ = t := Host.Outcome.next.inj (stops.symm.trans taken)
    rw [core_run_next _ _ _ stops]
    exact core_run_stutters (by simp) rfl turns rfl quiet
  · rw [core_run_next _ _ _ stops] at runs
    have stopped : (({ s with agenda := turns } : State).breakEntropy ft).Stopped ft :=
      ⟨rfl, rfl, busy, rfl, fun reset => noReset _ reset rfl⟩
    have after := stopped.run n runs
    exact ⟨after.phase, after.busy, after.fault⟩

end Sys2Proof.Machine
end

section
/-! ## SPREAD: its checks and the stride (43_spreading.md R190, R192, R198) -/

namespace Sys2Proof.Machine

open Sys2Proof.Claims

/-! ### The checks -/

section
variable {s : State} (level_max : s.u2 ≤ 3)
include level_max

/-- N above NMAX (43_spreading.md R190). -/
theorem execSpread_capacity (exceeds : s.params.nmax < s.u0) : execSpread s = .next (s.complete .capacity) := by
  rcases execSpread_cases s with _ | ⟨_, _, e⟩ | _
  case inr.inl => exact e
  all_goals omega

/-- Level none, or no pulses (43_spreading.md R192). -/
theorem execSpread_noRotation (n_max : s.u0 ≤ s.params.nmax) (still : s.u2 = 0 ∨ s.u1 = 0) :
    execSpread s = .next (s.complete .ok) := by
  rcases execSpread_cases s with _ | _ | ⟨_, _, ⟨_, e⟩ | _ | _ | _⟩
  case inr.inr.inl => exact e
  all_goals omega

/-- No blocks (43_spreading.md R190). -/
theorem execSpread_blockCount (n_max : s.u0 ≤ s.params.nmax) (level : s.u2 ≠ 0) (pulses : s.u1 ≠ 0)
    (no_blocks : s.u3 = 0) :
    execSpread s = .next (s.complete .invalidBlockCount) := by
  rcases execSpread_cases s with _ | _ | ⟨_, _, _ | ⟨_, _, _, e⟩ | _ | _⟩
  case inr.inr.inr.inl => exact e
  all_goals omega

/-- Blocks that do not divide the samples (43_spreading.md R190). -/
theorem execSpread_blockDivision (n_max : s.u0 ≤ s.params.nmax) (level : s.u2 ≠ 0) (pulses : s.u1 ≠ 0)
    (blocks : s.u3 ≠ 0)
    (left_over : s.u0 % s.u3 ≠ 0) : execSpread s = .next (s.complete .invalidBlockDivision) := by
  rcases execSpread_cases s with _ | _ | ⟨_, _, _ | _ | ⟨_, _, _, _, e⟩ | _⟩
  case inr.inr.inr.inr.inl => exact e
  all_goals omega

end

/-- Settles O44: each clause's premises leave one outcome. -/
theorem spreadRefusesInItsCheckOrder : Obligations.SpreadRefusesInItsCheckOrder :=
  fun _ => ⟨fun level => if_pos level, execSpread_capacity, execSpread_blockCount, execSpread_blockDivision⟩

/-- Settles O45: the check for a rotation comes before the block count is looked at and before VEC is read. -/
theorem spreadWithoutRotationChangesNothing : Obligations.SpreadWithoutRotationChangesNothing :=
  fun _ => execSpread_noRotation

/-! ### The stride -/

/-- At most one number is the square root of L rounded to nearest (43_spreading.md R198). -/
theorem rounded_root_unique {L a b : Nat} (a_low : a * a - a < L) (a_high : L ≤ a * a + a) (b_low : b * b - b < L)
    (b_high : L ≤ b * b + b) : a = b := by
  have below {x y : Nat} (lt : x < y) : x * x + x ≤ y * y - y := by
    rw [← Nat.mul_sub_one, ← Nat.mul_add_one, Nat.mul_comm]
    exact Nat.mul_le_mul lt (Nat.le_sub_one_of_lt lt)
  rcases lt_trichotomy a b with lt | eq | gt
  · have := below lt
    omega
  · exact eq
  · have := below gt
    omega

/-- The stride is one of the two numbers next to the root, on the right side of the half between them. -/
theorem stride_bounds {L : Nat} (pos : 1 ≤ L) (fits : L < 2 ^ 32) :
    stride L * stride L - stride L < L ∧ L ≤ stride L * stride L + stride L := by
  have low := Nat.sqrt_le L
  have high := Nat.lt_succ_sqrt L
  simp only [Nat.succ_eq_add_one, Nat.add_one_mul, Nat.mul_add_one] at high
  rw [stride, isqrt_eq_sqrt fits]
  split
  case isTrue below =>
    have root_pos : 0 < L.sqrt := Nat.sqrt_pos.2 pos
    omega
  case isFalse above =>
    rw [Nat.add_one_mul, Nat.mul_add_one]
    omega

/-- The stride is at least 1. -/
theorem stride_pos {L : Nat} (pos : 1 ≤ L) (fits : L < 2 ^ 32) : 1 ≤ stride L := by
  obtain ⟨_, high⟩ := stride_bounds pos fits
  refine Nat.one_le_iff_ne_zero.2 fun zero => ?_
  rw [zero] at high
  omega

/-- Settles O49: the bounds, and that they leave one number. -/
theorem strideIsTheRoundedSquareRoot : Obligations.StrideIsTheRoundedSquareRoot := by
  intro L pos fits
  obtain ⟨low, high⟩ := stride_bounds pos fits
  exact ⟨stride_pos pos fits, low, high, fun st _ st_low st_high => rounded_root_unique st_low st_high low high⟩

/-- The stride is half the root of 4L, rounded up: twice it is within 1 of that root. -/
theorem stride_eq_roundedRoot {L : Nat} (pos : 1 ≤ L) (fits : L < 2 ^ 32) : stride L = roundedRoot L := by
  obtain ⟨low, high⟩ := stride_bounds pos fits
  obtain ⟨t, root⟩ : ∃ t, stride L = t + 1 := Nat.exists_eq_add_of_le' (stride_pos pos fits)
  simp only [root, Nat.add_one_mul, Nat.mul_add_one, Nat.add_sub_cancel] at low high
  have ge : 2 * t + 1 ≤ (4 * L).sqrt := Nat.le_sqrt.2 (by linarith)
  have lt : (4 * L).sqrt < 2 * t + 3 := Nat.sqrt_lt.2 (by linarith)
  rw [root, roundedRoot]
  omega

end Sys2Proof.Machine
end

section
/-! ## SPREAD: the rotation on samples (43_spreading.md R195 to R197) -/

namespace Sys2Proof.Machine

open Sys2Proof.Claims

/-! ### The passes over a list are those over a function of the index -/

/-- The samples as a function of their index. -/
def samples (X : List Word) : Nat → Word := fun j => X.getD j 0

/-- Lists of one length agree at an index exactly when their samples do. -/
theorem getElem?_eq_iff_samples {X Y : List Word} (length : X.length = Y.length) (j : Nat) :
    X[j]? = Y[j]? ↔ samples X j = samples Y j := by
  unfold samples
  by_cases hj : j < X.length
  · have hj' : j < Y.length := length ▸ hj
    simp [hj, hj']
  · have hj' : ¬ j < Y.length := length ▸ hj
    simp [hj, hj']

/-- PAIR on two samples of the list (43_spreading.md R195). -/
theorem samples_rotatePair (c s : Word) {a b : Nat} {X : List Word} (ne : a ≠ b) (ha : a < X.length) (hb : b < X.length) :
    samples (rotatePair c s a b X) = pairAt c s a b (samples X) := by
  funext j
  simp only [samples, rotatePair, pairAt, List.getD_eq_getElem?_getD, List.getElem?_set, List.length_set]
  by_cases second : j = b
  · subst second
    simp [ne, hb]
  by_cases first : j = a
  · subst first
    simp [second, ha]
  · simp [first, second, Ne.symm first, Ne.symm second]

/-- Pairs of one list of indices after those of another. -/
theorem rotatePairs_append (c s : Word) (off st : Nat) (is js : List Nat) (X : List Word) :
    rotatePairs c s off st (is ++ js) X = rotatePairs c s off st js (rotatePairs c s off st is X) := by
  induction is generalizing X with
  | nil => rfl
  | cons i rest ih => exact ih _

section
variable (c s : Word) {off st : Nat} (st_pos : 1 ≤ st)
include st_pos

/-- The forward pass (43_spreading.md R195). -/
theorem samples_forward {count : Nat} {X : List Word} (fits : count ≤ X.length - (off + st)) :
    samples (rotatePairs c s off st (List.range count) X) = forwardPass c s off st count (samples X) := by
  induction count with
  | zero => rfl
  | succ i ih =>
    rw [List.range_succ, rotatePairs_append, forwardPass, ← ih (by omega)]
    have length := rotatePairs_length c s off st (List.range i) X
    exact samples_rotatePair c s (by omega) (by omega) (by omega)

/-- The backward pass (43_spreading.md R195). -/
theorem samples_backward {count : Nat} {X : List Word} (fits : count ≤ X.length - (off + st)) :
    samples (rotatePairs c s off st (List.range count).reverse X) = backwardPass c s off st count (samples X) := by
  induction count generalizing X with
  | zero => rfl
  | succ i ih =>
    have pair : samples (rotatePair c s (off + i) (off + i + st) X) = _ :=
      samples_rotatePair c s (by omega) (by omega) (by omega)
    rw [List.range_succ, List.reverse_concat, backwardPass, ← pair]
    exact ih (by rw [rotatePair_length]; omega)

/-- ROT (43_spreading.md R195). -/
theorem samples_rotate {L : Nat} {X : List Word} (fits : off + L ≤ X.length) :
    samples (rotate X off L st c s) = rotPasses c s off L st (samples X) := by
  rw [rotate, rotPasses, samples_backward c s st_pos (by rw [rotatePairs_length]; omega),
    samples_forward c s st_pos (by omega)]

end

/-- A block of the multi-block rotation (43_spreading.md R197). -/
theorem samples_rotateBlock (c s : Word) {off L : Nat} {X : List Word} (fits : off + L ≤ X.length) (short : L < 2 ^ 32) :
    samples (rotateBlock X off L c s) = rotOneBlock c s off L (samples X) := by
  rw [rotateBlock, rotOneBlock]
  split
  case isTrue long =>
    have pos : 1 ≤ L := Nat.le_trans (by decide) long
    rw [samples_rotate c s le_rfl (fits.trans_eq (rotate_length' ..).symm), samples_rotate s c (stride_pos pos short) fits,
      stride_eq_roundedRoot pos short]
  case isFalse => rw [samples_rotate c s le_rfl fits]

/-- The blocks from b on, after those before b (43_spreading.md R197). -/
theorem samples_rotateBlocks (c s : Word) {L count b : Nat} {X : List Word} {Y : Nat → Word} (short : L < 2 ^ 32)
    (fits : (b + count) * L ≤ X.length) (before : samples X = rotBlocks c s L b Y) :
    samples (rotateBlocks L c s count b X) = rotBlocks c s L (b + count) Y := by
  induction count generalizing b X with
  | zero => exact before
  | succ count ih =>
    have block : b * L + L ≤ X.length :=
      (Nat.succ_mul b L).symm.trans_le ((Nat.mul_le_mul_right L (by omega)).trans fits)
    rw [← Nat.add_assoc, Nat.add_right_comm] at fits ⊢
    exact ih (fits.trans_eq (rotateBlock_length ..).symm) (by rw [samples_rotateBlock c s block short, before, rotBlocks])

/-- The rotated samples (43_spreading.md R196, R197). -/
theorem samples_spreadSamples (c s : Word) {N B : Nat} {X : List Word} (length : X.length = N) (short : N < 2 ^ 32) :
    samples (spreadSamples N B c s X) = spreadOf c s N B (samples X) := by
  subst length
  rw [spreadSamples, spreadOf]
  split
  case isTrue => exact samples_rotate c s le_rfl (Nat.zero_add _).le
  case isFalse =>
    have fits : (0 + B) * (X.length / B) ≤ X.length := by rw [Nat.zero_add]; exact Nat.mul_div_le _ _
    have blocks := samples_rotateBlocks c s ((Nat.div_le_self X.length B).trans_lt short) fits rfl
    rwa [Nat.zero_add] at blocks

/-! ### Samples that the passes leave alone, and groups that do not interact -/

/-- PAIR leaves every other sample alone (43_spreading.md R195). -/
theorem pairAt_other (c s : Word) {a b j : Nat} (X : Nat → Word) (first : j ≠ a) (second : j ≠ b) :
    pairAt c s a b X j = X j := by
  rw [pairAt, if_neg second, if_neg first]

section
variable (c s : Word) {off L st : Nat} {X Y : Nat → Word}

/-- What every pair of the block keeps of two runs, ROT keeps: its passes are made of such pairs (43_spreading.md R195). -/
theorem rotPasses_keeps {R : (Nat → Word) → (Nat → Word) → Prop} (holds : R X Y)
    (pair : ∀ i, i < L - st → ∀ Z W, R Z W →
      R (pairAt c s (off + i) (off + i + st) Z) (pairAt c s (off + i) (off + i + st) W)) :
    R (rotPasses c s off L st X) (rotPasses c s off L st Y) := by
  have forward (count : Nat) (fits : count ≤ L - st) :
      R (forwardPass c s off st count X) (forwardPass c s off st count Y) := by
    induction count with
    | zero => exact holds
    | succ i ih => exact pair i fits _ _ (ih (Nat.le_of_succ_le fits))
  have backward (count : Nat) (fits : count ≤ L - st) {Z W : Nat → Word} (holds : R Z W) :
      R (backwardPass c s off st count Z) (backwardPass c s off st count W) := by
    induction count generalizing Z W with
    | zero => exact holds
    | succ i ih => exact ih (Nat.le_of_succ_le fits) (pair i fits _ _ holds)
  exact backward _ (by omega) (forward _ le_rfl)

/-- ROT leaves the samples outside its block alone (43_spreading.md R195). -/
theorem rotPasses_outside {j : Nat} (outside : j < off ∨ off + L ≤ j) : rotPasses c s off L st X j = X j :=
  rotPasses_keeps c s (R := fun Z _ => Z j = X j) (Y := X) rfl fun _ _ Z _ kept =>
    (pairAt_other c s Z (by omega) (by omega)).trans kept

/-- X and Y agree on the samples of the block whose index is r modulo the stride: the strided group of r. -/
def GroupAgrees (off L st r : Nat) (X Y : Nat → Word) : Prop := ∀ i, i < L → i % st = r → X (off + i) = Y (off + i)

/-- A pair lies in the group or outside it (43_spreading.md R197). -/
theorem GroupAgrees.pairAt {r i : Nat} (fits : i < L - st) (agrees : GroupAgrees off L st r X Y) :
    GroupAgrees off L st r (pairAt c s (off + i) (off + i + st) X) (pairAt c s (off + i) (off + i + st) Y) := by
  intro j hj group
  by_cases member : j = i ∨ j = i + st
  · have same_group : (i + st) % st = i % st := Nat.add_mod_right i st
    have in_group : i % st = r := by rcases member with rfl | rfl <;> omega
    have first := agrees i (by omega) in_group
    have second := agrees (i + st) (by omega) (same_group.trans in_group)
    rw [← Nat.add_assoc] at second
    rw [Claims.pairAt, Claims.pairAt, first, second, agrees j hj group]
  · rw [pairAt_other c s X (by omega) (by omega), pairAt_other c s Y (by omega) (by omega)]
    exact agrees j hj group

/-- ROT on a strided group depends on that group alone (43_spreading.md R197). -/
theorem GroupAgrees.rotPasses {r : Nat} (agrees : GroupAgrees off L st r X Y) :
    GroupAgrees off L st r (rotPasses c s off L st X) (rotPasses c s off L st Y) :=
  rotPasses_keeps c s agrees fun _ fits _ _ => GroupAgrees.pairAt c s fits

end

/-- Settles O50: each pair lies in the block, and in one strided group. -/
theorem rotationGroupsDoNotInteract : Obligations.RotationGroupsDoNotInteract := by
  intro X Y off L st r c s st_pos length fits
  have rotated_length : (rotate X off L st c s).length = (rotate Y off L st c s).length := by simp [length]
  refine ⟨rotate_length' .., fun j outside => ?_, fun agrees i hi group => ?_⟩
  · rw [getElem?_eq_iff_samples (rotate_length' ..), samples_rotate c s st_pos fits]
    exact rotPasses_outside c s outside
  · have agree : GroupAgrees off L st r (samples X) (samples Y) := fun i hi group =>
      (getElem?_eq_iff_samples length _).1 (agrees i hi group)
    rw [getElem?_eq_iff_samples rotated_length, samples_rotate c s st_pos fits, samples_rotate c s st_pos (length ▸ fits)]
    exact agree.rotPasses c s i hi group

end Sys2Proof.Machine
end

section
/-! ## SPREAD past its checks (43_spreading.md R190, R191, R193, R194, R200) -/

namespace Sys2Proof.Machine

open Sys2Proof.Claims

/-- The angle, the factors being those of R191. -/
theorem spreadTheta_eq_rotationAngle (N K lvl : Nat) : spreadTheta N K lvl = rotationAngle N K lvl := by
  have factor : spreadFactor lvl = levelFactor lvl := by
    match lvl with
    | 0 | 1 | 2 => rfl
    | lvl + 3 => simp [spreadFactor, levelFactor]
  rw [spreadTheta, factor]
  rfl

/-- A NaN or an infinity is a word whose exponent field is all ones (43_spreading.md R193). -/
theorem floatNonFinite_iff {w : Word} : floatNonFinite w = true ↔ (w.extractLsb' 23 8).toNat = 255 := beq_iff_eq

section
variable {s : State} {N : Nat}

/-- VEC[0..N-1] as it is read, where every word holds a value. -/
theorem State.vecWords_eq {X : List Word} (length : X.length = N) (holds : ∀ j, j < N → s.vec j = some (X.getD j 0)) :
    s.vecWords N = X := by
  refine List.ext_getElem ((s.vecWords_length N).trans length.symm) fun j hj hj' => ?_
  simp only [State.vecWords, List.getElem_map, List.getElem_range, holds j (length ▸ hj'), Option.getD_some]
  exact List.getD_eq_getElem _ _ hj'

/-- Reading words that all hold a value changes nothing (10_state.md R35). -/
theorem State.afterVecRead_of_holds (holds : ∀ j, j < N → (s.vec j).isSome) : s.afterVecRead N = s := by
  rcases s.afterVecRead_cases N with ⟨missing, _⟩ | ⟨_, e⟩
  · obtain ⟨j, hj, unwritten⟩ := (s.vecMissing_iff N).1 missing
    have held := holds j hj
    rw [unwritten] at held
    cases held
  · exact e

/-- Over finite samples the rotated ones are written (43_spreading.md R200). -/
theorem spreadRun_finite {X : List Word} (length : X.length = N) (holds : ∀ j, j < N → s.vec j = some (X.getD j 0))
    (finite : ∀ j, j < N → ((X.getD j 0).extractLsb' 23 8).toNat ≠ 255) (K lvl B : Nat) :
    spreadRun s N K lvl B = (s.setVecFrom0 (spreadSamples N B (Config.cs (rotationAngle N K lvl)).1
      (Config.cs (rotationAngle N K lvl)).2 X)).complete .ok := by
  have unfaulted : s.afterVecRead N = s := State.afterVecRead_of_holds fun j hj => Option.isSome_of_eq_some (holds j hj)
  have read := State.vecWords_eq length holds
  rcases spreadRun_cases s N K lvl B with ⟨non_finite, _⟩ | ⟨_, e⟩
  · rw [read] at non_finite
    obtain ⟨v, member, bad⟩ := List.any_eq_true.1 non_finite
    obtain ⟨j, hj, rfl⟩ := List.getElem_of_mem member
    refine absurd (floatNonFinite_iff.1 bad) ?_
    rw [← List.getD_eq_getElem X 0 hj]
    exact finite j (length ▸ hj)
  · rwa [unfaulted, read, spreadTheta_eq_rotationAngle] at e

/-- Over a NaN or an infinity the words written are drawn (43_spreading.md R193; log 23). -/
theorem spreadRun_nonFinite (holds : ∀ j, j < N → (s.vec j).isSome) {j : Nat} {v : Word} (hj : j < N)
    (value : s.vec j = some v) (non_finite : (v.extractLsb' 23 8).toNat = 255) (K lvl B : Nat) :
    spreadRun s N K lvl B = ((s.setVecFrom0 (s.freeWords N)).drawn).complete .ok := by
  have read : v ∈ s.vecWords N := List.mem_map.2 ⟨j, List.mem_range.2 hj, by rw [value]; rfl⟩
  rcases spreadRun_cases s N K lvl B with ⟨_, e⟩ | ⟨all_finite, _⟩
  · rwa [State.afterVecRead_of_holds holds] at e
  · exact absurd (floatNonFinite_iff.2 non_finite) (List.any_eq_false.1 all_finite v read)

end

/-- Settles O46: past the checks the samples read are rotated, written back, and the command completes. -/
theorem spreadRotatesTheSamples : Obligations.SpreadRotatesTheSamples := by
  refine ⟨decode_encode .spread, fun s X canonical level_pos level_max n_max k_pos b_pos divides length samples_read => ?_⟩
  have runs : exec .spread s = .next (spreadRun s s.u0 s.u1 s.u2 s.u3) :=
    execSpread_runs level_pos level_max n_max k_pos b_pos divides
  rw [spreadRun_finite (N := s.u0) length (fun j hj => (samples_read j hj).1) fun j hj => (samples_read j hj).2] at runs
  obtain ⟨inside, beyond, outside⟩ := State.vec_of_written canonical ((spreadSamples_length ..).trans length) rfl
  refine ⟨_, _, _, rfl, runs, rfl, fun j hj => (inside j hj).trans (congrArg some ?_), beyond, outside⟩
  exact congrFun (samples_spreadSamples _ _ length s.l0.isLt) j

/-- Settles O47: past the checks N drawn words are written, and the command completes. -/
theorem spreadOfNonFiniteSamplesCompletes : Obligations.SpreadOfNonFiniteSamplesCompletes := by
  rintro s canonical level_pos level_max n_max k_pos b_pos divides holds ⟨j, v, hj, value, non_finite⟩
  have runs : exec .spread s = .next (spreadRun s s.u0 s.u1 s.u2 s.u3) :=
    execSpread_runs level_pos level_max n_max k_pos b_pos divides
  rw [spreadRun_nonFinite (N := s.u0) holds hj value non_finite] at runs
  obtain ⟨inside, beyond, outside⟩ := State.vec_of_written canonical (s.freeWords_length s.u0) rfl
  exact ⟨_, runs, rfl, fun j hj => Option.isSome_of_eq_some (inside j hj), beyond, outside⟩

end Sys2Proof.Machine
end

section
/-! ## binary32: patterns and the one rounding (43_spreading.md R193, 20_memory.md R55) -/

namespace Sys2Proof.Machine

open Sys2Proof.Claims

/-! ### Magnitudes -/

/-- The magnitude of a unit. -/
theorem magnitude_one (e : Int) : magnitude 1 e = 2 ^ e := by simp [magnitude]

/-- A power of two moves between significand and exponent. -/
theorem magnitude_mul_pow (m k : Nat) (e : Int) : magnitude (m * 2 ^ k) e = magnitude m (e + k) := by
  rw [magnitude, magnitude, zpow_add₀ two_ne_zero, zpow_natCast]
  push_cast
  ring

/-- The magnitude of a power of two. -/
theorem magnitude_pow (k : Nat) (e : Int) : magnitude (2 ^ k) e = 2 ^ (e + k) := by
  rw [← one_mul (2 ^ k), magnitude_mul_pow, magnitude_one]

/-- At one exponent magnitudes are ordered as their significands. -/
theorem magnitude_lt_iff {m n : Nat} {e : Int} : magnitude m e < magnitude n e ↔ m < n := by
  rw [magnitude, magnitude, mul_lt_mul_iff_left₀ (zpow_pos two_pos e), Nat.cast_lt]

/-- At one exponent magnitudes are ordered as their significands. -/
theorem magnitude_le_iff {m n : Nat} {e : Int} : magnitude m e ≤ magnitude n e ↔ m ≤ n := by
  rw [← not_lt, magnitude_lt_iff, Nat.not_lt]

/-- Half a unit is not enough to lift a significand past the next. -/
theorem le_of_magnitude_le {m n : Nat} {e : Int} (h : magnitude m e ≤ magnitude n e + magnitude 1 e / 2) : m ≤ n := by
  have unit : 0 < magnitude 1 e := magnitude_one e ▸ zpow_pos two_pos e
  have next : magnitude (n + 1) e = magnitude n e + magnitude 1 e := by
    simp only [magnitude]
    push_cast
    ring
  rw [← Nat.lt_succ_iff, ← magnitude_lt_iff (e := e), Nat.succ_eq_add_one, next]
  linarith

/-- The magnitudes below the first that binary32 does not reach (20_memory.md R55). -/
theorem magnitude_lt_limit {m : Nat} {q : Int} (significand : m < 2 ^ 24) (expo : q ≤ 104) :
    magnitude m q < magnitude 1 128 := by
  have below : magnitude m q < magnitude (2 ^ 24) q := magnitude_lt_iff.2 significand
  rw [magnitude_pow] at below
  rw [magnitude_one]
  exact below.trans_le (zpow_le_zpow_right₀ one_le_two (by push_cast; omega))

/-- The magnitudes from the first that binary32 does not reach (20_memory.md R55). -/
theorem limit_le_magnitude {m : Nat} {q : Int} (significand : 2 ^ 23 ≤ m) (expo : 105 ≤ q) :
    magnitude 1 128 ≤ magnitude m q := by
  have above : magnitude (2 ^ 23) q ≤ magnitude m q := magnitude_le_iff.2 significand
  rw [magnitude_pow] at above
  rw [magnitude_one]
  exact (zpow_le_zpow_right₀ one_le_two (by push_cast; omega)).trans above

/-! ### Patterns -/

/-- The three fields of a pattern (20_memory.md R55). -/
theorem floatPack_fields (neg : Bool) (expo frac : Nat) :
    (floatPack neg expo frac).msb = neg ∧ floatExpo (floatPack neg expo frac) = expo % 2 ^ 8 ∧
    floatFrac (floatPack neg expo frac) = frac % 2 ^ 23 := by
  refine ⟨?_, ?_, ?_⟩
  · have upper : (BitVec.ofBool neg ++ BitVec.ofNat 8 expo).msb = neg := BitVec.msb_append.trans (by simp)
    exact BitVec.msb_append.trans upper
  · have upper : (BitVec.ofBool neg ++ BitVec.ofNat 8 expo).extractLsb' 0 8 = BitVec.ofNat 8 expo :=
      BitVec.extractLsb'_append_eq_right
    exact congrArg BitVec.toNat ((BitVec.extractLsb'_append_eq_of_le (Nat.le_refl 23)).trans upper)
  · have lower : (floatPack neg expo frac).extractLsb' 0 23 = BitVec.ofNat 23 frac := BitVec.extractLsb'_append_eq_right
    exact congrArg BitVec.toNat lower

/-- The pattern of a number below the normal ones (20_memory.md R55). -/
theorem floatVal_subnormal (neg : Bool) {frac : Nat} (fits : frac < 2 ^ 23) :
    floatVal (floatPack neg 0 frac) = .fin neg frac (-149) := by
  obtain ⟨sign, expo, fraction⟩ := floatPack_fields neg 0 frac
  rw [Nat.mod_eq_of_lt fits] at fraction
  rw [floatVal, sign, expo, fraction]
  rfl

/-- The pattern of a normal number (20_memory.md R55). -/
theorem floatVal_normal (neg : Bool) {e frac : Nat} (pos : e ≠ 0) (below : e < 255) (fits : frac < 2 ^ 23) :
    floatVal (floatPack neg e frac) = .fin neg (frac + 2 ^ 23) (e - 150) := by
  obtain ⟨sign, expo, fraction⟩ := floatPack_fields neg e frac
  rw [Nat.mod_eq_of_lt fits] at fraction
  rw [Nat.mod_eq_of_lt (by omega)] at expo
  rw [floatVal, sign, expo, fraction, if_neg below.ne, if_neg pos]

/-- The pattern of an infinity (20_memory.md R55). -/
theorem floatVal_infinity (neg : Bool) : floatVal (floatPack neg 255 0) = .inf neg := by
  cases neg <;> decide

/-- The significand of a finite number has 24 bits (20_memory.md R55). -/
theorem significand_lt {w : Word} {neg : Bool} {m : Nat} {e : Int} (finite : floatVal w = .fin neg m e) : m < 2 ^ 24 := by
  have frac : floatFrac w < 2 ^ 23 := BitVec.isLt _
  unfold floatVal at finite
  split at finite
  case isTrue => split at finite <;> cases finite
  case isFalse => split at finite <;> cases finite <;> omega

/-- The pattern `w` stands for the magnitude with the sign, or for the infinity if binary32 does not reach it. -/
def Encodes (neg : Bool) (x : Rat) (w : Word) : Prop :=
  (x < magnitude 1 128 → ∃ m e, floatVal w = .fin neg m e ∧ magnitude m e = x) ∧
  (magnitude 1 128 ≤ x → floatVal w = .inf neg)

/-- A rounded significand of 24 bits, at its unit. -/
theorem encodes_of_lt (neg : Bool) {m : Nat} {q : Int} (unit : -149 ≤ q) (normal : -149 < q → 2 ^ 23 ≤ m)
    (fits : m < 2 ^ 24) : Encodes neg (magnitude m q) (floatOfRounded neg m q) := by
  simp only [floatOfRounded, if_neg fits.ne]
  split
  case isTrue small =>
    obtain rfl : q = -149 := by omega
    exact ⟨fun _ => ⟨m, -149, floatVal_subnormal neg small, rfl⟩,
      fun large => absurd (magnitude_lt_limit fits (by decide)) large.not_gt⟩
  case isFalse large =>
    split
    case isTrue huge => exact ⟨fun below => absurd (limit_le_magnitude (Nat.le_of_not_lt large) huge) below.not_ge,
      fun _ => floatVal_infinity neg⟩
    case isFalse within =>
      have value := floatVal_normal neg (e := (q + 150).toNat) (frac := m - 2 ^ 23) (by omega) (by omega) (by omega)
      rw [Nat.sub_add_cancel (Nat.le_of_not_lt large), Int.toNat_of_nonneg (by omega), Int.add_sub_cancel] at value
      exact ⟨fun _ => ⟨m, q, value, rfl⟩, fun above => absurd (magnitude_lt_limit fits (by omega)) above.not_gt⟩

/-- A rounded significand, at its unit; 2^24 is 2^23 at twice the unit. -/
theorem encodes_floatOfRounded (neg : Bool) {m : Nat} {q : Int} (unit : -149 ≤ q) (normal : -149 < q → 2 ^ 23 ≤ m)
    (fits : m ≤ 2 ^ 24) : Encodes neg (magnitude m q) (floatOfRounded neg m q) := by
  rcases fits.lt_or_eq with lt | rfl
  · exact encodes_of_lt neg unit normal lt
  · have carry : magnitude (2 ^ 24) q = magnitude (2 ^ 23) (q + 1) := by
      rw [magnitude_pow, magnitude_pow, add_assoc]
      rfl
    rw [carry]
    exact encodes_of_lt neg (m := 2 ^ 23) (by omega) (fun _ => le_rfl) (by decide)

/-! ### The nearest multiple of a unit -/

/-- r units `u` are nearest to x, and r is even in a tie. -/
def NearestEven (r : Nat) (u x : Rat) : Prop := |r * u - x| ≤ u / 2 ∧ (|r * u - x| = u / 2 → r % 2 = 0)

/-- A multiple of the unit is nearest to itself. -/
theorem nearestEven_self (r : Nat) {u : Rat} (pos : 0 < u) : NearestEven r u (r * u) := by
  rw [NearestEven, sub_self, abs_zero]
  exact ⟨(half_pos pos).le, fun tie => absurd tie (half_pos pos).ne⟩

/-- Nearest stays nearest at another scale. -/
theorem NearestEven.mul {r : Nat} {u x v : Rat} (near : NearestEven r u x) (pos : 0 < v) :
    NearestEven r (u * v) (x * v) := by
  obtain ⟨le, tie⟩ := near
  have scaled : |r * (u * v) - x * v| = |r * u - x| * v := by
    rw [← abs_of_pos pos, ← abs_mul, abs_of_pos pos]
    ring_nf
  rw [NearestEven, scaled, mul_div_right_comm]
  exact ⟨mul_le_mul_of_nonneg_right le pos.le, fun eq => tie (mul_right_cancel₀ pos.ne' eq)⟩

/-- The two ways to drop k bits: with r of them dropped, up past the half and down below it, in a tie as the sticky bit or
the last bit kept says (43_spreading.md R193). -/
theorem roundShift_cases (m k : Nat) (sticky : Bool) : ∃ q r, m = q * 2 ^ k + r ∧ r < 2 ^ k ∧
    ((roundShift m k sticky = q + 1 ∧ 2 ^ k ≤ 2 * r ∧ (2 * r = 2 ^ k → sticky = true ∨ q % 2 = 1)) ∨
     (roundShift m k sticky = q ∧ 2 * r ≤ 2 ^ k ∧ (2 * r = 2 ^ k → sticky = false ∧ q % 2 = 0))) := by
  refine ⟨m / 2 ^ k, m % 2 ^ k, (Nat.div_add_mod' m (2 ^ k)).symm, Nat.mod_lt m (Nat.two_pow_pos k), ?_⟩
  cases k with
  | zero => simp [roundShift, Nat.mod_one]
  | succ k =>
    have twice : 2 ^ (k + 1) = 2 * 2 ^ k := Nat.pow_succ'
    simp only [roundShift, Nat.shiftRight_eq_div_pow, Nat.add_sub_cancel, if_neg (Nat.succ_ne_zero k)]
    generalize m / 2 ^ (k + 1) = q, m % 2 ^ (k + 1) = r
    rw [twice]
    split
    case isTrue up => exact .inl ⟨rfl, by omega, fun tie => (up.resolve_left (by omega)).2⟩
    case isFalse down =>
      obtain ⟨below, no_tie⟩ := not_or.1 down
      refine .inr ⟨rfl, by omega, fun tie => ?_⟩
      obtain ⟨exact, even⟩ := not_or.1 fun up => no_tie ⟨by omega, up⟩
      exact ⟨Bool.eq_false_iff.2 exact, by omega⟩

/-- Dropping k bits of an exact significand errs by at most half a unit, and by half only towards an even result. -/
theorem roundShift_exact (m k : Nat) :
    2 * (((roundShift m k false) * 2 ^ k : Nat) - (m : Int)).natAbs ≤ 2 ^ k ∧
    (2 * (((roundShift m k false) * 2 ^ k : Nat) - (m : Int)).natAbs = 2 ^ k → roundShift m k false % 2 = 0) := by
  obtain ⟨q, r, split, below, ⟨up, past, tie⟩ | ⟨down, past, tie⟩⟩ := roundShift_cases m k false
  · rw [up, Nat.add_one_mul q]
    simp only [Bool.false_eq_true, false_or] at tie
    omega
  · rw [down]
    omega

/-- Dropping k bits of a significand between m and m + 1 errs by less than half a unit. -/
theorem roundShift_sticky {m k : Nat} {x : Rat} (some_bits : 1 ≤ k) (low : (m : Rat) < x) (high : x < (m : Rat) + 1) :
    2 * |((roundShift m k true * 2 ^ k : Nat) : Rat) - x| < 2 ^ k := by
  have bounds : 2 * (m + 1) ≤ 2 * (roundShift m k true * 2 ^ k) + 2 ^ k ∧
      2 * (roundShift m k true * 2 ^ k) ≤ 2 * m + 2 ^ k := by
    have even : 2 ∣ 2 ^ k := dvd_pow_self 2 (Nat.one_le_iff_ne_zero.1 some_bits)
    obtain ⟨q, r, split, below, ⟨up, past, tie⟩ | ⟨down, past, tie⟩⟩ := roundShift_cases m k true
    · rw [up, Nat.add_one_mul q]
      omega
    · simp only [Bool.true_eq_false, false_and, imp_false] at tie
      rw [down]
      omega
  obtain ⟨lower, upper⟩ := bounds
  have lower' : (2 * (m + 1) : Rat) ≤ 2 * (roundShift m k true * 2 ^ k : Nat) + 2 ^ k := by exact_mod_cast lower
  have upper' : (2 * (roundShift m k true * 2 ^ k : Nat) : Rat) ≤ 2 * m + 2 ^ k := by exact_mod_cast upper
  rw [← lt_div_iff₀' two_pos, abs_lt]
  constructor <;> linarith

/-- Dropping bits of a significand gives the nearest one (43_spreading.md R193). -/
theorem nearestEven_roundShift (m k : Nat) : NearestEven (roundShift m k false) (2 ^ k) m := by
  obtain ⟨le, tie⟩ := roundShift_exact m k
  have distance : |(roundShift m k false : Rat) * 2 ^ k - m| =
      ((((roundShift m k false) * 2 ^ k : Nat) - (m : Int)).natAbs : Rat) := by
    rw [Nat.cast_natAbs]
    push_cast
    rfl
  rw [NearestEven, distance, le_div_iff₀' two_pos, eq_div_iff_mul_eq two_ne_zero, mul_comm _ (2 : Rat)]
  exact ⟨by exact_mod_cast le, fun eq => tie (by exact_mod_cast eq)⟩

/-- Dropping bits of a significand with the sticky bit gives the nearest one (43_spreading.md R193). -/
theorem nearestEven_roundShift_sticky {m k : Nat} {x : Rat} (some_bits : 1 ≤ k) (low : (m : Rat) < x)
    (high : x < (m : Rat) + 1) : NearestEven (roundShift m k true) (2 ^ k) x := by
  have near := roundShift_sticky some_bits low high
  push_cast at near
  rw [← lt_div_iff₀' two_pos] at near
  exact ⟨near.le, fun tie => absurd tie near.ne⟩

/-! ### The rounding -/

/-- A significand nearest to x at the unit that binary32 has for x, put into a pattern. -/
theorem roundsTo_floatOfRounded (neg : Bool) {r : Nat} {q : Int} {x : Rat} (unit : -149 ≤ q)
    (low : -149 < q → magnitude (2 ^ 23) q ≤ x) (high : x < magnitude (2 ^ 24) q) (near : NearestEven r (2 ^ q) x) :
    roundsTo neg x (floatOfRounded neg r q) := by
  obtain ⟨le, tie⟩ := near
  change |magnitude r q - x| ≤ _ at le
  rw [← magnitude_one] at le
  obtain ⟨below, above⟩ := abs_sub_le_iff.1 le
  rw [sub_le_iff_le_add'] at below above
  have fits : r ≤ 2 ^ 24 := le_of_magnitude_le (below.trans (add_le_add high.le le_rfl))
  have normal (above_least : -149 < q) : 2 ^ 23 ≤ r := le_of_magnitude_le ((low above_least).trans above)
  exact ⟨q, r, unit, low, high, le, magnitude_one q ▸ tie, encodes_floatOfRounded neg unit normal fits⟩

/-- The exponent of the unit that `floatRound` takes: 24 significant bits, but not below 2^-149 (43_spreading.md R193). -/
def unitExpo (m : Nat) (e : Int) : Int := max (e + (m.log2 : Int) - 23) (-149)

/-- The unit is not too large, but where underflow is gradual. -/
theorem magnitude_unitExpo_le {m : Nat} {e : Int} {y : Rat} (nonzero : m ≠ 0) (low : (m : Rat) ≤ y)
    (above_least : -149 < unitExpo m e) : magnitude (2 ^ 23) (unitExpo m e) ≤ y * 2 ^ e := by
  have top : ((2 ^ m.log2 : Nat) : Rat) ≤ m := Nat.cast_le.2 (Nat.log2_self_le nonzero)
  have unit : unitExpo m e + (23 : Nat) = e + m.log2 := by
    unfold unitExpo at above_least ⊢
    omega
  calc magnitude (2 ^ 23) (unitExpo m e) = magnitude (2 ^ m.log2) e := by rw [magnitude_pow, magnitude_pow, unit]
    _ ≤ y * 2 ^ e := mul_le_mul_of_nonneg_right (top.trans low) (zpow_pos two_pos e).le

/-- The unit is not too small. -/
theorem lt_magnitude_unitExpo {m : Nat} {e : Int} {y : Rat} (high : y < (m : Rat) + 1) :
    y * 2 ^ e < magnitude (2 ^ 24) (unitExpo m e) := by
  have top : (m : Rat) + 1 ≤ (2 ^ (m.log2 + 1) : Nat) := by exact_mod_cast Nat.lt_log2_self
  calc y * 2 ^ e < magnitude (2 ^ (m.log2 + 1)) e := mul_lt_mul_of_pos_right (high.trans_le top) (zpow_pos two_pos e)
    _ = 2 ^ (e + (m.log2 + 1 : Nat)) := magnitude_pow _ _
    _ ≤ 2 ^ (unitExpo m e + (24 : Nat)) := zpow_le_zpow_right₀ one_le_two (by unfold unitExpo; omega)
    _ = magnitude (2 ^ 24) (unitExpo m e) := (magnitude_pow _ _).symm

/-- With 24 significant bits or more, bits are dropped. -/
theorem lt_unitExpo_of_long {m : Nat} (e : Int) (long : 2 ^ 24 ≤ m) : e < unitExpo m e := by
  have := (Nat.le_log2 (by omega)).2 long
  unfold unitExpo
  omega

/-- The rounding of a significand y of which m is the whole part: bits are dropped from it, or y is m and it is exact. -/
theorem roundsTo_floatRound_of_near {m : Nat} {e : Int} {y : Rat} (neg sticky : Bool) (nonzero : m ≠ 0)
    (low : (m : Rat) ≤ y) (high : y < (m : Rat) + 1) (exact_or_long : y = m ∨ 2 ^ 24 ≤ m)
    (near : ∀ k, 1 ≤ k → NearestEven (roundShift m k sticky) (2 ^ k) y) :
    roundsTo neg (y * 2 ^ e) (floatRound neg m e sticky) := by
  have unit : -149 ≤ unitExpo m e := le_max_right _ _
  have rounds (r : Nat) := roundsTo_floatOfRounded neg (r := r) unit (magnitude_unitExpo_le nonzero low)
    (lt_magnitude_unitExpo high)
  rw [floatRound, if_neg nonzero]
  change roundsTo neg _ (if unitExpo m e ≤ e then _ else _)
  split
  case isTrue fine =>
    have short : ¬ 2 ^ 24 ≤ m := fun long => (lt_unitExpo_of_long e long).not_ge fine
    have shifted : y * 2 ^ e = (m <<< (e - unitExpo m e).toNat : Nat) * 2 ^ unitExpo m e := by
      rw [exact_or_long.resolve_right short, Nat.shiftLeft_eq]
      refine Eq.trans ?_ (magnitude_mul_pow m _ _).symm
      rw [magnitude, Int.toNat_of_nonneg (by omega), add_sub_cancel]
    rw [shifted] at rounds ⊢
    exact rounds _ (nearestEven_self _ (zpow_pos two_pos _))
  case isFalse coarse =>
    have scale : (2 : Rat) ^ unitExpo m e = 2 ^ (unitExpo m e - e).toNat * 2 ^ e := by
      rw [← zpow_natCast, ← zpow_add₀ two_ne_zero, Int.toNat_of_nonneg (by omega), sub_add_cancel]
    refine rounds _ ?_
    rw [scale]
    exact (near (unitExpo m e - e).toNat (by omega)).mul (zpow_pos two_pos e)

/-- An exact magnitude is rounded once (43_spreading.md R193). -/
theorem roundsTo_floatRound (neg : Bool) (m : Nat) (e : Int) : roundsTo neg (magnitude m e) (floatRound neg m e false) := by
  by_cases zero : m = 0
  · subst zero
    have nothing : magnitude 0 e = magnitude 0 (-149) := by simp [magnitude]
    have pattern : floatRound neg 0 e false = floatOfRounded neg 0 (-149) := by simp [floatRound, floatOfRounded]
    rw [nothing, pattern]
    exact roundsTo_floatOfRounded neg le_rfl (absurd · (lt_irrefl _)) (magnitude_lt_iff.2 (by decide))
      (nearestEven_self 0 (zpow_pos two_pos _))
  · exact roundsTo_floatRound_of_near neg false zero le_rfl (lt_add_one _) (.inl rfl) fun k _ => nearestEven_roundShift m k

/-- A magnitude between two that are known to 24 bits or more is rounded once (43_spreading.md R193). -/
theorem roundsTo_floatRound_sticky (neg : Bool) {m : Nat} (e : Int) {x : Rat} (long : 2 ^ 24 ≤ m) (low : (m : Rat) < x)
    (high : x < (m : Rat) + 1) : roundsTo neg (x * 2 ^ e) (floatRound neg m e true) :=
  roundsTo_floatRound_of_near neg true (Nat.ne_of_gt (lt_of_lt_of_le (by decide) long)) low.le high (.inr long)
    fun _ some_bits => nearestEven_roundShift_sticky some_bits low high

/-- Settles O52: the bits dropped, with and without the sticky bit, and the whole rounding. -/
theorem roundingIsToNearestEven : Obligations.RoundingIsToNearestEven :=
  ⟨roundShift_exact, fun _ _ _ => roundShift_sticky, roundsTo_floatRound,
    fun neg _ e _ => roundsTo_floatRound_sticky neg e⟩

/-- A magnitude that binary32 has is rounded to itself (43_spreading.md R193). -/
theorem exact_of_roundsTo {neg : Bool} {m : Nat} {e : Int} {w : Word} (rounds : roundsTo neg (magnitude m e) w)
    (significand : m < 2 ^ 24) (low : -149 ≤ e) (high : e ≤ 104) :
    ∃ m' e', floatVal w = .fin neg m' e' ∧ magnitude m' e' = magnitude m e := by
  obtain ⟨q, r, -, normal, -, near, -, finite, -⟩ := rounds
  have fine : q ≤ e := by
    by_contra coarse
    have bounds : magnitude (2 ^ 23) q < magnitude (2 ^ 24) e :=
      (normal (by omega)).trans_lt (magnitude_lt_iff.2 significand)
    rw [magnitude_pow, magnitude_pow, zpow_lt_zpow_iff_right₀ one_lt_two] at bounds
    push_cast at bounds
    omega
  have multiple : magnitude m e = magnitude (m * 2 ^ (e - q).toNat) q := by
    rw [magnitude_mul_pow, Int.toNat_of_nonneg (by omega), add_sub_cancel]
  have self : magnitude r q = magnitude m e := by
    rw [multiple] at near ⊢
    obtain ⟨below, above⟩ := abs_sub_le_iff.1 near
    rw [sub_le_iff_le_add'] at below above
    rw [(le_of_magnitude_le below).antisymm (le_of_magnitude_le above)]
  rw [← self]
  exact finite (self ▸ magnitude_lt_limit significand high)

/-- Settles O51: n is a significand of 24 bits, or 2^23 twice. -/
theorem integerConversionIsExactUpTo2Pow24 : Obligations.IntegerConversionIsExactUpTo2Pow24 := by
  intro n bound
  have value : magnitude n 0 = n := by simp [magnitude]
  have rounds := roundsTo_floatRound false n 0
  rw [← value]
  rcases bound.lt_or_eq with lt | rfl
  · exact exact_of_roundsTo rounds lt (by decide) (by decide)
  · have carry : magnitude (2 ^ 24) 0 = magnitude (2 ^ 23) 1 := by
      rw [magnitude_pow, magnitude_pow]
      rfl
    rw [carry] at rounds ⊢
    exact exact_of_roundsTo rounds (by decide) (by decide) (by decide)

end Sys2Proof.Machine
end

section
/-! ## binary32: the operations (43_spreading.md R193) -/

namespace Sys2Proof.Machine

open Sys2Proof.Claims

/-- The exact product. -/
theorem magnitude_mul (m1 m2 : Nat) (e1 e2 : Int) : magnitude m1 e1 * magnitude m2 e2 = magnitude (m1 * m2) (e1 + e2) := by
  rw [magnitude, magnitude, magnitude, zpow_add₀ two_ne_zero, Nat.cast_mul, mul_mul_mul_comm]

/-- The exact quotient, with 60 more bits of the significand. -/
theorem magnitude_div (m1 m2 : Nat) (e1 e2 : Int) :
    magnitude m1 e1 / magnitude m2 e2 = ((m1 <<< 60 : Nat) / m2 : Rat) * 2 ^ (e1 - e2 - 60) := by
  have scaled : magnitude m1 e1 = magnitude (m1 <<< 60) (e1 - 60) := by
    rw [Nat.shiftLeft_eq, magnitude_mul_pow]
    exact congrArg _ (sub_add_cancel e1 60).symm
  rw [scaled, magnitude, magnitude, sub_right_comm, zpow_sub₀ two_ne_zero (e1 - 60), mul_div_mul_comm]

/-- The quotient rounded: the sticky bit is the remainder. -/
theorem roundsTo_floatQuotient (nan : Word) (n1 n2 : Bool) {m1 m2 : Nat} (e1 e2 : Int) (nonzero : m2 ≠ 0)
    (fits : m2 < 2 ^ 24) :
    roundsTo (n1 != n2) (magnitude m1 e1 / magnitude m2 e2) (floatQuotient nan (.fin n1 m1 e1) (.fin n2 m2 e2)) := by
  rw [magnitude_div, floatQuotient, if_neg nonzero]
  have pos : (0 : Rat) < m2 := Nat.cast_pos.2 (Nat.pos_of_ne_zero nonzero)
  by_cases whole : (m1 <<< 60) % m2 = 0
  · have quotient : ((m1 <<< 60 : Nat) / m2 : Rat) = ((m1 <<< 60 / m2 : Nat) : Rat) :=
      (Nat.cast_div (Nat.dvd_of_mod_eq_zero whole) pos.ne').symm
    rw [quotient, decide_eq_false (not_not.2 whole)]
    exact roundsTo_floatRound _ _ _
  · have split := Nat.div_add_mod' (m1 <<< 60) m2
    have below := Nat.mod_lt (m1 <<< 60) (Nat.pos_of_ne_zero nonzero)
    have long : 2 ^ 24 ≤ m1 <<< 60 / m2 := by
      have some_bits : m1 ≠ 0 := fun zero => whole (by simp [zero])
      rw [Nat.le_div_iff_mul_le (Nat.pos_of_ne_zero nonzero), Nat.shiftLeft_eq]
      omega
    have low : ((m1 <<< 60 / m2 : Nat) : Rat) < (m1 <<< 60 : Nat) / m2 := by
      rw [lt_div_iff₀ pos]
      exact_mod_cast (show m1 <<< 60 / m2 * m2 < m1 <<< 60 by omega)
    have high : ((m1 <<< 60 : Nat) / m2 : Rat) < ((m1 <<< 60 / m2 : Nat) : Rat) + 1 := by
      rw [div_lt_iff₀ pos]
      exact_mod_cast (show m1 <<< 60 < (m1 <<< 60 / m2 + 1) * m2 by rw [Nat.add_one_mul]; omega)
    rw [decide_eq_true whole]
    exact roundsTo_floatRound_sticky _ _ long low high

/-- A term of a sum, at a lower exponent. -/
theorem signedValue_eq_floatAlign (neg : Bool) (m : Nat) {e low : Int} (le : low ≤ e) :
    signedValue neg m e = floatAlign neg m e low * 2 ^ low := by
  have shifted : magnitude m e = magnitude (m <<< (e - low).toNat) low := by
    rw [Nat.shiftLeft_eq, magnitude_mul_pow, Int.toNat_of_nonneg (by omega), add_sub_cancel]
  rw [signedValue, floatAlign, shifted, magnitude]
  generalize m <<< (e - low).toNat = n
  cases neg <;> simp

/-- The value with the other sign. -/
theorem signedValue_not (neg : Bool) (m : Nat) (e : Int) : signedValue (!neg) m e = -signedValue neg m e := by
  cases neg <;> simp [signedValue]

/-- The zeros (20_memory.md R55). -/
theorem floatPack_zero (neg : Bool) : floatPack neg 0 0 = if neg then 0x80000000 else 0 := by
  cases neg <;> decide

/-- The sum rounded: an exact zero is +0 unless both terms are negative (log 15). -/
theorem roundsTo_floatSum (nan : Word) (n1 n2 : Bool) (m1 m2 : Nat) (e1 e2 : Int) {sum : Rat}
    (sum_eq : sum = signedValue n1 m1 e1 + signedValue n2 m2 e2) :
    (sum ≠ 0 → roundsTo (decide (sum < 0)) |sum| (floatSum nan (.fin n1 m1 e1) (.fin n2 m2 e2))) ∧
    (sum = 0 → floatSum nan (.fin n1 m1 e1) (.fin n2 m2 e2) = floatPack (n1 && n2) 0 0) := by
  have unit : (0 : Rat) < 2 ^ min e1 e2 := zpow_pos two_pos _
  rw [signedValue_eq_floatAlign n1 m1 (min_le_left e1 e2), signedValue_eq_floatAlign n2 m2 (min_le_right e1 e2), ← add_mul,
    ← Int.cast_add] at sum_eq
  rw [floatSum]
  generalize floatAlign n1 m1 e1 (min e1 e2) + floatAlign n2 m2 e2 (min e1 e2) = v at sum_eq ⊢
  have zero_iff : sum = 0 ↔ v = 0 := by simp [sum_eq, unit.ne']
  refine ⟨fun nonzero => ?_, fun zero => if_pos (zero_iff.1 zero)⟩
  have sign : decide (sum < 0) = decide (v < 0) := by simp [sum_eq, mul_neg_iff, unit, unit.le]
  have size : |sum| = magnitude v.natAbs (min e1 e2) := by
    rw [sum_eq, abs_mul, abs_of_pos unit, magnitude, Nat.cast_natAbs, Int.cast_abs]
  rw [sign, size]
  exact (if_neg (mt zero_iff.2 nonzero)).symm ▸ roundsTo_floatRound _ _ _

/-- Settles O59: each operation rounds its exact result once; a difference is a sum with the second sign flipped. -/
theorem floatOperationsRoundTheExactResult : Obligations.FloatOperationsRoundTheExactResult := by
  intro a b n1 n2 m1 m2 e1 e2 first second
  have add := roundsTo_floatSum (floatQuietNan (Config.nanBits .add a b)) n1 n2 m1 m2 e1 e2 rfl
  have sub := roundsTo_floatSum (floatQuietNan (Config.nanBits .sub a b)) n1 (!n2) m1 m2 e1 e2
    ((sub_eq_add_neg _ _).trans (congrArg _ (signedValue_not n2 m2 e2).symm))
  rw [floatPack_zero] at add sub
  rw [fmul, fdiv, fadd, fsub, first, second, magnitude_mul]
  exact ⟨roundsTo_floatRound _ _ _, fun nonzero => roundsTo_floatQuotient _ n1 n2 e1 e2 nonzero (significand_lt second),
    add.1, add.2, sub.1, sub.2⟩

end Sys2Proof.Machine
end

section
/-! ## An error leaves no partial result (60_exceptions.md R221) -/

namespace Sys2Proof.Machine

/-- A command that is IDLE after its step has completed with a code: a posted request and the stuck block of an
ENTROPY_RANGE fault are in WAIT_ENT. With an error code RES0, memory and, but for the ERR(e) held, RES1 are kept
(10_state.md R31, 60_exceptions.md R221). -/
theorem Ending.completion_of_idle {i : Instr} {s t : State} (h : Ending i s t) (idle : t.phase = .idle) :
    ∃ c, t.status = s.status.complete c ∧ (c ≠ .ok → t.res0 = s.res0 ∧ t.mem = s.mem ∧
      (t.res1 = s.res1 ∨ (c = .entropy ∧ ∃ e, s.answer = some (.err e) ∧ t.res1 = e))) := by
  cases h with
  | completes _ c _ _ _ _ status _ error => exact ⟨c, status, error⟩
  | asks => cases idle
  | breaks => cases idle

/-- Settles O56: every command has an ending, and in IDLE it is a completion with the code that STATUS shows. -/
theorem errorsLeaveNoPartialResult : Obligations.ErrorsLeaveNoPartialResult := by
  intro i s
  obtain ⟨t, runs, ending⟩ := exec_ending i s
  refine ⟨t, runs, fun idle failed => ?_⟩
  obtain ⟨c, status, error⟩ := ending.completion_of_idle idle
  rw [status] at failed ⊢
  obtain ⟨res0, mem, res1⟩ := error failed
  exact ⟨res0, mem, rfl, rfl, res1⟩

end Sys2Proof.Machine
end

section
/-! ## The reset input (70_reset_and_hazards.md R250 to R252) -/

namespace Sys2Proof.Machine

/-- With no request outstanding an answer moves nothing (70_reset_and_hazards.md R252; log 14). -/
theorem State.receive_of_request_none {s : State} (request : s.request = none) (a : Answer) : s.receive a = s := by
  rw [State.receive, request]

/-- A reset leaves VEC without a value (10_state.md R41). -/
theorem State.hwReset_vec (s : State) (j : Nat) : s.hwReset.vec j = none := rfl

/-- Settles O9: the reset leaves the block in IDLE, where block turns stutter, and an answer finds no request. -/
theorem resetAbandonsTheCommand : Obligations.ResetAbandonsTheCommand := by
  refine ⟨fun s n agenda => ?_, fun s a rest agenda => step_lateAnswer s a rest agenda,
    fun s a rest request agenda => ?_⟩
  · have idle : (({ s with agenda := List.replicate n .block } : State).hwReset).phase ≠ .exec := Phase.noConfusion
    rw [core_run_next n _ _ (step_reset s _ agenda), core_run_blockTurns idle n rfl]
    rfl
  · rw [step_answer s a rest agenda, State.receive_of_request_none (s := { s with agenda := rest }) request]

/-- Settles O10: the step is `State.hwReset`, which writes out the reset table. -/
theorem resetInputTakesTheTableValues : Obligations.ResetInputTakesTheTableValues := by
  intro s rest agenda
  exact ⟨_, step_reset s rest agenda, rfl, rfl, rfl, rfl, rfl, rfl, rfl, Status.word_reset, rfl, rfl, rfl, rfl, rfl, rfl,
    rfl, State.hwReset_vec _, rfl, rfl, rfl, rfl, rfl⟩

end Sys2Proof.Machine
end
